-- ==== Sys2Proof/Word.lean ====
section
/-! DEFINITION. The word types of SDSPI-CORE (00_scope.md R14: all values are unsigned, a byte is 8 bits). -/

namespace Sys2Proof

/-- A byte: one exchange moves one each way (20_memory.md R59). -/
abbrev Byte := BitVec 8

/-- A 32-bit value: command arguments, payloads, sector numbers, sector counts (00_scope.md section 4). -/
abbrev Word := BitVec 32

/-- A value of the tick port, `P_TICK_W` = 32 bits wide (00_scope.md R10). -/
abbrev Tick := BitVec 32

end Sys2Proof
end

