-- ==== Sys2Proof/Config.lean ====
section
/-! DEFINITION. The parameters of 00_scope.md section 4 and the free values of the model.
Fixed parameters are constants here. The parameters a model takes as arguments (R12) are the record
`Params`, which State carries and no instruction writes. Free values are opaque: nothing can prove a
value of one. -/

namespace Sys2Proof

/-- The two bus speeds (10_state.md R26). -/
inductive Speed
  | slow | fast
  deriving DecidableEq, Repr, Inhabited

/-- `P_CMD0_EXTRA_TRIGGER` (92_eei_decisions.md D4). -/
inductive Cmd0Trigger
  | exhausted | notIdle
  deriving DecidableEq, Repr

/-- `P_TOKEN_POLL_STOP` (92_eei_decisions.md D13). -/
inductive TokenPollStop
  | onStartToken | onNonIdle
  deriving DecidableEq, Repr

/-- The parameters a model takes as arguments (00_scope.md section 4 and R12). -/
structure Params where
  /-- `P_N_RESP`, at least 1. -/
  nResp : Nat
  /-- `P_READY_BUDGET`, in ticks. -/
  readyBudget : Nat
  /-- `P_TOKEN_BUDGET`, in ticks. -/
  tokenBudget : Nat
  /-- `P_CMD0_EXTRA_TRIGGER`. -/
  cmd0Trigger : Cmd0Trigger
  /-- `P_POWERUP_BYTES`, at least 100. -/
  powerupBytes : Nat
  /-- `P_R7_PATTERN`. -/
  r7Pattern : Word
  /-- `P_R7_MASK`. -/
  r7Mask : Word
  /-- `P_HCS_ARG`. -/
  hcsArg : Word
  /-- `P_CCS_BIT`. -/
  ccsBit : Nat
  /-- `P_TOKEN_POLL_STOP`. -/
  tokenPollStop : TokenPollStop
  /-- `P_STOP_ON_ABORT`. -/
  stopOnAbort : Bool
  /-- `P_ADDR_W`, OPEN. -/
  addrWidth : Nat
  /-- `P_SLOW`, OPEN; a label no rule reads. -/
  slowRate : Nat
  /-- `P_FAST`, OPEN; a label no rule reads. -/
  fastRate : Nat
  deriving DecidableEq, Repr

namespace Config

/-- `P_BLOCK`: bytes per data block and per sector. -/
def blockBytes : Nat := 512

/-- `P_CMD0_EXTRA`: additional CMD0 polls (fixed, 00_scope.md R13). -/
def cmd0Extra : Nat := 1000

/-- `P_INIT_ITER`: attempts of each ACMD41 or CMD1 loop (fixed, R13). -/
def initIter : Nat := 10000

/-- `P_IDLE`: the byte transmitted when only reading (30_encoding.md R80). -/
def idleByte : Byte := 0xFF

/-- `P_POWERUP_TX`: the byte of each power-up exchange (D20). -/
def powerupTx : Byte := 0xFF

/-- `P_CMD8_ACCEPT`: the status that means CMD8 was accepted (D5). -/
def cmd8Accept : Byte := 0x01

/-- Free value: the byte of the n-th exchange when no scripted answer is left (I1, I4; log 2). -/
opaque cardByte : Nat → Byte

/-- Free value: the n-th tick read when no scripted tick is left (I3; log 3). -/
opaque tickValue : Nat → Tick

/-- Free value: how many unscripted polls a wait makes before the tick port shows its budget expired,
which 40_transport.md R108 (a) says it eventually does (log 4). -/
opaque waitPolls : Nat → Nat

/-- Free value: the bus speed at reset, any of the two (I2; log 7). -/
opaque resetSpeed : Speed

/-- Free value: `P_ADDR_W`, OPEN (I15; log 8). -/
opaque addrWidth : Nat

/-- Free value: `P_SLOW`, OPEN (I16; log 8). -/
opaque slowRate : Nat

/-- Free value: `P_FAST`, OPEN (I16; log 8). -/
opaque fastRate : Nat

end Config

/-- The values 00_scope.md section 4 gives, with the OPEN ones as arguments. -/
def Params.standard (addrWidth slowRate fastRate : Nat) : Params where
  nResp := 10
  readyBudget := 500
  tokenBudget := 500
  cmd0Trigger := .exhausted
  powerupBytes := 100
  r7Pattern := 0x000001AA
  r7Mask := 0xFFFFFFFF
  hcsArg := 0x40000000
  ccsBit := 30
  tokenPollStop := .onStartToken
  stopOnAbort := true
  addrWidth := addrWidth
  slowRate := slowRate
  fastRate := fastRate

end Sys2Proof
end

