-- ==== Sys2Proof/Syntax.lean ====
section
/-! DEFINITION. The instructions: one constructor per row of spec/opcode_table.json, in the table's
order. Fields a row's bits do not hold are the operands its rule gives (30_encoding.md R85,
43_block_transfer.md R190, R191). -/

namespace Sys2Proof

/-- The fields of a host request beside `op` (30_encoding.md R85). An operation ignores the fields
it does not name, but the arbiter latches them all (44_facade.md R220). -/
structure ReqArgs where
  unit   : Byte
  buf    : Nat
  sector : Word
  count  : Word
  icmd   : Byte
  deriving DecidableEq, Repr

/-- The request fields of an instruction that has none. -/
def ReqArgs.zero : ReqArgs := ⟨0, 0, 0, 0, 0⟩

inductive Instr
  /-- CMD0, 41_command.md R130. -/
  | cmd0
  /-- CMD1, R131. -/
  | cmd1
  /-- CMD8, R132; `dest` says whether the caller supplied a destination (R125, R127). -/
  | cmd8 (dest : Bool)
  /-- CMD12, R133. -/
  | cmd12
  /-- CMD16, R134. -/
  | cmd16
  /-- CMD17, R135. -/
  | cmd17 (sector : Word)
  /-- CMD18, R136. -/
  | cmd18 (sector : Word)
  /-- CMD24, R137. -/
  | cmd24 (sector : Word)
  /-- CMD25, R138. -/
  | cmd25 (sector : Word)
  /-- CMD55, R139. -/
  | cmd55
  /-- ACMD41 with HCS clear, R140. -/
  | acmd41Hcs0
  /-- ACMD41 with HCS set, R141. -/
  | acmd41Hcs1
  /-- CMD58, R142; `dest` as for CMD8. -/
  | cmd58 (dest : Bool)
  /-- Start token received, 43_block_transfer.md R190; `base` is the buffer address. -/
  | startBlockRx (base : Nat)
  /-- Single-block start token sent, R191. -/
  | startBlockTx (base : Nat)
  /-- Multi-block start token sent, R191. -/
  | startMultiTx (base : Nat)
  /-- Stop token, R196. -/
  | stopTran
  /-- Data response `ignored ++ 0101`, R197. -/
  | dataRespAccepted (ignored : BitVec 4)
  /-- Response byte `0 ++ flags`, 41_command.md R123. -/
  | r1Valid (flags : BitVec 7)
  /-- Response byte `1 ++ rest`, R123. -/
  | r1Unresolved (rest : BitVec 7)
  /-- The idle byte sent, 30_encoding.md R80. -/
  | idleFiller
  /-- The card-ready byte received, 40_transport.md R102. -/
  | cardReady
  /-- `status()`, 44_facade.md R222. -/
  | status (q : ReqArgs)
  /-- `initialize()`, R223. -/
  | init (q : ReqArgs)
  /-- `read(unit, buffer, startSector, count)`, R224. -/
  | read (q : ReqArgs)
  /-- `write(unit, buffer, startSector, count)`, R225. -/
  | write (q : ReqArgs)
  /-- `ioctl(unit, cmd, buffer)`, R226. -/
  | ioctl (q : ReqArgs)
  /-- `Xchg(t)`, 40_transport.md R100. -/
  | xchg (t : Byte)
  /-- `Rx()`, R101. -/
  | rx
  /-- `WaitReady()`, R102. -/
  | waitReady
  /-- `Select`, R103. -/
  | select
  /-- `Deselect`, R104. -/
  | deselect
  /-- `SetSpeed(s)`, R105. -/
  | setSpeed (s : Speed)
  deriving DecidableEq, Repr

end Sys2Proof
end

