-- ==== Sys2Proof/WellFormed.lean ====
section
/-! DEFINITION. What an instruction's operands and the parameters must satisfy. The width of every
field but a buffer address stands in its type; an address is `P_ADDR_W` bits wide (00_scope.md R16,
44_facade.md R228), which is a parameter. -/

namespace Sys2Proof

/-- A buffer address fits the host address width (30_encoding.md R85); zero fits every width. -/
def addrFits (addrWidth a : Nat) : Bool := a == 0 || decide (a < 2 ^ addrWidth)

/-- `base + n` does not overflow the host address width (44_facade.md R228 (b)). -/
def spanFits (addrWidth base n : Nat) : Bool := addrFits addrWidth (base + n)

/-- An instruction can be spelled on a block with addresses of `addrWidth` bits. -/
def Instr.wellFormed (addrWidth : Nat) : Instr → Bool
  | .cmd0 | .cmd1 | .cmd8 _ | .cmd12 | .cmd16 | .cmd17 _ | .cmd18 _ | .cmd24 _ | .cmd25 _ | .cmd55
  | .acmd41Hcs0 | .acmd41Hcs1 | .cmd58 _ => true
  | .startBlockRx base | .startBlockTx base | .startMultiTx base => addrFits addrWidth base
  | .stopTran | .dataRespAccepted _ | .r1Valid _ | .r1Unresolved _ | .idleFiller | .cardReady => true
  | .status q | .init q | .read q | .write q | .ioctl q => addrFits addrWidth q.buf
  | .xchg _ | .rx | .waitReady | .select | .deselect | .setSpeed _ => true

/-- The parameter bounds of 00_scope.md R12; a model refuses other values. -/
def Params.ok (p : Params) : Bool := decide (1 ≤ p.nResp) && decide (100 ≤ p.powerupBytes)

end Sys2Proof
end

