-- ==== Sys2Proof/Decode.lean ====
section
/-! DEFINITION. The encodings of 30_encoding.md: the decoder, total on every word in every place,
and after it the encoder. The same byte means different things in different places (R81: `0xFE` is a
start token, a data byte or an unresolved status), so a word is decoded in the `Slot` it stands in
(log 14). -/

namespace Sys2Proof

/-- The place a word stands in: the column `format` of the opcode table, and, where rows of one
format share a byte, the procedure the spec names for it. -/
inductive Slot
  /-- A 6-byte command frame (R70), sent by a caller of 41_command.md R127. -/
  | frame
  /-- A CMD8 or CMD58 frame sent by a caller with no destination (R125). -/
  | frameNoDest
  /-- A byte received where a start token is awaited (R190). -/
  | tokenRx
  /-- A token the block sends (R191, R196). -/
  | tokenTx
  /-- A byte received after a written block (R197). -/
  | dataResponse
  /-- A byte received in the response poll (R123). -/
  | response
  /-- The byte the block sends when it only receives (R80). -/
  | filler
  /-- A byte received in a ready wait (R102). -/
  | readyPoll
  /-- A host request (R85). -/
  | host
  /-- A call of `Xchg`; the word is the byte to send. -/
  | xchg
  /-- A call of `Rx`; the word is the byte sent. -/
  | rx
  /-- A call of `WaitReady`; the word is the byte sent. -/
  | waitReady
  /-- A call of `Select`, which has no bits. -/
  | select
  /-- A call of `Deselect`, which has no bits. -/
  | deselect
  /-- A call of `SetSpeed`; the word is 0 for `Slow` and 1 for `Fast` (log 17). -/
  | setSpeed
  deriving DecidableEq, Repr

/-- An encoded instruction: the bytes the opcode table gives it, in wire order, in their place, and
the operand fields the table gives no bits (R85; `buf` is also the `base` of a block primitive). -/
structure Code where
  slot : Slot
  bits : List Byte
  args : ReqArgs
  deriving DecidableEq, Repr

/-- Why a word spells no instruction. -/
inductive Reject
  /-- An `op` of 5 to 255 at the host port (R86). -/
  | reservedOp (op : Byte)
  /-- Not a frame of R72's table. -/
  | notAFrame
  /-- Not a token of R78's table in that direction. -/
  | notAToken
  /-- A data response whose low nibble is not `0101` has no row of its own (R79). -/
  | notAccepted
  /-- Not the byte its place always holds (R80, R101, R102). -/
  | notIdle
  /-- Not a speed. -/
  | notASpeed
  /-- The wrong number of bytes for its place (R84). -/
  | badLength
  /-- A buffer address wider than `P_ADDR_W` bits (R85). -/
  | badAddress
  deriving DecidableEq, Repr

/-- `b3 ++ b2 ++ b1 ++ b0`, the first byte most significant (R54, R55, R83). -/
def be32 (b3 b2 b1 b0 : Byte) : Word := (b3 ++ b2 ++ b1 ++ b0 : BitVec (8 + 8 + 8 + 8))

/-- Byte `k` of a 32-bit value, byte 0 least significant. -/
def wordByte (w : Word) (k : Nat) : Byte := w.extractLsb' (8 * k) 8

/-- The four bytes of a 32-bit value, most significant first (20_memory.md R54). -/
def bigEndian (w : Word) : List Byte := [wordByte w 3, wordByte w 2, wordByte w 1, wordByte w 0]

/-- The CRC byte of a command index (R71). -/
def crcByte (idx : BitVec 6) : Byte :=
  if idx = 0 then 0x95 else if idx = 8 then 0x87 else 0x00

/-- Byte 0 of a frame: framing bits `01`, then the index (R70). -/
def commandByte (idx : BitVec 6) : Byte := (0b01#2 ++ idx : BitVec (2 + 6))

/-- The six bytes of a command frame, byte 0 first (R70). -/
def frameBytes (idx : BitVec 6) (arg : Word) (crc : Byte) : List Byte :=
  commandByte idx :: bigEndian arg ++ [crc]

/-- A row whose fixed bits must match. -/
def rowIf (fits : Bool) (why : Reject) (i : Instr) : Except Reject Instr :=
  if fits then .ok i else .error why

/-- A row of R72's table: byte 0, the argument unless it is the operand, the CRC byte, what it spells. -/
structure FrameRow where
  cmd : Byte
  arg : Option Word
  crc : Byte
  instr : Word → Instr

/-- R72's table: the frames the block emits. -/
def frameRows : List FrameRow :=
  [⟨0x40, some 0x00000000, 0x95, fun _ => .cmd0⟩,
   ⟨0x41, some 0x00000000, 0x00, fun _ => .cmd1⟩,
   ⟨0x48, some 0x000001AA, 0x87, fun _ => .cmd8 true⟩,
   ⟨0x4C, some 0x00000000, 0x00, fun _ => .cmd12⟩,
   ⟨0x50, some 0x00000200, 0x00, fun _ => .cmd16⟩,
   ⟨0x51, none, 0x00, .cmd17⟩,
   ⟨0x52, none, 0x00, .cmd18⟩,
   ⟨0x58, none, 0x00, .cmd24⟩,
   ⟨0x59, none, 0x00, .cmd25⟩,
   ⟨0x77, some 0x00000000, 0x00, fun _ => .cmd55⟩,
   ⟨0x69, some 0x00000000, 0x00, fun _ => .acmd41Hcs0⟩,
   ⟨0x69, some 0x40000000, 0x00, fun _ => .acmd41Hcs1⟩,
   ⟨0x7A, some 0x00000000, 0x00, fun _ => .cmd58 true⟩]

/-- The frames with an extended response, sent with no destination (R125). -/
def frameRowsNoDest : List FrameRow :=
  [⟨0x48, some 0x000001AA, 0x87, fun _ => .cmd8 false⟩,
   ⟨0x7A, some 0x00000000, 0x00, fun _ => .cmd58 false⟩]

/-- The row's fixed bits match. -/
def FrameRow.fits (cmd : Byte) (arg : Word) (crc : Byte) (r : FrameRow) : Bool :=
  cmd == r.cmd && crc == r.crc && r.arg.all (arg == ·)

/-- The instruction of the row that fits. -/
def decodeFrame (rows : List FrameRow) (cmd : Byte) (arg : Word) (crc : Byte) : Except Reject Instr :=
  match rows.find? (FrameRow.fits cmd arg crc) with
  | some r => .ok (r.instr arg)
  | none => .error .notAFrame

/-- R78: the tokens the block sends. -/
def decodeTokenTx (b : Byte) (base : Nat) : Except Reject Instr :=
  if b = 0xFE then .ok (.startBlockTx base)
  else if b = 0xFC then .ok (.startMultiTx base)
  else rowIf (b == 0xFD) .notAToken .stopTran

/-- R74, R81: a polled byte is unresolved when bit 7 is set, else a valid status. -/
def decodeResponse (b : Byte) : Instr :=
  if b.getLsbD 7 then .r1Unresolved (b.extractLsb' 0 7) else .r1Valid (b.extractLsb' 0 7)

/-- R79: accepted when bits 3:0 are `0101`; bits 7:4 are ignored, and kept as the operand. -/
def decodeDataResponse (b : Byte) : Except Reject Instr :=
  rowIf (b.extractLsb' 0 4 == 0b0101#4) .notAccepted (.dataRespAccepted (b.extractLsb' 4 4))

/-- R85: the five operations; R86: every other `op` is reserved. -/
def decodeHost (op : Byte) (q : ReqArgs) : Except Reject Instr :=
  if op = 0 then .ok (.status q)
  else if op = 1 then .ok (.init q)
  else if op = 2 then .ok (.read q)
  else if op = 3 then .ok (.write q)
  else rowIf (op == 4) (.reservedOp op) (.ioctl q)

/-- A place that holds no byte. -/
def noByte (bits : List Byte) (i : Instr) : Except Reject Instr :=
  match bits with
  | [] => .ok i
  | _ :: _ => .error .badLength

/-- A place that holds one byte. -/
def oneByte (bits : List Byte) (f : Byte → Except Reject Instr) : Except Reject Instr :=
  match bits with
  | [b] => f b
  | _ => .error .badLength

/-- A place that holds one byte, always the same. -/
def theByte (bits : List Byte) (fixed : Byte) (why : Reject) (i : Instr) : Except Reject Instr :=
  oneByte bits fun b => rowIf (b == fixed) why i

/-- A place that holds a frame. -/
def sixBytes (bits : List Byte) (f : Byte → Word → Byte → Except Reject Instr) : Except Reject Instr :=
  match bits with
  | [b0, b1, b2, b3, b4, b5] => f b0 (be32 b1 b2 b3 b4) b5
  | _ => .error .badLength

/-- R105's two speeds (log 17). -/
def decodeSpeed (b : Byte) : Except Reject Instr :=
  if b = 0 then .ok (.setSpeed .slow) else rowIf (b == 1) .notASpeed (.setSpeed .fast)

/-- The decoder. A byte with no row in the place of a received byte (a token poll that is not `0xFE`, a ready poll that
is not `0xFF`, a data response whose low nibble is not 5) spells no instruction: the model's choice (log 14), since the
table gives it no row; a received byte itself is never illegal and every procedure classifies it (R81). -/
def decode (c : Code) : Except Reject Instr :=
  match c.slot with
  | .frame => sixBytes c.bits (decodeFrame frameRows)
  | .frameNoDest => sixBytes c.bits (decodeFrame frameRowsNoDest)
  | .tokenRx => theByte c.bits 0xFE .notAToken (.startBlockRx c.args.buf)
  | .tokenTx => oneByte c.bits fun b => decodeTokenTx b c.args.buf
  | .dataResponse => oneByte c.bits decodeDataResponse
  | .response => oneByte c.bits fun b => .ok (decodeResponse b)
  | .filler => theByte c.bits 0xFF .notIdle .idleFiller
  | .readyPoll => theByte c.bits 0xFF .notIdle .cardReady
  | .host => oneByte c.bits fun op => decodeHost op c.args
  | .xchg => oneByte c.bits fun t => .ok (.xchg t)
  | .rx => theByte c.bits 0xFF .notIdle .rx
  | .waitReady => theByte c.bits 0xFF .notIdle .waitReady
  | .select => noByte c.bits .select
  | .deselect => noByte c.bits .deselect
  | .setSpeed => oneByte c.bits decodeSpeed

/-- The place an 8-bit word of the opcode table is taken to stand in when nothing else says (log 14):
an operation code at the host port, else a byte the block itself sends (R78, R80), else a byte it
receives (R79, R74). -/
def tableSlot (b : Byte) : Slot :=
  if b.toNat ≤ 4 then .host
  else if b = 0xFC ∨ b = 0xFD ∨ b = 0xFE then .tokenTx
  else if b = 0xFF then .filler
  else if b.extractLsb' 0 4 = 0b0101#4 then .dataResponse
  else .response

/-- A word of the opcode table as a `Code`, operand fields zero. A 48-bit row is a frame whose byte 0
stands in bits 47:40 (R70). -/
def tableCode (nbits w : Nat) : Code :=
  if nbits ≤ 8 then
    let b := BitVec.ofNat 8 w
    ⟨tableSlot b, [b], ReqArgs.zero⟩
  else
    let f := BitVec.ofNat 48 w
    ⟨.frame, [f.extractLsb' 40 8, f.extractLsb' 32 8, f.extractLsb' 24 8, f.extractLsb' 16 8,
      f.extractLsb' 8 8, f.extractLsb' 0 8], ReqArgs.zero⟩

/-- The instruction the decoder reads from a word numbered as spec/opcode_table.json numbers it. -/
def decodeTableWord (nbits w : Nat) : Option Instr :=
  match decode (tableCode nbits w) with
  | .ok i => some i
  | .error _ => none

/-! The encoder. -/

/-- A frame sent by a caller of R127, with R71's CRC byte. -/
def frameCode (idx : BitVec 6) (arg : Word) : Code :=
  ⟨.frame, frameBytes idx arg (crcByte idx), ReqArgs.zero⟩

/-- A frame with an extended response and its caller's destination or none. -/
def frameCodeDest (dest : Bool) (idx : BitVec 6) (arg : Word) : Code :=
  ⟨if dest then .frame else .frameNoDest, frameBytes idx arg (crcByte idx), ReqArgs.zero⟩

/-- A one-byte word in its place. -/
def byteCode (slot : Slot) (b : Byte) : Code := ⟨slot, [b], ReqArgs.zero⟩

/-- A token of a block at `base`. -/
def blockCode (slot : Slot) (b : Byte) (base : Nat) : Code :=
  ⟨slot, [b], { ReqArgs.zero with buf := base }⟩

/-- The word of an instruction (30_encoding.md R72, R78 to R80, R85). -/
def encode : Instr → Code
  | .cmd0 => frameCode 0 0x00000000
  | .cmd1 => frameCode 1 0x00000000
  | .cmd8 dest => frameCodeDest dest 8 0x000001AA
  | .cmd12 => frameCode 12 0x00000000
  | .cmd16 => frameCode 16 0x00000200
  | .cmd17 sector => frameCode 17 sector
  | .cmd18 sector => frameCode 18 sector
  | .cmd24 sector => frameCode 24 sector
  | .cmd25 sector => frameCode 25 sector
  | .cmd55 => frameCode 55 0x00000000
  | .acmd41Hcs0 => frameCode 41 0x00000000
  | .acmd41Hcs1 => frameCode 41 0x40000000
  | .cmd58 dest => frameCodeDest dest 58 0x00000000
  | .startBlockRx base => blockCode .tokenRx 0xFE base
  | .startBlockTx base => blockCode .tokenTx 0xFE base
  | .startMultiTx base => blockCode .tokenTx 0xFC base
  | .stopTran => byteCode .tokenTx 0xFD
  | .dataRespAccepted ignored => byteCode .dataResponse (ignored ++ 0b0101#4 : BitVec (4 + 4))
  | .r1Valid flags => byteCode .response (0b0#1 ++ flags : BitVec (1 + 7))
  | .r1Unresolved rest => byteCode .response (0b1#1 ++ rest : BitVec (1 + 7))
  | .idleFiller => byteCode .filler 0xFF
  | .cardReady => byteCode .readyPoll 0xFF
  | .status q => ⟨.host, [0], q⟩
  | .init q => ⟨.host, [1], q⟩
  | .read q => ⟨.host, [2], q⟩
  | .write q => ⟨.host, [3], q⟩
  | .ioctl q => ⟨.host, [4], q⟩
  | .xchg t => byteCode .xchg t
  | .rx => byteCode .rx 0xFF
  | .waitReady => byteCode .waitReady 0xFF
  | .select => ⟨.select, [], ReqArgs.zero⟩
  | .deselect => ⟨.deselect, [], ReqArgs.zero⟩
  | .setSpeed .slow => byteCode .setSpeed 0
  | .setSpeed .fast => byteCode .setSpeed 1

end Sys2Proof
end

