-- ==== Sys2Proof/Machine/State.lean ====
section
/-! DEFINITION. The machine's state as plain data: what 10_state.md gives the block, the inputs its
environment supplies, and the observables it leaves (92_eei_decisions.md D32). -/

namespace Sys2Proof.Machine

/-- The card family, 2 bits (10_state.md R22). -/
inductive Version
  | none | mmcv3 | sdv1 | sdv2Plus
  deriving DecidableEq, Repr

/-- Whether the card is usable, 1 bit (R23). -/
inductive Status
  | uninitialized | ready
  deriving DecidableEq, Repr

/-- The chip-select output as a logical level, 1 bit (R25). -/
inductive ChipSelect
  | deselected | selected
  deriving DecidableEq, Repr

/-- The sequencer register, 4 bits, in the order of R21's table. -/
inductive Seq
  | idle | native | idleReset | ifCond | legacyAcmd41 | legacyCmd1 | v2Acmd41 | v2ReadOcr
  | blockSizeConfig | negEnd | xferCmd | xferData | xferStop | result | unused14 | unused15
  deriving DecidableEq, Repr

/-- The internal datapath registers (R28 to R31). `none` is the spec's own "holds no value": a
register has none until its unit writes it in the current request (R33, R36; log 6). Counts are
numbers; their widths are an invariant (`Regs.InWidth`, log 22). -/
structure Regs where
  cmdIdx    : Option (BitVec 6)
  cmdArg    : Option Word
  cmdCrc    : Option Byte
  resp      : Option Byte
  tries     : Option Nat
  xtries    : Option Nat
  ext       : Option Word
  extDest   : Option Bool
  extOut    : Option Word
  iter      : Option Nat
  pendVer   : Option Version
  r7        : Option Word
  ocr       : Option Word
  pu        : Option Nat
  t0        : Option Tick
  tok       : Option Byte
  bcnt      : Option Nat
  blk       : Option Nat
  ptr       : Option Nat
  dresp     : Option Byte
  ok        : Option Bool
  reqOp     : Option Byte
  reqUnit   : Option Byte
  reqBuf    : Option Nat
  reqSector : Option Word
  reqCount  : Option Word
  result    : Option Byte
  deriving DecidableEq, Repr

/-- No register holds a value (R36). -/
def Regs.empty : Regs where
  cmdIdx := none
  cmdArg := none
  cmdCrc := none
  resp := none
  tries := none
  xtries := none
  ext := none
  extDest := none
  extOut := none
  iter := none
  pendVer := none
  r7 := none
  ocr := none
  pu := none
  t0 := none
  tok := none
  bcnt := none
  blk := none
  ptr := none
  dresp := none
  ok := none
  reqOp := none
  reqUnit := none
  reqBuf := none
  reqSector := none
  reqCount := none
  result := none

/-- Host memory: the bytes that differ from what an unlisted address reads as, addresses strictly
rising (20_memory.md R50; log 10). -/
abbrev Memory := List Host.Cell

/-- A range of host memory the host made accessible (44_facade.md R228 (b); log 11). -/
structure Region where
  base     : Nat
  size     : Nat
  readable : Bool
  writable : Bool
  deriving DecidableEq, Repr

/-- One event of the wire trace (00_scope.md R9, R17). -/
inductive Event
  | xchg (tx rx : Byte)
  | select
  | deselect
  | setSpeed (s : Speed)
  deriving DecidableEq, Repr

/-- What the host does next. -/
inductive HostAct
  /-- It submits a word when the result before it has been delivered (R228 (a)). -/
  | submit (c : Code)
  /-- It submits a word while the request before it is still served, against R228 (a). -/
  | overlap (c : Code)
  /-- It accesses a byte while the request before it is still served (R64, R228 (c)). -/
  | touch (a : Nat)
  /-- It writes a byte of its memory between requests (log 27). -/
  | poke (a : Nat) (b : Byte)
  deriving DecidableEq, Repr

/-- The draws the environment has ready (00_scope.md R10, R11; log 2 to 5). -/
structure Env where
  /-- The card's next answers; when there are none left an answer is a free value. -/
  answers   : List Byte
  /-- The next tick reads; when there are none left a read is a free value. -/
  ticks     : List Tick
  /-- Exchanges made so far: the index of the next free answer. -/
  nAnswer   : Nat
  /-- Tick reads made so far: the index of the next free tick. -/
  nTick     : Nat
  /-- How many more exchanges find the transport idle in the end; `none`: every one does (40_transport.md
  R108 (b)). -/
  transport : Option Nat
  /-- The tick port shows expiry in every wait that does not end earlier (R108 (a)). -/
  tickFair  : Bool
  deriving DecidableEq, Repr

/-- The value a procedure called by itself returned (00_scope.md R15). -/
inductive Ret
  | byte (b : Byte)
  | bool (b : Bool)
  deriving DecidableEq, Repr

structure State where
  version   : Version
  status    : Status
  cs        : ChipSelect
  speed     : Speed
  busy      : Bool
  seq       : Seq
  regs      : Regs
  mem       : Memory
  regions   : List Region
  cfg       : Params
  inbox     : List HostAct
  env       : Env
  wire      : List Event
  delivered : List Byte
  ret       : Option Ret
  deriving DecidableEq, Repr

/-- What an InternalFault found (60_exceptions.md R245); none of them happens in a request. -/
inductive InternalCause
  /-- A datapath register was read before its unit wrote it (10_state.md R33). -/
  | unwrittenRead
  /-- `seq` is 14 or 15 (R21). -/
  | seqUnused
  /-- `Select` was made while `cs = Selected` (40_transport.md R103). -/
  | selectWhileSelected
  deriving DecidableEq, Repr

/-- Why the machine stops. Stopping is safe: no claim is proved about such a run. -/
inductive Fault
  /-- Raised by `readReg`, `enter` and `select`; the spec has a model fault there. Safe. -/
  | internalFault (cause : InternalCause)
  /-- Raised by `xchg`: the transport never becomes idle, a hang the block does not bound (R100,
  R108 (b), I5). The machine is stuck. Safe. -/
  | transportNeverIdle
  /-- Raised by `lastTick`: the tick port never shows the wait expired (R108 (a), R228 (d)). The
  machine is stuck. Safe. -/
  | waitNeverEnds
  deriving DecidableEq, Repr

/-- Why a run is given no meaning (60_exceptions.md R245). Refusing is safe. -/
inductive Refusal
  /-- Raised by `exec` for an instruction with no meaning yet; no arm does. Safe. -/
  | notModelled (mnemonic : String)
  /-- Raised by `accept`: a request while `busy = 1`, or one that arrives during it (R220). Safe. -/
  | concurrentRequest
  /-- Raised by `rejected`: an `op` of 5 to 255 (30_encoding.md R86). Safe. -/
  | reservedOp
  /-- Raised by `bufferAccessible`: the buffer is too small, not accessible, or wraps (R228 (b)). Safe. -/
  | badBuffer
  /-- Raised by `bufferUntouched`: the host accesses the buffer during the request (20_memory.md R64). Safe. -/
  | bufferTouched
  /-- Raised by `enter`: `P_N_RESP = 0` or `P_POWERUP_BYTES < 100` (00_scope.md R12). Safe. -/
  | badParameter
  /-- Raised by `rejected`: the word spells nothing in its place (30_encoding.md R86; the model's choice for a byte in
  the place of a received byte, log 14). Safe. -/
  | noSuchWord (why : Reject)
  deriving DecidableEq, Repr

/-- How a procedure ends early. -/
inductive Stop
  | fault (f : Fault)
  | refuse (r : Refusal)
  deriving DecidableEq, Repr

/-- The environment right after reset: nothing scripted, transport and tick port working (R272; log 24). -/
def Env.initial : Env where
  answers := []
  ticks := []
  nAnswer := 0
  nTick := 0
  transport := none
  tickFair := true

/-- The machine right after reset (10_state.md R36, 70_reset_and_hazards.md R270). -/
def State.reset : State where
  version := .none
  status := .uninitialized
  cs := .deselected
  speed := Config.resetSpeed
  busy := false
  seq := .idle
  regs := Regs.empty
  mem := []
  regions := [⟨0, 2 ^ Config.addrWidth, true, true⟩]
  cfg := Params.standard Config.addrWidth Config.slowRate Config.fastRate
  inbox := []
  env := Env.initial
  wire := []
  delivered := []
  ret := none

end Sys2Proof.Machine
end

