-- ==== Sys2Proof/Machine/Ops.lean ====
section
/-! DEFINITION. The named operations every procedure is made of: registers, host memory, the card
port, the tick port, and the beginning and end of a request. A procedure is a computation over State
that ends with a value or stops; its text is the spec's pseudocode (00_scope.md R15). -/

namespace Sys2Proof.Machine

/-- A procedure. -/
abbrev M := EStateM Stop State

/-- A state write. -/
def act (f : State → State) : M Unit := fun s => .ok () (f s)

/-- A state read. -/
def look {α : Type} (f : State → α) : M α := fun s => .ok (f s) s

/-- A fault of the model. -/
def faultWith {α : Type} (f : Fault) : M α := fun s => .error (.fault f) s

/-- `raise Refuse(reason)` (00_scope.md R15). -/
def refuse {α : Type} (r : Refusal) : M α := fun s => .error (.refuse r) s

/-! Registers. -/

/-- `x[name]`: reading a register that holds no value faults (10_state.md R33). -/
def readReg {α : Type} (f : Regs → Option α) : M α := fun s =>
  match f s.regs with
  | some a => .ok a s
  | none => .error (.fault (.internalFault .unwrittenRead)) s

/-- `x[name] <- v`. -/
def writeRegs (f : Regs → Regs) : M Unit := act fun s => { s with regs := f s.regs }

/-- `x[seq] <- v`. -/
def setSeq (q : Seq) : M Unit := act fun s => { s with seq := q }

/-! Encodings of the registers (10_state.md R21 to R23, R25, R26). -/

def Version.code : Version → BitVec 2
  | .none => 0
  | .mmcv3 => 1
  | .sdv1 => 2
  | .sdv2Plus => 3

def Status.code : Status → BitVec 1
  | .uninitialized => 0
  | .ready => 1

def ChipSelect.code : ChipSelect → BitVec 1
  | .deselected => 0
  | .selected => 1

def Seq.code : Seq → BitVec 4
  | .idle => 0
  | .native => 1
  | .idleReset => 2
  | .ifCond => 3
  | .legacyAcmd41 => 4
  | .legacyCmd1 => 5
  | .v2Acmd41 => 6
  | .v2ReadOcr => 7
  | .blockSizeConfig => 8
  | .negEnd => 9
  | .xferCmd => 10
  | .xferData => 11
  | .xferStop => 12
  | .result => 13
  | .unused14 => 14
  | .unused15 => 15

/-- The two values `seq` never reaches (R21). -/
def Seq.unused (q : Seq) : Bool := decide (14 ≤ q.code.toNat)

/-! Host memory (20_memory.md R50). -/

/-- What a byte nothing has written reads as (log 10). -/
def unwrittenByte : Byte := 0x00

/-- The byte at an address. -/
def Memory.read : Memory → Nat → Byte
  | [], _ => unwrittenByte
  | (k, v) :: m, a => if a < k then unwrittenByte else if a = k then v else Memory.read m a

/-- A cell in front of later ones, left out when it is what an unlisted address reads as. -/
def Memory.cons (a : Nat) (b : Byte) (m : Memory) : Memory :=
  if b = unwrittenByte then m else (a, b) :: m

/-- Memory with one byte replaced. -/
def Memory.write : Memory → Nat → Byte → Memory
  | [], a, b => Memory.cons a b []
  | (k, v) :: m, a, b =>
    if a < k then Memory.cons a b ((k, v) :: m)
    else if a = k then Memory.cons a b m
    else (k, v) :: Memory.write m a b

/-- Every address of the list is at least `lo`, they rise strictly, and no cell is redundant. -/
def Memory.wfFrom : Nat → Memory → Bool
  | _, [] => true
  | lo, (k, v) :: m => decide (lo ≤ k) && v != unwrittenByte && Memory.wfFrom (k + 1) m

/-- The canonical form. -/
def Memory.wf (m : Memory) : Bool := Memory.wfFrom 0 m

/-- `MemRead(addr, 1)`. -/
def memRead (a : Nat) : M Byte := look fun s => s.mem.read a

/-- `MemWrite(addr, 1, v)`. -/
def memWrite (a : Nat) (b : Byte) : M Unit := act fun s => { s with mem := s.mem.write a b }

/-! The card port. -/

/-- The byte the card answers next: the scripted one, else a free value (log 2). -/
def Env.answer (e : Env) : Byte :=
  match e.answers with
  | b :: _ => b
  | [] => Config.cardByte e.nAnswer

/-- One exchange made. -/
def Env.afterXchg (e : Env) : Env :=
  { e with answers := e.answers.tail, nAnswer := e.nAnswer + 1, transport := e.transport.map (· - 1) }

/-- The state after one exchange sending `tx`. -/
def State.exchanged (s : State) (tx : Byte) : State :=
  { s with env := s.env.afterXchg, wire := s.wire ++ [.xchg tx s.env.answer] }

/-- `Xchg(tx) -> rx` (40_transport.md R100). `wait until TransportIdle()` ends unless the environment
never makes the transport idle, which hangs the block (R108 (b)). -/
def xchg (tx : Byte) : M Byte := fun s =>
  if s.env.transport = some 0 then .error (.fault .transportNeverIdle) s
  else .ok s.env.answer (s.exchanged tx)

/-- `Rx()` (R101). -/
def rx : M Byte := xchg Config.idleByte

/-- An event of the card port that is no exchange. -/
def emit (e : Event) : M Unit := act fun s => { s with wire := s.wire ++ [e] }

/-- `Select`; selecting while `Selected` faults (R103). -/
def select : M Unit := do
  let cs ← look (·.cs)
  if cs = .selected then faultWith (.internalFault .selectWhileSelected)
  else do
    act fun s => { s with cs := .selected }
    emit .select

/-- `Deselect`; it makes no exchange (R104). -/
def deselect : M Unit := do
  act fun s => { s with cs := .deselected }
  emit .deselect

/-- `SetSpeed(s)` (R105). -/
def setSpeed (v : Speed) : M Unit := do
  act fun s => { s with speed := v }
  emit (.setSpeed v)

/-- The card's next answer is `b` (log 16). -/
def answerNext (b : Byte) : M Unit :=
  act fun s => { s with env := { s.env with answers := b :: s.env.answers } }

/-! The tick port and the waits bounded by it. -/

/-- The next tick read: the scripted one, else a free value (log 3). -/
def Env.tick (e : Env) : Tick :=
  match e.ticks with
  | t :: _ => t
  | [] => Config.tickValue e.nTick

/-- One tick read made. -/
def Env.afterTick (e : Env) : Env := { e with ticks := e.ticks.tail, nTick := e.nTick + 1 }

/-- `TickNow()` (00_scope.md R10). -/
def tickNow : M Tick := fun s => .ok s.env.tick { s with env := s.env.afterTick }

/-- Elapsed ticks reach the budget, the difference modulo 2^32 (40_transport.md R107). -/
def budgetExpired (t0 t : Tick) (budget : Nat) : Bool := decide (budget ≤ (t - t0).toNat)

/-- `Expired(t0, budget)` (R107): one tick read. -/
def expired (t0 : Tick) (budget : Nat) : M Bool := do
  let t ← tickNow
  pure (budgetExpired t0 t budget)

/-- How many polls of a wait see its budget not expired at most: one per scripted tick, then a free
number (log 4). -/
def Env.pollsLeft (e : Env) : Nat := Config.waitPolls e.nTick + e.ticks.length

/-- The tick read that shows the budget expired, as R108 (a) says one does; where it does not, or no
tick value can, the wait never ends (log 4). -/
def lastTick (budget : Nat) : M Unit := fun s =>
  if s.env.tickFair ∧ budget < 2 ^ 32 then .ok () { s with env := s.env.afterTick }
  else .error (.fault .waitNeverEnds) s

/-- One poll of a tick-bounded wait: `judge` writes what its rule writes for the byte and says whether
it ends the wait and how; otherwise `goOn` follows. -/
def pollOnce (judge : Byte → M (Option Bool)) (goOn : M Bool) : M Bool := do
  let b ← rx
  let verdict ← judge b
  match verdict with
  | some r => pure r
  | none => goOn

/-- What follows a poll that does not end the wait: the expiry test, then the next poll (40_transport.md
R102, 43_block_transfer.md R190). At most `n` tests find the budget not expired. -/
def afterPoll (budget : Nat) (t0 : Tick) (judge : Byte → M (Option Bool)) : Nat → M Bool
  | 0 => do
    lastTick budget
    pure false
  | n + 1 => do
    let e ← expired t0 budget
    if e then pure false else pollOnce judge (afterPoll budget t0 judge n)

/-- A tick-bounded wait from the tick `t0` on: it polls first and tests expiry after a byte that does not
end it, so it makes at least one exchange (R102, R190, D12). -/
def pollWait (budget : Nat) (t0 : Tick) (judge : Byte → M (Option Bool)) : M Bool := do
  let n ← look (·.env.pollsLeft)
  pollOnce judge (afterPoll budget t0 judge n)

/-! Calls and requests. -/

/-- What every instruction checks first: `seq` holds a used value (10_state.md R21) and the parameters
are legal (00_scope.md R12). -/
def enter : M Unit := fun s =>
  if s.seq.unused then .error (.fault (.internalFault .seqUnused)) s
  else if s.cfg.ok then .ok () s
  else .error (.refuse .badParameter) s

/-- The host acts that fall into the time the current request is served. -/
def HostAct.during : HostAct → Bool
  | .overlap _ | .touch _ => true
  | .submit _ | .poke _ _ => false

def HostAct.isOverlap : HostAct → Bool
  | .overlap _ => true
  | .submit _ | .touch _ | .poke _ _ => false

/-- The host accesses a byte of `base .. base + n - 1`. -/
def HostAct.touches (base n : Nat) : HostAct → Bool
  | .touch a => decide (base ≤ a) && decide (a < base + n)
  | .submit _ | .overlap _ | .poke _ _ => false

/-- What the host does while the request under way is served. -/
def State.intrusions (s : State) : List HostAct := s.inbox.takeWhile HostAct.during

/-- Which access a request makes to its buffer. -/
inductive Access
  | load | store
  deriving DecidableEq, Repr

/-- The range permits the access. -/
def Region.permits (acc : Access) (r : Region) : Bool :=
  match acc with
  | .load => r.readable
  | .store => r.writable

/-- Every byte from `lo` up to `hi` (not included) lies in a range that permits the access: what lies below and
above the first such range must lie in the later ones. -/
def spanAccessible (acc : Access) : List Region → Nat → Nat → Bool
  | [], lo, hi => decide (hi ≤ lo)
  | r :: rs, lo, hi =>
    if r.permits acc then
      spanAccessible acc rs lo (min hi r.base) && spanAccessible acc rs (max lo (r.base + r.size)) hi
    else spanAccessible acc rs lo hi

/-- The buffer duty of 44_facade.md R228 (b): the bytes `base .. base + n - 1` are accessible and the span does not
overflow the address width (log 11, 12). -/
def State.bufferOk (s : State) (acc : Access) (base n : Nat) : Bool :=
  spanFits s.cfg.addrWidth base n && spanAccessible acc s.regions base (base + n)

/-- The duty of R228 (b) (60_exceptions.md R245, BadBuffer). -/
def bufferAccessible (acc : Access) (base n : Nat) : M Unit := fun s =>
  if s.bufferOk acc base n then .ok () s else .error (.refuse .badBuffer) s

/-- The duty of R228 (c): the host accesses no byte of the buffer while the request is served (20_memory.md R64, R245,
BufferTouched; log 13). -/
def bufferUntouched (base n : Nat) : M Unit := fun s =>
  if s.intrusions.any (HostAct.touches base n) then .error (.refuse .bufferTouched) s else .ok () s

/-- Both duties, for a procedure that uses its buffer (log 15, 21). -/
def claimBuffer (acc : Access) (base n : Nat) : M Unit := do
  bufferUntouched base n
  bufferAccessible acc base n

/-- The registers at the acceptance of a request: what an earlier request left is not visible (10_state.md
R33), the request's fields are latched (44_facade.md R220). -/
def Regs.latched (op : Byte) (q : ReqArgs) : Regs :=
  { Regs.empty with
    reqOp := some op
    reqUnit := some q.unit
    reqBuf := some q.buf
    reqSector := some q.sector
    reqCount := some q.count }

/-- Request acceptance (R220). -/
def accept (op : Byte) (q : ReqArgs) : M Unit := fun s =>
  if s.busy then .error (.refuse .concurrentRequest) s
  else if s.intrusions.any HostAct.isOverlap then .error (.refuse .concurrentRequest) s
  else .ok () { s with busy := true, regs := Regs.latched op q }

/-- The end of a request, success or failure alike (R220, 60_exceptions.md R249): the block has no trap
entry and no return; it goes idle and delivers the result. -/
def conclude : M Unit := do
  let r ← readReg (·.result)
  setSeq .idle
  act fun s => { s with busy := false, delivered := s.delivered ++ [r] }

/-- A request served whole (R220). -/
def request (op : Byte) (q : ReqArgs) (serve : M Byte) : M Unit := do
  enter
  accept op q
  let r ← serve
  writeRegs fun x => { x with result := some r }
  conclude

/-- A procedure run by itself; what it returns is kept in `ret` (log 15, 19). -/
def call (m : M (Option Ret)) : M Unit := do
  enter
  let r ← m
  act fun s => { s with ret := r }

def callByte (m : M Byte) : M Unit := call (do let b ← m; pure (some (.byte b)))

def callBool (m : M Bool) : M Unit := call (do let b ← m; pure (some (.bool b)))

def callUnit (m : M Unit) : M Unit := call (do m; pure none)

/-- The outcome of an instruction. -/
def run (m : M Unit) (s : State) : Host.Outcome State Fault Refusal :=
  match m s with
  | .ok _ t => .next t
  | .error (.fault f) _ => .fault f
  | .error (.refuse r) _ => .refused r

/-- The outcome of a word that spells no instruction. At the host port the arbiter looks at `busy`
before the operation code (R220). A word in the place of a received byte whose row it is not is refused as well: the
model's choice (log 14). -/
def rejected (s : State) (c : Code) (why : Reject) : Host.Outcome State Fault Refusal :=
  match why with
  | .reservedOp _ => if s.busy then .refused .concurrentRequest else .refused .reservedOp
  | .notAFrame | .notAToken | .notAccepted | .notIdle | .notASpeed | .badLength | .badAddress =>
    if s.busy ∧ c.slot = .host then .refused .concurrentRequest else .refused (.noSuchWord why)

/-- The instruction a word spells on this block: it decodes, and its address fits `P_ADDR_W`. -/
def understand (s : State) (c : Code) : Except Reject Instr :=
  match decode c with
  | .ok i => if i.wellFormed s.cfg.addrWidth then .ok i else .error .badAddress
  | .error why => .error why

/-- What the host has the block do next. -/
inductive Fetched
  /-- Nothing: the block waits (70_reset_and_hazards.md R271). -/
  | nothing
  /-- The host acts on its own memory. -/
  | hostOnly (s : State)
  /-- A word to decode, and the state with it taken. -/
  | word (c : Code) (s : State)

/-- Takes the next host act. -/
def fetch (s : State) : Fetched :=
  match s.inbox with
  | [] => .nothing
  | .submit c :: rest => .word c { s with inbox := rest }
  | .overlap c :: rest => .word c { s with inbox := rest }
  | .touch _ :: rest => .hostOnly { s with inbox := rest }
  | .poke a b :: rest => .hostOnly { s with inbox := rest, mem := s.mem.write a b }

end Sys2Proof.Machine
end

