-- ==== Sys2Proof/Machine/Operands.lean ====
section
/-! DEFINITION. Operand assembly: command arguments (30_encoding.md R82), payloads (R83), the wire
events of a frame (R70), buffer addresses (20_memory.md R56) and the latched request (44_facade.md
R220). -/

namespace Sys2Proof.Machine

/-- The buffer address of block `k` of a request (20_memory.md R56, 00_scope.md R16). -/
def blockBase (base k : Nat) : Nat := base + Config.blockBytes * k

/-- The bytes a request of `count` sectors moves (20_memory.md R59). -/
def requestBytes (count : Word) : Nat := Config.blockBytes * count.toNat

/-- A parameter. -/
def param {α : Type} (f : Params → α) : M α := look fun s => f s.cfg

/-- Sends bytes in order; the received bytes are discarded. -/
def sendBytes : List Byte → M Unit
  | [] => pure ()
  | b :: bs => do
    let _ ← xchg b
    sendBytes bs

/-- Receives one 32-bit payload, most significant byte first (30_encoding.md R83). -/
def receiveWord : M Word := do
  let b0 ← rx
  let b1 ← rx
  let b2 ← rx
  let b3 ← rx
  pure (be32 b0 b1 b2 b3)

/-- The fields of the request under way, read back from their registers (10_state.md R31). -/
def latchedRequest : M ReqArgs := do
  let unit ← readReg (·.reqUnit)
  let buf ← readReg (·.reqBuf)
  let sector ← readReg (·.reqSector)
  let count ← readReg (·.reqCount)
  pure ⟨unit, buf, sector, count, 0⟩

end Sys2Proof.Machine
end

