-- ==== Sys2Proof/Machine/Flags.lean ====
section
/-! DEFINITION. The conditions the rules test, each recomputed from the byte or register it is about
(10_state.md R32); the block stores no flag. `budgetExpired` stands in Ops.lean. -/

namespace Sys2Proof.Machine

/-- `resp[7] = 1`: no valid response yet (30_encoding.md R75). -/
def unresolved (b : Byte) : Bool := b.getLsbD 7

/-- `resp = 0x01`. -/
def idleAck (b : Byte) : Bool := b == 0x01

/-- `resp = 0x00`. -/
def commandOk (b : Byte) : Bool := b == 0x00

/-- The received byte is `0xFF`. -/
def isReady (b : Byte) : Bool := b == 0xFF

/-- The received byte is `0xFE`. -/
def isStartToken (b : Byte) : Bool := b == 0xFE

/-- `dresp[3:0] = 0b0101`; bits 7:4 are ignored (43_block_transfer.md R197). -/
def dataAccepted (b : Byte) : Bool := b.extractLsb' 0 4 == 0b0101#4

/-- `ocr[P_CCS_BIT] = 1`. -/
def highCapacity (p : Params) (ocr : Word) : Bool := ocr.getLsbD p.ccsBit

/-- The echo equals the pattern in the bits `P_R7_MASK` selects (42_negotiation.md R164). -/
def echoMatches (p : Params) (r7 : Word) : Bool := r7 &&& p.r7Mask == p.r7Pattern &&& p.r7Mask

/-- `Cmd0Extra(r)` (41_command.md R120, R124). -/
def cmd0Extra (p : Params) (r : Byte) : Bool :=
  match p.cmd0Trigger with
  | .exhausted => unresolved r
  | .notIdle => r != 0x01

/-- What a byte polled in a ready wait does (30_encoding.md R81). -/
def judgeReady (b : Byte) : Option Bool := if isReady b then some true else none

/-- What a byte polled for a read start token does (R81, 43_block_transfer.md R190). -/
def judgeToken (p : Params) (b : Byte) : Option Bool :=
  if isStartToken b then some true
  else
    match p.tokenPollStop with
    | .onStartToken => none
    | .onNonIdle => if b = 0xFF then none else some false

end Sys2Proof.Machine
end

