-- ==== Sys2Proof/Machine/Transport.lean ====
section
/-! DEFINITION. The byte transport and timeout primitives (40_transport.md, 30_encoding.md R80). -/

namespace Sys2Proof.Machine

/-- `WaitReady()` (40_transport.md R102). -/
def waitReady : M Bool := do
  let t0 ← tickNow
  writeRegs fun x => { x with t0 := some t0 }
  let budget ← param (·.readyBudget)
  pollWait budget t0 fun b => pure (judgeReady b)

/-- XCHG: `Xchg(t)` (R100). -/
def execXchg (t : Byte) (s : State) : Host.Outcome State Fault Refusal := run (callByte (xchg t)) s

/-- RX: `Rx()` (R101). -/
def execRx (s : State) : Host.Outcome State Fault Refusal := run (callByte rx) s

/-- WAIT_READY: `WaitReady()` (R102). -/
def execWaitReady (s : State) : Host.Outcome State Fault Refusal := run (callBool waitReady) s

/-- SELECT (R103). -/
def execSelect (s : State) : Host.Outcome State Fault Refusal := run (callUnit select) s

/-- DESELECT (R104). -/
def execDeselect (s : State) : Host.Outcome State Fault Refusal := run (callUnit deselect) s

/-- SET_SPEED (R105). -/
def execSetSpeed (v : Speed) (s : State) : Host.Outcome State Fault Refusal :=
  run (callUnit (setSpeed v)) s

/-- IDLE_FILLER: the byte sent only to receive one (30_encoding.md R80). -/
def execIdleFiller (s : State) : Host.Outcome State Fault Refusal :=
  run (callByte (xchg Config.idleByte)) s

/-- CARD_READY: a ready wait whose next byte is the card-ready signal (R81, 40_transport.md R102; log 16). -/
def execCardReady (s : State) : Host.Outcome State Fault Refusal :=
  run (callBool (do answerNext 0xFF; waitReady)) s

end Sys2Proof.Machine
end

