-- ==== Sys2Proof/Machine/Command.lean ====
section
/-! DEFINITION. The command framer and response parser (41_command.md). -/

namespace Sys2Proof.Machine

/-- The registers a frame is sent from (R120, first lines). -/
def latchCommand (idx : BitVec 6) (arg : Word) (dest : Bool) : M Unit :=
  writeRegs fun x => { x with cmdIdx := some idx, cmdArg := some arg, cmdCrc := some (crcByte idx), extDest := some dest }

/-- The ready gate: every index but 0 waits for the card (R121). -/
def readyGate (idx : BitVec 6) : M Bool := if idx = 0 then pure true else waitReady

/-- Frame transmission, the CRC byte from its register (R122). -/
def sendFrame (idx : BitVec 6) (arg : Word) : M Unit := do
  let crc ← readReg (·.cmdCrc)
  sendBytes (frameBytes idx arg crc)

/-- The first poll loop after `done` polls with `k` tries left (R123). -/
def pollResponse (done : Nat) : Nat → M Unit
  | 0 => pure ()
  | k + 1 => do
    let b ← rx
    writeRegs fun x => { x with resp := some b, tries := some (done + 1) }
    if unresolved b then pollResponse (done + 1) k else pure ()

/-- The first poll loop (R123). -/
def firstPoll (n : Nat) : M Unit := do
  writeRegs fun x => { x with tries := some 0 }
  pollResponse 0 n

/-- CMD0's additional polls after `done` of them, `resp` being the byte last polled, with `k` left (R124). -/
def extraPolls (resp : Byte) (done : Nat) : Nat → M Unit
  | 0 => pure ()
  | k + 1 =>
    if idleAck resp then pure ()
    else do
      let b ← rx
      writeRegs fun x => { x with resp := some b, xtries := some (done + 1) }
      extraPolls b (done + 1) k

/-- CMD0's additional polls, when their trigger holds (R124). -/
def cmd0Polls : M Unit := do
  let r ← readReg (·.resp)
  let p ← param id
  if cmd0Extra p r then do
    writeRegs fun x => { x with xtries := some 0 }
    extraPolls r 0 Config.cmd0Extra
  else pure ()

/-- The commands with an extended response (30_encoding.md R74). -/
def hasPayload (idx : BitVec 6) : Bool := idx == 8 || idx == 58

/-- The extended payload and the misuse guard (R125). -/
def readPayload : M Byte := do
  let e ← receiveWord
  writeRegs fun x => { x with ext := some e }
  let dest ← readReg (·.extDest)
  if dest then do
    writeRegs fun x => { x with extOut := some e }
    readReg (·.resp)
  else pure 0xFF

/-- Only CMD0 has additional polls (R124). -/
def extraPhase (idx : BitVec 6) : M Unit := if idx = 0 then cmd0Polls else pure ()

/-- What follows the ready gate. -/
def transact (idx : BitVec 6) (arg : Word) (n : Nat) : M Byte := do
  sendFrame idx arg
  firstPoll n
  extraPhase idx
  if hasPayload idx then readPayload else readReg (·.resp)

/-- `SendCommand(idx, arg, n, dest_present)` (R120). -/
def sendCommand (idx : BitVec 6) (arg : Word) (n : Nat) (dest : Bool) : M Byte := do
  latchCommand idx arg dest
  let ready ← readyGate idx
  if ready then transact idx arg n else pure 0xFF

/-- A call as every caller of the block makes it, with `n = P_N_RESP` (R127). -/
def command (idx : BitVec 6) (arg : Word) (dest : Bool) : M Byte := do
  let n ← param (·.nResp)
  sendCommand idx arg n dest

/-- CMD8's argument is the test pattern (R132). -/
def cmd8 (dest : Bool) : M Byte := do
  let pattern ← param (·.r7Pattern)
  command 8 pattern dest

/-- ACMD41's argument on the voltage-check path has HCS set (R141). -/
def acmd41Hcs : M Byte := do
  let arg ← param (·.hcsArg)
  command 41 arg false

/-- CMD0 (R130). -/
def execCmd0 (s : State) : Host.Outcome State Fault Refusal := run (callByte (command 0 0x00000000 false)) s

/-- CMD1 (R131). -/
def execCmd1 (s : State) : Host.Outcome State Fault Refusal := run (callByte (command 1 0x00000000 false)) s

/-- CMD8 (R132). -/
def execCmd8 (dest : Bool) (s : State) : Host.Outcome State Fault Refusal := run (callByte (cmd8 dest)) s

/-- CMD12 (R133). -/
def execCmd12 (s : State) : Host.Outcome State Fault Refusal := run (callByte (command 12 0x00000000 false)) s

/-- CMD16 (R134). -/
def execCmd16 (s : State) : Host.Outcome State Fault Refusal := run (callByte (command 16 0x00000200 false)) s

/-- CMD17 (R135); the argument is the sector number unchanged (20_memory.md R51). -/
def execCmd17 (sector : Word) (s : State) : Host.Outcome State Fault Refusal :=
  run (callByte (command 17 sector false)) s

/-- CMD18 (R136). -/
def execCmd18 (sector : Word) (s : State) : Host.Outcome State Fault Refusal :=
  run (callByte (command 18 sector false)) s

/-- CMD24 (R137). -/
def execCmd24 (sector : Word) (s : State) : Host.Outcome State Fault Refusal :=
  run (callByte (command 24 sector false)) s

/-- CMD25 (R138). -/
def execCmd25 (sector : Word) (s : State) : Host.Outcome State Fault Refusal :=
  run (callByte (command 25 sector false)) s

/-- CMD55 (R139). -/
def execCmd55 (s : State) : Host.Outcome State Fault Refusal := run (callByte (command 55 0x00000000 false)) s

/-- ACMD41 with HCS clear (R140). -/
def execAcmd41Hcs0 (s : State) : Host.Outcome State Fault Refusal :=
  run (callByte (command 41 0x00000000 false)) s

/-- ACMD41 with HCS set (R141). -/
def execAcmd41Hcs1 (s : State) : Host.Outcome State Fault Refusal := run (callByte acmd41Hcs) s

/-- CMD58 (R142). -/
def execCmd58 (dest : Bool) (s : State) : Host.Outcome State Fault Refusal :=
  run (callByte (command 58 0x00000000 dest)) s

/-- The response poll whose next byte is `b` (R123; log 16). -/
def pollAnswered (b : Byte) : M Byte := do
  answerNext b
  let n ← param (·.nResp)
  firstPoll n
  readReg (·.resp)

/-- R1_VALID: a polled byte with bit 7 clear ends the poll and is the status (R123). -/
def execR1Valid (flags : BitVec 7) (s : State) : Host.Outcome State Fault Refusal :=
  run (callByte (pollAnswered (0b0#1 ++ flags : BitVec (1 + 7)))) s

/-- R1_UNRESOLVED: a polled byte with bit 7 set is polled again while tries remain (R123). -/
def execR1Unresolved (rest : BitVec 7) (s : State) : Host.Outcome State Fault Refusal :=
  run (callByte (pollAnswered (0b1#1 ++ rest : BitVec (1 + 7)))) s

end Sys2Proof.Machine
end

