-- ==== Sys2Proof/Machine/Block.lean ====
section
/-! DEFINITION. The block transfer framer and the sector sequences (43_block_transfer.md). -/

namespace Sys2Proof.Machine

/-- Where the next data byte of a block goes or comes from. -/
def pointAt (base i : Nat) : M Unit := writeRegs fun x => { x with bcnt := some i, ptr := some (base + i) }

/-- Streams `k` received bytes into the buffer from offset `i` on (R190). -/
def streamIn (base i : Nat) : Nat → M Unit
  | 0 => pure ()
  | k + 1 => do
    pointAt base i
    let b ← rx
    memWrite (base + i) b
    streamIn base (i + 1) k

/-- Streams `k` buffer bytes out from offset `i` on; each is read as it is sent (R191, 20_memory.md R64). -/
def streamOut (base i : Nat) : Nat → M Unit
  | 0 => pure ()
  | k + 1 => do
    pointAt base i
    let b ← memRead (base + i)
    let _ ← xchg b
    streamOut base (i + 1) k

/-- The start-token wait of a read (R190). -/
def waitToken : M Bool := do
  let t0 ← tickNow
  writeRegs fun x => { x with t0 := some t0 }
  let p ← param id
  pollWait p.tokenBudget t0 fun b => do
    writeRegs fun x => { x with tok := some b }
    pure (judgeToken p b)

/-- `ReadBlock(base, size)` (R190); the two CRC bytes are discarded unchecked (R198). -/
def readBlock (base size : Nat) : M Bool := do
  let seen ← waitToken
  if seen then do
    streamIn base 0 size
    let _ ← rx
    let _ ← rx
    pure true
  else pure false

/-- The data response: one byte, not polled (R191, R197). -/
def readDataResponse : M Bool := do
  let b ← rx
  writeRegs fun x => { x with dresp := some b }
  pure (dataAccepted b)

/-- What `WriteBlock` does once the card is ready (R191); the trailing wait's result is ignored. -/
def sendBlock (base size : Nat) (token : Byte) : M Bool := do
  writeRegs fun x => { x with tok := some token }
  let _ ← xchg token
  streamOut base 0 size
  sendBytes [0x00, 0x00]
  let accepted ← readDataResponse
  let _ ← waitReady
  pure accepted

/-- `WriteBlock(base, size, token)` (R191). -/
def writeBlock (base size : Nat) (token : Byte) : M Bool := do
  let ready ← waitReady
  if ready then sendBlock base size token else pure false

/-- `StopTran()` (R196). -/
def stopTran : M Unit := do
  let _ ← xchg 0xFD
  let _ ← rx
  let _ ← waitReady
  pure ()

/-- The blocks of a multi-block transfer from block `k` on, `n` of them left; the first that fails clears
`ok` and ends the loop (R193, R195). -/
def blocks (block : Nat → M Bool) (k : Nat) : Nat → M Unit
  | 0 => pure ()
  | n + 1 => do
    writeRegs fun x => { x with blk := some k }
    let good ← block k
    if good then blocks block (k + 1) n else writeRegs fun x => { x with ok := some false }

/-- The stop sequence of a multi-block transfer: after the last block, and after a failed one when
`P_STOP_ON_ABORT` (R193, R195). -/
def stopPhase (stop : M Unit) : M Unit := do
  let good ← readReg (·.ok)
  let always ← param (·.stopOnAbort)
  if good || always then do
    setSeq .xferStop
    stop
  else pure ()

/-- A multi-block transfer after its command (R193, R195). -/
def multiBlock (block : Nat → M Bool) (stop : M Unit) (count : Nat) : M Bool := do
  setSeq .xferData
  writeRegs fun x => { x with ok := some true }
  blocks block 0 count
  stopPhase stop
  readReg (·.ok)

/-- The stop sequence of a multi-block read: CMD12, one stuff byte, a ready wait, all results ignored (R193). -/
def stopRead : M Unit := do
  let _ ← command 12 0x00000000 false
  let _ ← rx
  let _ ← waitReady
  pure ()

/-- A sector command and what follows its success (R192 to R195). -/
def sectorCommand (idx : BitVec 6) (sector : Word) (data : M Bool) : M Bool := do
  setSeq .xferCmd
  let st ← command idx sector false
  if commandOk st then data else pure false

/-- The one block of a single-block transfer. -/
def singleBlock (block : M Bool) : M Bool := do
  setSeq .xferData
  block

/-- `SingleRead(sector, base)` (R192). -/
def singleRead (sector : Word) (base : Nat) : M Bool :=
  sectorCommand 17 sector (singleBlock (readBlock base Config.blockBytes))

/-- `MultiRead(sector, base, count)` (R193). -/
def multiRead (sector : Word) (base count : Nat) : M Bool :=
  sectorCommand 18 sector
    (multiBlock (fun k => readBlock (blockBase base k) Config.blockBytes) stopRead count)

/-- `SingleWrite(sector, base)` (R194). -/
def singleWrite (sector : Word) (base : Nat) : M Bool :=
  sectorCommand 24 sector (singleBlock (writeBlock base Config.blockBytes 0xFE))

/-- `MultiWrite(sector, base, count)` (R195). -/
def multiWrite (sector : Word) (base count : Nat) : M Bool :=
  sectorCommand 25 sector
    (multiBlock (fun k => writeBlock (blockBase base k) Config.blockBytes 0xFC) stopTran count)

/-- START_BLOCK_RX: `ReadBlock(base, 512)` whose next polled byte is the start token (R190; log 16). -/
def execStartBlockRx (base : Nat) (s : State) : Host.Outcome State Fault Refusal :=
  run (callBool (do
    claimBuffer .store base Config.blockBytes
    answerNext 0xFE
    readBlock base Config.blockBytes)) s

/-- START_BLOCK_TX: `WriteBlock(base, 512, 0xFE)` (R191). -/
def execStartBlockTx (base : Nat) (s : State) : Host.Outcome State Fault Refusal :=
  run (callBool (do
    claimBuffer .load base Config.blockBytes
    writeBlock base Config.blockBytes 0xFE)) s

/-- START_MULTI_TX: `WriteBlock(base, 512, 0xFC)` (R191). -/
def execStartMultiTx (base : Nat) (s : State) : Host.Outcome State Fault Refusal :=
  run (callBool (do
    claimBuffer .load base Config.blockBytes
    writeBlock base Config.blockBytes 0xFC)) s

/-- STOP_TRAN: `StopTran()` (R196). -/
def execStopTran (s : State) : Host.Outcome State Fault Refusal := run (callUnit stopTran) s

/-- DATA_RESP_ACCEPTED: the data response read when the card's byte is `ignored ++ 0101` (R197; log 16). -/
def execDataRespAccepted (ignored : BitVec 4) (s : State) : Host.Outcome State Fault Refusal :=
  run (callBool (do
    answerNext (ignored ++ 0b0101#4 : BitVec (4 + 4))
    readDataResponse)) s

end Sys2Proof.Machine
end

