-- ==== Sys2Proof/Machine/Negotiation.lean ====
section
/-! DEFINITION. The card-negotiation state machine (42_negotiation.md). -/

namespace Sys2Proof.Machine

/-- The dummy exchanges after `done` of them, `k` left (R161). -/
def dummyBytes (done : Nat) : Nat → M Unit
  | 0 => pure ()
  | k + 1 => do
    writeRegs fun x => { x with pu := some (done + 1) }
    let _ ← xchg Config.powerupTx
    dummyBytes (done + 1) k

/-- `PowerUp()` (R161): the bus is not claimed during the dummy exchanges. -/
def powerUp : M Unit := do
  setSpeed .slow
  let n ← param (·.powerupBytes)
  dummyBytes 0 n
  setSpeed .fast
  select

/-- `FAIL` (R160, R172): the session is left as it was and the bus is released. -/
def negotiationFails : M Unit := do
  setSeq .negEnd
  deselect

/-- The commit (R171) and the release (R172): `version` and `status` in one step. -/
def negotiationReady : M Unit := do
  setSeq .negEnd
  let v ← readReg (·.pendVer)
  act fun s => { s with version := v, status := .ready }
  deselect

/-- A loop of attempts after `done` of them, `k` left; it ends at the first command status `0x00`, and
says whether there was one (R165, R168, R169). -/
def attempts (try_ : M Byte) (done : Nat) : Nat → M Bool
  | 0 => pure false
  | k + 1 => do
    writeRegs fun x => { x with iter := some (done + 1) }
    let st ← try_
    if commandOk st then pure true else attempts try_ (done + 1) k

/-- An application command: CMD55, its status ignored, then ACMD41 (30_encoding.md R73, D8). -/
def appCommand (acmd : M Byte) : M Byte := do
  let _ ← command 55 0x00000000 false
  acmd

/-- CMD16 sets the block length; only `0x00` makes the session `Ready` (R167, R170). -/
def setBlockLength : M Unit := do
  let st ← command 16 0x00000200 false
  if commandOk st then negotiationReady else negotiationFails

/-- Block-size configuration on the voltage-check path: CMD16 only when CCS is clear (R167). -/
def configureV2 : M Unit := do
  setSeq .blockSizeConfig
  let ocr ← readReg (·.ocr)
  let p ← param id
  if highCapacity p ocr then negotiationReady else setBlockLength

/-- The OCR read (R166). -/
def readOcr : M Unit := do
  setSeq .v2ReadOcr
  let st ← command 58 0x00000000 true
  if commandOk st then do
    let e ← readReg (·.extOut)
    writeRegs fun x => { x with ocr := some e, pendVer := some .sdv2Plus }
    configureV2
  else negotiationFails

/-- The voltage-check path: echo check (R164), then the high-capacity loop (R165). -/
def voltageCheckPath : M Unit := do
  let e ← readReg (·.extOut)
  writeRegs fun x => { x with r7 := some e }
  let p ← param id
  if echoMatches p e then do
    setSeq .v2Acmd41
    let cleared ← attempts (appCommand acmd41Hcs) 0 Config.initIter
    if cleared then readOcr else negotiationFails
  else negotiationFails

/-- Block-size configuration on the legacy path, for the family found (R168 to R170). -/
def configureLegacy (v : Version) : M Unit := do
  writeRegs fun x => { x with pendVer := some v }
  setSeq .blockSizeConfig
  setBlockLength

/-- The MMC initialisation loop (R169). -/
def mmcPath : M Unit := do
  setSeq .legacyCmd1
  let found ← attempts (command 1 0x00000000 false) 0 Config.initIter
  if found then configureLegacy .mmcv3 else negotiationFails

/-- The legacy path: the SD v1 loop, then the MMC loop (R168). -/
def legacyPath : M Unit := do
  setSeq .legacyAcmd41
  writeRegs fun x => { x with pendVer := some .none }
  let found ← attempts (appCommand (command 41 0x00000000 false)) 0 Config.initIter
  if found then configureLegacy .sdv1 else mmcPath

/-- The interface check and path choice (R163). -/
def interfaceCheck : M Unit := do
  setSeq .ifCond
  let st8 ← cmd8 true
  if st8 = Config.cmd8Accept then voltageCheckPath else legacyPath

/-- `Negotiate()` (R160). -/
def negotiate : M Unit := do
  setSeq .native
  powerUp
  setSeq .idleReset
  let st0 ← command 0 0x00000000 false
  if idleAck st0 then interfaceCheck else negotiationFails

end Sys2Proof.Machine
end

