-- ==== Sys2Proof/Machine/Facade.lean ====
section
/-! DEFINITION. The host requests (44_facade.md). -/

namespace Sys2Proof.Machine

/-- The result codes of 60_exceptions.md R241; `WriteProtected` is never produced. -/
def resultOk : Byte := 0
def resultError : Byte := 1
def resultWriteProtected : Byte := 2
def resultNotReady : Byte := 3
def resultParamError : Byte := 4

/-- The status word (R241). -/
def statusWord (st : Status) : Byte :=
  match st with
  | .ready => 0x00
  | .uninitialized => 0x01

/-- `Preconditions(unit, count)`: unit, then session, then count; `none` passes (R221). -/
def precondition (st : Status) (unit : Byte) (count : Word) : Option Byte :=
  if unit ≠ 0 then some resultParamError
  else if st ≠ .ready then some resultNotReady
  else if count = 0 then some resultParamError
  else none

/-- The status word of the session. -/
def sessionWord : M Byte := do
  let st ← look (·.status)
  pure (statusWord st)

/-- `Initialize()` (R223): a `Ready` session sends nothing. -/
def initSession : M Byte := do
  let st ← look (·.status)
  if st = .ready then pure 0x00
  else do
    negotiate
    sessionWord

/-- A transfer with the bus claimed and released around it (R224, R225). -/
def claimedTransfer (sequence : M Bool) : M Byte := do
  select
  let good ← sequence
  setSeq .result
  deselect
  pure (if good then resultOk else resultError)

/-- A `read` or `write`: the duty that holds from the request on (R228 (c)), the preconditions, the duty of a buffer
that is used (R228 (b); log 12), then the transfer. -/
def transfer (acc : Access) (single : Word → Nat → M Bool) (multi : Word → Nat → Nat → M Bool) : M Byte := do
  let q ← latchedRequest
  bufferUntouched q.buf (requestBytes q.count)
  let st ← look (·.status)
  match precondition st q.unit q.count with
  | some r => pure r
  | none => do
    bufferAccessible acc q.buf (requestBytes q.count)
    claimedTransfer (if q.count = 1 then single q.sector q.buf else multi q.sector q.buf q.count.toNat)

/-- STATUS (R222). -/
def execStatus (q : ReqArgs) (s : State) : Host.Outcome State Fault Refusal :=
  run (request 0 q sessionWord) s

/-- INIT (R223). -/
def execInit (q : ReqArgs) (s : State) : Host.Outcome State Fault Refusal :=
  run (request 1 q initSession) s

/-- READ (R224). -/
def execRead (q : ReqArgs) (s : State) : Host.Outcome State Fault Refusal :=
  run (request 2 q (transfer .store singleRead multiRead)) s

/-- WRITE (R225). -/
def execWrite (q : ReqArgs) (s : State) : Host.Outcome State Fault Refusal :=
  run (request 3 q (transfer .load singleWrite multiWrite)) s

/-- IOCTL: always `Error` (R226). -/
def execIoctl (q : ReqArgs) (s : State) : Host.Outcome State Fault Refusal :=
  run (request 4 q (pure resultError)) s

end Sys2Proof.Machine
end

