-- ==== Sys2Proof/Machine/Dispatch.lean ====
section
/-! DEFINITION. One arm per instruction. -/

namespace Sys2Proof.Machine

def exec (i : Instr) (s : State) : Host.Outcome State Fault Refusal :=
  match i with
  | .cmd0 => Sys2Proof.Machine.execCmd0 s
  | .cmd1 => Sys2Proof.Machine.execCmd1 s
  | .cmd8 dest => Sys2Proof.Machine.execCmd8 dest s
  | .cmd12 => Sys2Proof.Machine.execCmd12 s
  | .cmd16 => Sys2Proof.Machine.execCmd16 s
  | .cmd17 sector => Sys2Proof.Machine.execCmd17 sector s
  | .cmd18 sector => Sys2Proof.Machine.execCmd18 sector s
  | .cmd24 sector => Sys2Proof.Machine.execCmd24 sector s
  | .cmd25 sector => Sys2Proof.Machine.execCmd25 sector s
  | .cmd55 => Sys2Proof.Machine.execCmd55 s
  | .acmd41Hcs0 => Sys2Proof.Machine.execAcmd41Hcs0 s
  | .acmd41Hcs1 => Sys2Proof.Machine.execAcmd41Hcs1 s
  | .cmd58 dest => Sys2Proof.Machine.execCmd58 dest s
  | .startBlockRx base => Sys2Proof.Machine.execStartBlockRx base s
  | .startBlockTx base => Sys2Proof.Machine.execStartBlockTx base s
  | .startMultiTx base => Sys2Proof.Machine.execStartMultiTx base s
  | .stopTran => Sys2Proof.Machine.execStopTran s
  | .dataRespAccepted ignored => Sys2Proof.Machine.execDataRespAccepted ignored s
  | .r1Valid flags => Sys2Proof.Machine.execR1Valid flags s
  | .r1Unresolved rest => Sys2Proof.Machine.execR1Unresolved rest s
  | .idleFiller => Sys2Proof.Machine.execIdleFiller s
  | .cardReady => Sys2Proof.Machine.execCardReady s
  | .status q => Sys2Proof.Machine.execStatus q s
  | .init q => Sys2Proof.Machine.execInit q s
  | .read q => Sys2Proof.Machine.execRead q s
  | .write q => Sys2Proof.Machine.execWrite q s
  | .ioctl q => Sys2Proof.Machine.execIoctl q s
  | .xchg t => Sys2Proof.Machine.execXchg t s
  | .rx => Sys2Proof.Machine.execRx s
  | .waitReady => Sys2Proof.Machine.execWaitReady s
  | .select => Sys2Proof.Machine.execSelect s
  | .deselect => Sys2Proof.Machine.execDeselect s
  | .setSpeed v => Sys2Proof.Machine.execSetSpeed v s

end Sys2Proof.Machine
end

