-- ==== Sys2Proof/Machine/Step.lean ====
section
/-! DEFINITION. One step: the block takes what the host does next and, for a request or call, serves
it whole (44_facade.md R220, 70_reset_and_hazards.md R271, R274; log 1, 18). -/

namespace Sys2Proof.Machine

def step (s : State) : Host.Outcome State Fault Refusal :=
  match fetch s with
  | .nothing => .next s
  | .hostOnly t => .next t
  | .word c t =>
    match understand t c with
    | .ok i => exec i t
    | .error why => rejected t c why

/-- `s` with a word of the opcode table as the next thing the host submits. -/
def State.withFetchWord (s : State) (nbits w : Nat) : State :=
  { s with inbox := .submit (tableCode nbits w) :: s.inbox }

end Sys2Proof.Machine
end

