-- ==== Sys2Proof/Safety.lean ====
section
/-! DEFINITION. The terms claims are stated in: what the environment and the host owe the block, what
a request may leave behind, and the invariant of the machine. -/

namespace Sys2Proof.Machine

/-- The two assumptions of 40_transport.md R108, with budgets a 32-bit tick difference can reach. -/
structure State.Fair (s : State) : Prop where
  transport : s.env.transport = none
  ticks     : s.env.tickFair = true
  ready     : s.cfg.readyBudget < 2 ^ 32
  token     : s.cfg.tokenBudget < 2 ^ 32

/-- `seq` holds a used value (10_state.md R21) and the parameters are legal (00_scope.md R12). -/
structure State.Legal (s : State) : Prop where
  seq : s.seq.unused = false
  cfg : s.cfg.ok = true

/-- No request is under way and the host breaks no duty during the next one (44_facade.md R228). -/
structure State.Free (s : State) : Prop where
  busy  : s.busy = false
  alone : s.intrusions = []

/-- Every byte of a buffer lies in a range that permits the access, and the span does not overflow the address width
(R228 (b); log 11, 12). -/
def State.Accessible (s : State) (acc : Access) (base n : Nat) : Prop :=
  (base + n = 0 ∨ base + n < 2 ^ s.cfg.addrWidth) ∧
    ∀ x, base ≤ x → x < base + n → ∃ r ∈ s.regions, r.permits acc = true ∧ r.base ≤ x ∧ x < r.base + r.size

/-- The card's answer `k` exchanges from now (log 2). -/
def Env.answerAt (e : Env) (k : Nat) : Byte := e.answers[k]?.getD (Config.cardByte (e.nAnswer + k))

/-- The tick `k` reads from now (log 3). -/
def Env.tickAt (e : Env) (k : Nat) : Tick := e.ticks[k]?.getD (Config.tickValue (e.nTick + k))

/-- The host keeps its duties toward the buffer of a request (R228 (b), (c)). -/
structure State.Lends (s : State) (acc : Access) (base n : Nat) : Prop where
  ok        : s.bufferOk acc base n = true
  untouched : s.intrusions.any (HostAct.touches base n) = false

/-- The state after a request that only the arbiter saw: no wire event, nothing but its registers
(44_facade.md R220). -/
def State.answered (s : State) (op : Byte) (q : ReqArgs) (r : Byte) : State :=
  { s with
    seq := .idle
    regs := { Regs.latched op q with result := some r }
    delivered := s.delivered ++ [r] }

/-- The state after a procedure called by itself. -/
def State.returned (s : State) (r : Option Ret) : State := { s with ret := r }

/-- The operation code and the fields of a host request (30_encoding.md R85). -/
def requestOf : Instr → Option (Byte × ReqArgs)
  | .status q => some (0, q)
  | .init q => some (1, q)
  | .read q => some (2, q)
  | .write q => some (3, q)
  | .ioctl q => some (4, q)
  | _ => none

/-- The registers after a request with these fields and this result, before what the request itself wrote. -/
def Regs.reported (op : Byte) (q : ReqArgs) (r : Byte) : Regs := { Regs.latched op q with result := some r }

/-- The registers the command framer writes (10_state.md R28) and the tick register of its ready gate put
back to what they were. -/
def Regs.framerRestored (old new : Regs) : Regs :=
  { new with
    cmdIdx := old.cmdIdx
    cmdArg := old.cmdArg
    cmdCrc := old.cmdCrc
    resp := old.resp
    tries := old.tries
    xtries := old.xtries
    ext := old.ext
    extDest := old.extDest
    extOut := old.extOut
    t0 := old.t0 }

/-- The registers the block primitives write (R30: `t0`, `tok`, `bcnt`, `ptr`, `dresp`) put back. -/
def Regs.blockRestored (old new : Regs) : Regs :=
  { new with
    t0 := old.t0
    tok := old.tok
    bcnt := old.bcnt
    ptr := old.ptr
    dresp := old.dresp }

/-- The registers a sector sequence writes (43_block_transfer.md R192 to R195): those of the framer and of the
block primitives, `blk` and `ok`, put back. -/
def Regs.sectorRestored (old new : Regs) : Regs :=
  { old.framerRestored (old.blockRestored new) with
    blk := old.blk
    ok := old.ok }

/-- The registers a negotiation writes (10_state.md R28, R29): those of the framer, `iter`, `pend_ver`, `r7`,
`ocr` and `pu`, put back. -/
def Regs.negotiationRestored (old new : Regs) : Regs :=
  { old.framerRestored new with
    iter := old.iter
    pendVer := old.pendVer
    r7 := old.r7
    ocr := old.ocr
    pu := old.pu }

/-- Nothing but the draws, the wire, the returned value and the registers is different. -/
def State.onlyCard (s t : State) : Prop :=
  t = { s with
    env := t.env
    wire := t.wire
    ret := t.ret
    regs := t.regs }

/-- As `onlyCard`, and memory may be different. -/
def State.onlyCardAndMemory (s t : State) : Prop :=
  t = { s with
    env := t.env
    wire := t.wire
    ret := t.ret
    regs := t.regs
    mem := t.mem }

/-- An exchange sending the idle byte. -/
def Event.isIdle : Event → Bool
  | .xchg tx _ => tx == 0xFF
  | _ => false

def Event.isXchg : Event → Bool
  | .xchg _ _ => true
  | _ => false

/-- Idle exchanges receiving these bytes. -/
def idles (rxs : List Byte) : List Event := rxs.map (Event.xchg 0xFF)

/-- Exchanges sending `txs` and receiving `rxs`. -/
def exchanges (txs rxs : List Byte) : List Event := List.zipWith Event.xchg txs rxs

/-! What the procedures put on the wire, as the bytes the card answered. -/

/-- The bytes received in a ready wait that answered `ready` (40_transport.md R102): none but the last is
`0xFF`, and the last is when the card was ready. -/
def WaitRun (ready : Bool) (rxs : List Byte) : Prop :=
  ∃ busy last, rxs = busy ++ [last] ∧ (∀ b ∈ busy, b ≠ 0xFF) ∧ (ready = true ↔ last = 0xFF)

/-- The bytes a card answered to a command whose frame was sent (41_command.md R120). -/
structure CommandBytes where
  /-- In the ready gate. -/
  gate : List Byte
  /-- During the six frame bytes. -/
  during : List Byte
  /-- Unresolved bytes of the first poll loop before its last. -/
  pending : List Byte
  /-- The last byte of the first poll loop. -/
  status : Byte
  /-- In CMD0's additional polls. -/
  extra : List Byte
  /-- The extended payload. -/
  payload : List Byte

/-- The bytes of CMD0's additional polls after a first loop that ended with `status` (R124). -/
def ExtraRun (p : Params) (idx : BitVec 6) (status : Byte) (extra : List Byte) : Prop :=
  if idx = 0 ∧ cmd0Extra p status = true then
    extra.length ≤ Config.cmd0Extra ∧ (∀ b ∈ extra.dropLast, b ≠ 0x01) ∧
      (extra.length < Config.cmd0Extra → extra.getLast? = some 0x01)
  else extra = []

/-- What R121 to R125 say of those bytes. -/
structure CommandBytes.Legal (p : Params) (idx : BitVec 6) (c : CommandBytes) : Prop where
  gate : if idx = 0 then c.gate = [] else WaitRun true c.gate
  during : c.during.length = 6
  pending : ∀ b ∈ c.pending, unresolved b = true
  bound : c.pending.length < p.nResp
  settled : unresolved c.status = true → c.pending.length + 1 = p.nResp
  extra : ExtraRun p idx c.status c.extra
  payload : c.payload.length = if hasPayload idx then 4 else 0

/-- The exchanges of the command (R121 to R125). -/
def CommandBytes.events (idx : BitVec 6) (arg : Word) (c : CommandBytes) : List Event :=
  idles c.gate ++ (exchanges (frameBytes idx arg (crcByte idx)) c.during ++
    idles (c.pending ++ c.status :: (c.extra ++ c.payload)))

/-- The byte polled last: what `resp` holds (R123, R124). -/
def CommandBytes.last (c : CommandBytes) : Byte := c.extra.getLast?.getD c.status

/-- The command's result, with the misuse guard (R125). -/
def CommandBytes.result (idx : BitVec 6) (dest : Bool) (c : CommandBytes) : Byte :=
  if hasPayload idx = true ∧ dest = false then 0xFF else c.last

/-- A payload as a 32-bit value (30_encoding.md R83). -/
def payloadWord : List Byte → Word
  | [b0, b1, b2, b3] => be32 b0 b1 b2 b3
  | _ => 0

/-- A command that put `l` on the wire and returned `st`, writing `out` to its destination: either its ready
gate failed and nothing was sent, or its frame was (R120, R126). -/
def CommandRun (p : Params) (idx : BitVec 6) (arg : Word) (dest : Bool) (l : List Event) (st : Byte)
    (out : Option Word) : Prop :=
  (idx ≠ 0 ∧ st = 0xFF ∧ out = none ∧ ∃ rxs, WaitRun false rxs ∧ l = idles rxs) ∨
  ∃ c : CommandBytes, c.Legal p idx ∧ l = c.events idx arg ∧ st = c.result idx dest ∧
    out = if hasPayload idx = true ∧ dest = true then some (payloadWord c.payload) else none

/-- Memory with bytes stored in order from an address on. -/
def Memory.store : Memory → Nat → List Byte → Memory
  | m, _, [] => m
  | m, a, b :: bs => Memory.store (m.write a b) (a + 1) bs

/-- The bytes of memory from an address on. -/
def Memory.load (m : Memory) (a n : Nat) : List Byte := (List.range n).map fun i => m.read (a + i)

/-- The bytes of one block received (43_block_transfer.md R190): those before the start token, the data, the
CRC. -/
structure BlockIn where
  skipped : List Byte
  data : List Byte
  crc : List Byte

/-- What ends no token wait (R190, `P_TOKEN_POLL_STOP`). -/
def skips (p : Params) (b : Byte) : Prop := judgeToken p b = none

structure BlockIn.Legal (p : Params) (b : BlockIn) : Prop where
  skipped : ∀ x ∈ b.skipped, skips p x
  data : b.data.length = Config.blockBytes
  crc : b.crc.length = 2

def BlockIn.events (b : BlockIn) : List Event := idles (b.skipped ++ 0xFE :: (b.data ++ b.crc))

/-- A token wait that saw no start token (R190). -/
def NoToken (p : Params) (l : List Event) : Prop :=
  ∃ skipped last, l = idles (skipped ++ [last]) ∧ (∀ x ∈ skipped, skips p x) ∧ last ≠ 0xFE

/-- The bytes the card answered to one block sent (R191). -/
structure BlockOut where
  gate : List Byte
  during : List Byte
  response : Byte
  trailing : List Byte

structure BlockOut.Legal (b : BlockOut) : Prop where
  gate : WaitRun true b.gate
  during : b.during.length = Config.blockBytes + 3
  trailing : ∃ r, WaitRun r b.trailing

def BlockOut.events (token : Byte) (data : List Byte) (b : BlockOut) : List Event :=
  idles b.gate ++ (exchanges (token :: (data ++ [0x00, 0x00])) b.during ++ idles (b.response :: b.trailing))

/-- A block that was not written: the ready wait failed and nothing was sent, or the card rejected it (R191). -/
def NotWritten (token : Byte) (data : List Byte) (l : List Event) : Prop :=
  (∃ rxs, WaitRun false rxs ∧ l = idles rxs) ∨
  ∃ b : BlockOut, b.Legal ∧ dataAccepted b.response = false ∧ l = b.events token data

/-- The stop sequence of a multi-block read (R193). -/
def StopReadRun (p : Params) (l : List Event) : Prop :=
  ∃ lc st stuff rxs r, CommandRun p 12 0 false lc st none ∧ WaitRun r rxs ∧ l = lc ++ idles (stuff :: rxs)

/-- The stop token sequence of a multi-block write (R196). -/
def StopTranRun (l : List Event) : Prop :=
  ∃ b0 b1 rxs r, WaitRun r rxs ∧ l = .xchg 0xFD b0 :: idles (b1 :: rxs)

/-- The stop sequence runs after the last block, and after a failed one when `P_STOP_ON_ABORT` (R193, R195). -/
def StopPhaseRun (p : Params) (ok : Bool) (stop : List Event → Prop) (l : List Event) : Prop :=
  if ok = true ∨ p.stopOnAbort = true then stop l else l = []

/-- A sector read from its command on: `blocks` were received whole, and `ok` says whether they are all
(R192, R193). -/
def ReadRun (p : Params) (sector : Word) (count : Nat) (l : List Event) (blocks : List BlockIn) (ok : Bool) :
    Prop :=
  ∃ lc st, CommandRun p (if count = 1 then 17 else 18) sector false lc st none ∧
    if st = 0x00 then
      ∃ lf ls, l = lc ++ (blocks.flatMap BlockIn.events ++ (lf ++ ls)) ∧ (∀ b ∈ blocks, b.Legal p) ∧
        (if ok = true then blocks.length = count ∧ lf = [] else blocks.length < count ∧ NoToken p lf) ∧
        (if count = 1 then ls = [] else StopPhaseRun p ok (StopReadRun p) ls)
    else l = lc ∧ blocks = [] ∧ ok = false

/-- The token of a written block (30_encoding.md R78). -/
def writeToken (count : Nat) : Byte := if count = 1 then 0xFE else 0xFC

/-- Blocks sent and accepted, block `k` of a request being the first (R191, 20_memory.md R56). -/
def sentFrom (m : Memory) (base count : Nat) : Nat → List BlockOut → List Event
  | _, [] => []
  | k, b :: bs =>
    b.events (writeToken count) (m.load (blockBase base k) Config.blockBytes) ++ sentFrom m base count (k + 1) bs

/-- A sector write from its command on: `blocks` were sent and accepted, and `ok` says whether they are all
(R194, R195). -/
def WriteRun (p : Params) (m : Memory) (sector : Word) (base count : Nat) (l : List Event) (blocks : List BlockOut)
    (ok : Bool) : Prop :=
  ∃ lc st, CommandRun p (if count = 1 then 24 else 25) sector false lc st none ∧
    if st = 0x00 then
      ∃ lf ls, l = lc ++ (sentFrom m base count 0 blocks ++ (lf ++ ls)) ∧
        (∀ b ∈ blocks, b.Legal ∧ dataAccepted b.response = true) ∧
        (if ok = true then blocks.length = count ∧ lf = []
          else blocks.length < count ∧
            NotWritten (writeToken count) (m.load (blockBase base blocks.length) Config.blockBytes) lf) ∧
        (if count = 1 then ls = [] else StopPhaseRun p ok StopTranRun ls)
    else l = lc ∧ blocks = [] ∧ ok = false

/-- A loop of attempts, at most `n` more: each puts its commands on the wire and returns a status, and the first
`0x00` ends the loop, found (42_negotiation.md R165, R168, R169). -/
inductive LoopRun (attempt : List Event → Byte → Prop) : Nat → List Event → Bool → Prop
  | exhausted : LoopRun attempt 0 [] false
  | cleared {n : Nat} {l : List Event} : attempt l 0x00 → LoopRun attempt (n + 1) l true
  | again {n : Nat} {l l' : List Event} {st : Byte} {found : Bool} : attempt l st → st ≠ 0x00 →
      LoopRun attempt n l' found → LoopRun attempt (n + 1) (l ++ l') found

/-- An ACMD41 pair with its argument (30_encoding.md R73). -/
def PairRun (p : Params) (arg : Word) (l : List Event) (st : Byte) : Prop :=
  ∃ l55 l41 st55, CommandRun p 55 0 false l55 st55 none ∧ CommandRun p 41 arg false l41 st none ∧ l = l55 ++ l41

/-- The block-length command and its outcome (R167, R170). -/
def BlockLengthRun (p : Params) (v : Version) (l : List Event) (found : Option Version) : Prop :=
  ∃ st, CommandRun p 16 0x00000200 false l st none ∧ found = if st = 0x00 then some v else none

/-- The OCR read and what follows (R166, R167). -/
def OcrRun (p : Params) (l : List Event) (found : Option Version) : Prop :=
  ∃ l58 st ocr l16, CommandRun p 58 0 true l58 st ocr ∧ l = l58 ++ l16 ∧
    if st = 0x00 then
      ∃ o, ocr = some o ∧
        if highCapacity p o = true then l16 = [] ∧ found = some .sdv2Plus
        else BlockLengthRun p .sdv2Plus l16 found
    else l16 = [] ∧ found = none

/-- The voltage-check path after an accepted CMD8 with the echo `r7` (R164 to R167); `found` is the family
committed, if any. -/
def VoltageCheckRun (p : Params) (r7 : Word) (l : List Event) (found : Option Version) : Prop :=
  if echoMatches p r7 = true then
    ∃ l41 cleared l58, LoopRun (PairRun p p.hcsArg) Config.initIter l41 cleared ∧ l = l41 ++ l58 ∧
      if cleared = true then OcrRun p l58 found else l58 = [] ∧ found = none
  else l = [] ∧ found = none

/-- The MMC loop and what follows (R169, R170). -/
def MmcRun (p : Params) (l : List Event) (found : Option Version) : Prop :=
  ∃ l1 mmc l16, LoopRun (fun l st => CommandRun p 1 0 false l st none) Config.initIter l1 mmc ∧ l = l1 ++ l16 ∧
    if mmc = true then BlockLengthRun p .mmcv3 l16 found else l16 = [] ∧ found = none

/-- The legacy path (R168 to R170). -/
def LegacyRun (p : Params) (l : List Event) (found : Option Version) : Prop :=
  ∃ l41 sd l2, LoopRun (PairRun p 0) Config.initIter l41 sd ∧ l = l41 ++ l2 ∧
    if sd = true then BlockLengthRun p .sdv1 l2 found else MmcRun p l2 found

/-- CMD8 and the path it chooses (R163). -/
def InterfaceRun (p : Params) (l : List Event) (found : Option Version) : Prop :=
  ∃ l8 st8 echo l2, CommandRun p 8 p.r7Pattern true l8 st8 echo ∧ l = l8 ++ l2 ∧
    if st8 = Config.cmd8Accept then ∃ r7, echo = some r7 ∧ VoltageCheckRun p r7 l2 found
    else LegacyRun p l2 found

/-- The commands of a negotiation, between the claim and the release of the bus (R162 to R170, R173). -/
def NegotiationRun (p : Params) (l : List Event) (found : Option Version) : Prop :=
  ∃ l0 st0 l1, CommandRun p 0 0 false l0 st0 none ∧ l = l0 ++ l1 ∧
    if st0 = 0x01 then InterfaceRun p l1 found else l1 = [] ∧ found = none

/-- The power-up events (R161): slow, the dummy exchanges with the bus not claimed, fast, the claim. -/
def PowerUpRun (p : Params) (l : List Event) : Prop :=
  ∃ rxs : List Byte, rxs.length = p.powerupBytes ∧ l = .setSpeed .slow :: idles rxs ++ [.setSpeed .fast, .select]

/-- The frame a command row puts on the wire (30_encoding.md R70 to R72): its index and argument. -/
def frameOf (p : Params) : Instr → Option (BitVec 6 × Word)
  | .cmd0 => some (0, 0)
  | .cmd1 => some (1, 0)
  | .cmd8 _ => some (8, p.r7Pattern)
  | .cmd12 => some (12, 0)
  | .cmd16 => some (16, 512)
  | .cmd17 sector => some (17, sector)
  | .cmd18 sector => some (18, sector)
  | .cmd24 sector => some (24, sector)
  | .cmd25 sector => some (25, sector)
  | .cmd55 => some (55, 0)
  | .acmd41Hcs0 => some (41, 0)
  | .acmd41Hcs1 => some (41, p.hcsArg)
  | .cmd58 _ => some (58, 0)
  | _ => none

/-- Whether a command row's caller supplied a destination (41_command.md R127); only CMD8 and CMD58 have one. -/
def destOf : Instr → Bool
  | .cmd8 dest | .cmd58 dest => dest
  | _ => false

/-! The answers of a card that keeps nobody waiting. -/

/-- Ready at once, six discarded bytes, the status at the first poll (R120). -/
def reply (discarded : List Byte) (status : Byte) : List Byte := 0xFF :: (discarded ++ [status])

/-- To a sector read that succeeds: the command, each block's data and CRC, and the stop sequence of a
multi-block read (43_block_transfer.md R192, R193). -/
def readAnswers (count : Nat) (d d12 : List Byte) (st12 stuff : Byte) (blocks : List (List Byte × List Byte)) :
    List Byte :=
  reply d 0x00 ++ (blocks.flatMap (fun b => 0xFE :: (b.1 ++ b.2)) ++
    if count = 1 then [] else reply d12 st12 ++ [stuff, 0xFF])

/-- To a sector write: the command, each block's bytes and data response, and the stop token sequence of a
multi-block write (R194, R195). -/
def writeAnswers (count : Nat) (d : List Byte) (b0 b1 : Byte) (blocks : List (List Byte × Byte)) : List Byte :=
  reply d 0x00 ++ (blocks.flatMap (fun b => 0xFF :: (b.1 ++ [b.2, 0xFF])) ++
    if count = 1 then [] else [b0, b1, 0xFF])

/-- To the power-up and CMD0 (42_negotiation.md R161, R162). -/
def resetAnswers (pu d0 : List Byte) : List Byte := pu ++ (d0 ++ [0x01])

/-- To a negotiation of an SD v2 card: CMD8 with its echo, one ACMD41 pair, CMD58 with the OCR, and CMD16 where the
OCR has CCS clear (R163 to R167). -/
def v2Answers (p : Params) (d : Nat → List Byte) (st55 : Byte) (echo ocr : List Byte) : List Byte :=
  reply (d 1) 0x01 ++ echo ++ (reply (d 2) st55 ++ reply (d 3) 0x00 ++ (reply (d 4) 0x00 ++ ocr ++
    if highCapacity p (payloadWord ocr) = true then [] else reply (d 5) 0x00))

/-- To a negotiation of an SD v1 card: CMD8 turned down, one ACMD41 pair, CMD16 (R168, R170). -/
def v1Answers (d : Nat → List Byte) (st8 st55 : Byte) (echo : List Byte) : List Byte :=
  reply (d 1) st8 ++ echo ++ (reply (d 2) st55 ++ reply (d 3) 0x00 ++ reply (d 5) 0x00)

/-- To a negotiation of an MMC card: CMD8 turned down, every ACMD41 pair too, one CMD1, CMD16 (R168 to R170). -/
def mmcAnswers (d : Nat → List Byte) (st8 st55 st41 : Byte) (echo : List Byte) : List Byte :=
  reply (d 1) st8 ++ echo ++ ((List.replicate Config.initIter (reply (d 2) st55 ++ reply (d 3) st41)).flatten ++
    (reply (d 4) 0x00 ++ reply (d 5) 0x00))

/-- Every counter stays in the range 10_state.md R28 to R30 gives it, and an address in its width. -/
structure Regs.InWidth (p : Params) (r : Regs) : Prop where
  tries  : ∀ n, r.tries = some n → n ≤ p.nResp
  xtries : ∀ n, r.xtries = some n → n ≤ Config.cmd0Extra
  iter   : ∀ n, r.iter = some n → n ≤ Config.initIter
  pu     : ∀ n, r.pu = some n → n ≤ p.powerupBytes
  bcnt   : ∀ n, r.bcnt = some n → n < Config.blockBytes
  blk    : ∀ n, r.blk = some n → n < 2 ^ 32
  ptr    : ∀ n, r.ptr = some n → n < 2 ^ p.addrWidth
  reqBuf : ∀ n, r.reqBuf = some n → n < 2 ^ p.addrWidth

/-- What every step keeps: memory in its canonical form, the session's two registers in step (10_state.md
R24 (a)), `seq` a used value, every counter in its range. -/
structure State.Inv (s : State) : Prop where
  mem     : s.mem.wf = true
  session : s.version = .none ↔ s.status = .uninitialized
  seq     : s.seq.unused = false
  regs    : s.regs.InWidth s.cfg

end Sys2Proof.Machine
end

