-- ==== Sys2Proof/Certificates/Slice0/Obligations.lean ====
section
/-! DEFINITION. The statements about SDSPI-CORE, one rule or group of rules each. -/

open Sys2Proof Sys2Proof.Machine

/-! Encodings. -/

/-- Every instruction is what its word decodes to, each operand at every value (30_encoding.md R70 to R85; the places
are log 14). -/
def Obligations.DecodeOfEncode : Prop := ∀ i : Instr, decode (encode i) = .ok i

/-- A word that decodes is the word of the instruction it decodes to: no two words of one place spell one
instruction, and no bit is dropped (R70 to R85, R79's ignored bits being an operand; log 14). -/
def Obligations.EncodeOfDecode : Prop :=
  ∀ (c : Code) (i : Instr), decode c = .ok i → (encode i).slot = c.slot ∧ (encode i).bits = c.bits

/-- Words written out from the spec decode to what they stand for (R72, R78 to R80, R85, 95_test_vectors.md). -/
def Obligations.SpecWordsDecode : Prop :=
  ∀ q : ReqArgs,
    decode ⟨.frame, [0x40, 0x00, 0x00, 0x00, 0x00, 0x95], q⟩ = .ok .cmd0 ∧
    decode ⟨.frame, [0x48, 0x00, 0x00, 0x01, 0xAA, 0x87], q⟩ = .ok (.cmd8 true) ∧
    decode ⟨.frame, [0x51, 0x12, 0x34, 0x56, 0x78, 0x00], q⟩ = .ok (.cmd17 0x12345678) ∧
    decode ⟨.frame, [0x58, 0xFF, 0xFF, 0xFF, 0xFF, 0x00], q⟩ = .ok (.cmd24 0xFFFFFFFF) ∧
    decode ⟨.frame, [0x69, 0x40, 0x00, 0x00, 0x00, 0x00], q⟩ = .ok .acmd41Hcs1 ∧
    decode ⟨.tokenRx, [0xFE], q⟩ = .ok (.startBlockRx q.buf) ∧
    decode ⟨.tokenTx, [0xFC], q⟩ = .ok (.startMultiTx q.buf) ∧
    decode ⟨.dataResponse, [0xE5], q⟩ = .ok (.dataRespAccepted 0xE) ∧
    decode ⟨.response, [0x05], q⟩ = .ok (.r1Valid 5) ∧
    decode ⟨.response, [0xC1], q⟩ = .ok (.r1Unresolved 0x41) ∧
    decode ⟨.host, [0x02], q⟩ = .ok (.read q)

/-- The bytes of a frame in wire order: `0x40 | idx`, the argument most significant byte first, and the CRC byte,
which depends on the index alone (R54, R71). -/
def Obligations.FrameBytes : Prop :=
  ∀ (idx : BitVec 6) (arg : Word), frameBytes idx arg (crcByte idx) =
    [0x40 ||| idx.setWidth 8, arg.extractLsb' 24 8, arg.extractLsb' 16 8, arg.extractLsb' 8 8, arg.extractLsb' 0 8,
      if idx = 0 then 0x95 else if idx = 8 then 0x87 else 0x00]

/-! The host port. -/

/-- A step runs the instruction the next word spells, in the state with the word taken (70_reset_and_hazards.md R271,
R274), and the word the host's interface stores is the next one (log 1, 18). That a word sent while another request was
served runs like a submitted one, when it is the next one itself, is the model's choice (log 13). -/
def Obligations.StepRunsDecodedInstruction : Prop :=
  (∀ (s : State) (c : Code) (rest : List HostAct) (i : Instr),
    (s.inbox = .submit c :: rest ∨ s.inbox = .overlap c :: rest) → decode c = .ok i →
      i.wellFormed s.cfg.addrWidth = true → step s = exec i { s with inbox := rest }) ∧
  ∀ (s : State) (nbits w : Nat) (i : Instr), decodeTableWord nbits w = some i → i.wellFormed s.cfg.addrWidth = true →
    step (s.withFetchWord nbits w) = exec i s

/-- With nothing submitted the block waits and makes no event of its own (R271), and a host access to its own memory
between requests changes that memory only (log 13, 27; the model's choice). -/
def Obligations.BlockWaitsForRequest : Prop :=
  ∀ s : State,
    (s.inbox = [] → step s = .next s) ∧
    ∀ (rest : List HostAct) (a : Nat) (b : Byte),
      (s.inbox = .poke a b :: rest → step s = .next { s with
        inbox := rest
        mem := s.mem.write a b }) ∧
      (s.inbox = .touch a :: rest → step s = .next { s with inbox := rest })

/-- An operation code of 5 to 255 spells no request and is refused, however the word came; while a request is served, it is
the request that is one too many that is refused (30_encoding.md R86, 44_facade.md R220; the order is log 21, and that a
word sent meanwhile stands in the inbox is log 13). -/
def Obligations.ReservedOpRefused : Prop :=
  ∀ (s : State) (op : Byte) (q : ReqArgs) (rest : List HostAct), 5 ≤ op.toNat →
    (s.inbox = .submit ⟨.host, [op], q⟩ :: rest ∨ s.inbox = .overlap ⟨.host, [op], q⟩ :: rest) →
      step s = .refused (if s.busy = true then .concurrentRequest else .reservedOp)

/-- A word that spells nothing in its place (R86; log 14), and one whose buffer address does not fit `P_ADDR_W` (R85,
00_scope.md R12), is refused, however it came: at the host port as a second request while one is served (log 13, 21), else
by the name of what is wrong with it. -/
def Obligations.UnspelledWordRefused : Prop :=
  ∀ (s : State) (c : Code) (rest : List HostAct),
    (s.inbox = .submit c :: rest ∨ s.inbox = .overlap c :: rest) →
      (∀ why, decode c = .error why → step s = .refused
        (if s.busy = true ∧ c.slot = .host then .concurrentRequest
          else match why with
            | .reservedOp _ => .reservedOp
            | _ => .noSuchWord why)) ∧
      ∀ i, decode c = .ok i → i.wellFormed s.cfg.addrWidth = false → step s = .refused
        (if s.busy = true ∧ c.slot = .host then .concurrentRequest else .noSuchWord .badAddress)

/-- A request while another is served is refused (44_facade.md R220, R228 (a), 60_exceptions.md R245; log 13). -/
def Obligations.ConcurrentRequestRefused : Prop :=
  ∀ (s : State) (i : Instr) (f : Byte × ReqArgs), requestOf i = some f → s.Legal →
    (s.busy = true ∨ s.intrusions.any HostAct.isOverlap = true) → exec i s = .refused .concurrentRequest

/-- No instruction runs with parameters the spec excludes (00_scope.md R12; log 9, 21). -/
def Obligations.BadParameterRefused : Prop :=
  ∀ (s : State) (i : Instr), s.seq.unused = false → (s.cfg.nResp = 0 ∨ s.cfg.powerupBytes < 100) →
    exec i s = .refused .badParameter

/-- The two values `seq` never holds fault (10_state.md R21, R245; log 20). -/
def Obligations.UnusedSeqFaults : Prop :=
  ∀ (s : State) (i : Instr), s.seq = .unused14 ∨ s.seq = .unused15 → exec i s = .fault (.internalFault .seqUnused)

/-- A transfer whose buffer the host touches meanwhile is refused, whatever its preconditions (20_memory.md R64,
44_facade.md R228 (c)); one that passes them and whose buffer is not accessible byte by byte, or overflows the address
width, is refused (R228 (b), R245; log 11, 12, 13, 21). The block rows have the same duties for their 512 bytes (log 15). -/
def Obligations.BadBufferRefused : Prop :=
  ∀ s : State, s.Legal →
    (∀ acc base n, s.bufferOk acc base n = true ↔ s.Accessible acc base n) ∧
    (∀ q : ReqArgs, s.busy = false → s.intrusions.any HostAct.isOverlap = false →
      (s.intrusions.any (HostAct.touches q.buf (512 * q.count.toNat)) = true →
        exec (.read q) s = .refused .bufferTouched ∧ exec (.write q) s = .refused .bufferTouched) ∧
      (s.intrusions.any (HostAct.touches q.buf (512 * q.count.toNat)) = false →
        q.unit = 0 → s.status = .ready → q.count ≠ 0 →
          (¬s.Accessible .store q.buf (512 * q.count.toNat) → exec (.read q) s = .refused .badBuffer) ∧
          (¬s.Accessible .load q.buf (512 * q.count.toNat) → exec (.write q) s = .refused .badBuffer))) ∧
    ∀ base : Nat,
      (s.intrusions.any (HostAct.touches base 512) = true →
        exec (.startBlockRx base) s = .refused .bufferTouched ∧ exec (.startBlockTx base) s = .refused .bufferTouched ∧
        exec (.startMultiTx base) s = .refused .bufferTouched) ∧
      (s.intrusions.any (HostAct.touches base 512) = false →
        (¬s.Accessible .store base 512 → exec (.startBlockRx base) s = .refused .badBuffer) ∧
        (¬s.Accessible .load base 512 →
          exec (.startBlockTx base) s = .refused .badBuffer ∧ exec (.startMultiTx base) s = .refused .badBuffer))

/-! The whole machine. -/

/-- After reset the session is uninitialized with no family, the bus is released, the speed is any of the two (a free value,
log 7), no request is served, `seq` is `IDLE` and no datapath register holds a value (10_state.md R36). -/
def Obligations.ResetValues : Prop :=
  State.reset.status = .uninitialized ∧ State.reset.version = .none ∧ State.reset.cs = .deselected ∧
    State.reset.speed = Config.resetSpeed ∧ State.reset.busy = false ∧ State.reset.seq = .idle ∧
    State.reset.regs = Regs.empty

/-- The invariant holds after reset (R24 (a), R21, R28 to R30; the form of memory is log 10). -/
def Obligations.ResetMeetsInv : Prop := State.reset.Inv

/-- Every step keeps the invariant: memory's canonical form, `version = None` exactly when `Uninitialized`, `seq` a used
value, every counter in its range and every address in its width (R24 (a), R21, R28 to R30, 00_scope.md R16; log 10, 22). -/
def Obligations.StepKeepsInv : Prop := ∀ s t : State, s.Inv → step s = .next t → t.Inv

/-- A `Ready` session stays `Ready` with its family (R24 (b), (d)). -/
def Obligations.ReadySessionStays : Prop :=
  ∀ s t : State, step s = .next t → s.status = .ready → t.status = .ready ∧ t.version = s.version

/-- Only an initialization writes the session (R24 (d)). -/
def Obligations.SessionOnlyByInit : Prop :=
  ∀ (i : Instr) (s t : State), exec i s = .next t → (∀ q, i ≠ .init q) →
    t.version = s.version ∧ t.status = s.status

/-- Only an initialization or the speed row itself writes the speed (R26, 40_transport.md R105). -/
def Obligations.SpeedOnlyBySpeedEvents : Prop :=
  ∀ (i : Instr) (s t : State), exec i s = .next t → (∀ q, i ≠ .init q) → (∀ v, i ≠ .setSpeed v) → t.speed = s.speed

/-- Only what receives data blocks writes host memory (20_memory.md R50, R64). -/
def Obligations.MemoryOnlyByReads : Prop :=
  ∀ (i : Instr) (s t : State), exec i s = .next t → (∀ q, i ≠ .read q) → (∀ base, i ≠ .startBlockRx base) →
    t.mem = s.mem

/-- No instruction changes the parameters, the accessible ranges or what the host does next (00_scope.md R12, R34;
log 9, 11). -/
def Obligations.SetupStays : Prop :=
  ∀ (i : Instr) (s t : State), exec i s = .next t →
    t.cfg = s.cfg ∧ t.regions = s.regions ∧ t.inbox = s.inbox

/-- An event that happened stays in the trace, and a procedure called by itself is no request: it leaves the arbitration,
the sequencer, the request registers and the results as they were (00_scope.md R9, 44_facade.md R220; log 15, 19). -/
def Obligations.CallsAreNoRequests : Prop :=
  ∀ (i : Instr) (s t : State), exec i s = .next t →
    s.wire <+: t.wire ∧
    (requestOf i = none → t.busy = s.busy ∧ t.seq = s.seq ∧ t.delivered = s.delivered ∧
      t.regs.reqOp = s.regs.reqOp ∧ t.regs.reqUnit = s.regs.reqUnit ∧ t.regs.reqBuf = s.regs.reqBuf ∧
      t.regs.reqSector = s.regs.reqSector ∧ t.regs.reqCount = s.regs.reqCount ∧ t.regs.result = s.regs.result)

/-- A request that ends was accepted alone, no other being served and none arriving before its result (R220, R228 (a);
log 13), latched its fields, went idle and delivered one result (R220, R249). That it leaves `ret` alone is the model's own
record (log 19). -/
def Obligations.RequestLifecycle : Prop :=
  ∀ (i : Instr) (op : Byte) (q : ReqArgs) (s t : State), requestOf i = some (op, q) → exec i s = .next t →
    s.busy = false ∧ s.intrusions.any HostAct.isOverlap = false ∧ t.busy = false ∧ t.seq = .idle ∧ t.ret = s.ret ∧
      t.regs.reqOp = some op ∧ t.regs.reqUnit = some q.unit ∧ t.regs.reqBuf = some q.buf ∧
      t.regs.reqSector = some q.sector ∧ t.regs.reqCount = some q.count ∧
      ∃ r, t.regs.result = some r ∧ t.delivered = s.delivered ++ [r]

/-- The result of every request (60_exceptions.md R241): the status word, `Error` of `ioctl`, and of a transfer the code
of the first failing precondition, else `OK` or `Error`; never `WriteProtected`. -/
def Obligations.RequestResults : Prop :=
  ∀ (i : Instr) (s t : State) (r : Byte), exec i s = .next t → t.delivered = s.delivered ++ [r] →
    match i with
    | .status _ => r = if t.status = .ready then 0x00 else 0x01
    | .init _ => r = if t.status = .ready then 0x00 else 0x01
    | .ioctl _ => r = 1
    | .read q | .write q =>
      if q.unit ≠ 0 then r = 4 else if s.status ≠ .ready then r = 3 else if q.count = 0 then r = 4 else r = 0 ∨ r = 1
    | _ => False

/-- Every request releases the bus it claims: served with the bus released, it ends so, and its events are none, or
exchanges and speed events, one claim, exchanges, and the release; `status`, `ioctl` and a transfer that fails a
precondition claim nothing (40_transport.md R106, 44_facade.md R221, R222, R226, 42_negotiation.md R161, R172). -/
def Obligations.RequestsReleaseBus : Prop :=
  ∀ (i : Instr) (f : Byte × ReqArgs) (s t : State), requestOf i = some f → s.cs = .deselected → exec i s = .next t →
    t.cs = .deselected ∧
    ∃ l, t.wire = s.wire ++ l ∧
      (l = [] ∨ ∃ before during, l = before ++ .select :: during ++ [.deselect] ∧
        (∀ e ∈ before, e ≠ .select ∧ e ≠ .deselect) ∧ ∀ e ∈ during, e.isXchg = true) ∧
      match i with
      | .read q | .write q => q.unit ≠ 0 ∨ s.status ≠ .ready ∨ q.count = 0 → l = []
      | .init _ => s.status = .ready → l = []
      | _ => l = []

/-- No request reads a register nobody wrote, claims a claimed bus or reaches an unused `seq` (10_state.md R33, R21,
40_transport.md R103, 60_exceptions.md R245). -/
def Obligations.RequestsMeetNoInternalFault : Prop :=
  ∀ (i : Instr) (f : Byte × ReqArgs) (s : State) (c : InternalCause), requestOf i = some f → s.seq.unused = false →
    s.cs = .deselected → exec i s ≠ .fault (.internalFault c)

/-- Stored bytes read back in order, every other byte reads as before, and the canonical form stays (20_memory.md R50,
R56; log 10). -/
def Obligations.StoredBytesReadBack : Prop :=
  ∀ (m : Memory) (a : Nat) (bs : List Byte), m.wf = true →
    (m.store a bs).wf = true ∧
    (∀ k b, bs[k]? = some b → (m.store a bs).read (a + k) = b) ∧
    ∀ x, ¬(a ≤ x ∧ x < a + bs.length) → (m.store a bs).read x = m.read x

/-! Requests. -/

/-- `status()` answers the status word and does nothing else (44_facade.md R222). -/
def Obligations.StatusAnswersSession : Prop :=
  ∀ (q : ReqArgs) (s : State), s.Legal → s.Free →
    exec (.status q) s = .next (s.answered 0 q (if s.status = .ready then 0x00 else 0x01))

/-- `ioctl` answers `Error` whatever its fields and does nothing else (R226). -/
def Obligations.IoctlAnswersError : Prop :=
  ∀ (q : ReqArgs) (s : State), s.Legal → s.Free → exec (.ioctl q) s = .next (s.answered 4 q 1)

/-- The preconditions of a transfer, in their order: a failure answers its code and does nothing else (R221). -/
def Obligations.PreconditionFailures : Prop :=
  ∀ (q : ReqArgs) (s : State), s.Legal → s.Free →
    (q.unit ≠ 0 → exec (.read q) s = .next (s.answered 2 q 4) ∧ exec (.write q) s = .next (s.answered 3 q 4)) ∧
    (q.unit = 0 → s.status ≠ .ready →
      exec (.read q) s = .next (s.answered 2 q 3) ∧ exec (.write q) s = .next (s.answered 3 q 3)) ∧
    (q.unit = 0 → s.status = .ready → q.count = 0 →
      exec (.read q) s = .next (s.answered 2 q 4) ∧ exec (.write q) s = .next (s.answered 3 q 4))

/-- `initialize()` on a `Ready` session answers `Ready` and does nothing else (R223). -/
def Obligations.InitOnReadySession : Prop :=
  ∀ (q : ReqArgs) (s : State), s.Legal → s.Free → s.status = .ready → exec (.init q) s = .next (s.answered 1 q 0x00)

/-- `initialize()` on an uninitialized session completes when the environment keeps 40_transport.md R108, and this is all
it changes: the session, the speed (`Fast`), the registers of R28 and R29, the draws and the wire (R223,
42_negotiation.md R160). -/
def Obligations.InitCompletes : Prop :=
  ∀ (q : ReqArgs) (s : State), s.Legal → s.Free → s.Fair → s.cs = .deselected → s.status = .uninitialized →
    ∃ t r, exec (.init q) s = .next t ∧ t.Fair ∧ r = (if t.status = .ready then 0x00 else 0x01) ∧
      t = { s with
        version := t.version
        status := t.status
        speed := .fast
        seq := .idle
        regs := t.regs
        env := t.env
        wire := t.wire
        delivered := s.delivered ++ [r] } ∧
      (Regs.reported 1 q r).negotiationRestored t.regs = Regs.reported 1 q r

/-- What an initialization does: the power-up, the commands of the negotiation in their order with what each answer
leads to, the commit of the family found or of none, the release (R223, R160 to R173). -/
def Obligations.InitFollowsNegotiation : Prop :=
  ∀ (q : ReqArgs) (s t : State), s.cs = .deselected → s.status = .uninitialized → exec (.init q) s = .next t →
    ∃ lp l found, PowerUpRun s.cfg lp ∧ NegotiationRun s.cfg l found ∧
      t.wire = s.wire ++ (lp ++ (l ++ [.deselect])) ∧ t.speed = .fast ∧
      match found with
      | some v => t.version = v ∧ t.status = .ready ∧ t.delivered = s.delivered ++ [0x00]
      | none => t.version = s.version ∧ t.status = .uninitialized ∧ t.delivered = s.delivered ++ [0x01]

/-- A card that keeps nobody waiting is initialized as what it is: SD v2 or later, SD v1, or MMC (R163 to R171). -/
def Obligations.InitFindsEachFamily : Prop :=
  ∀ (q : ReqArgs) (s : State) (pu d0 rest echo ocr : List Byte) (d : Nat → List Byte) (st8 st55 st41 : Byte),
    s.Legal → s.Free → s.env.transport = none → s.cs = .deselected → s.status = .uninitialized →
    pu.length = s.cfg.powerupBytes → d0.length = 6 → (∀ k, (d k).length = 6) → echo.length = 4 → ocr.length = 4 →
    unresolved st8 = false → st8 ≠ 0x01 → unresolved st55 = false → unresolved st41 = false → st41 ≠ 0x00 →
      (echoMatches s.cfg (payloadWord echo) = true →
        s.env.answers = resetAnswers pu d0 ++ (v2Answers s.cfg d st55 echo ocr ++ rest) →
        ∃ t, exec (.init q) s = .next t ∧ t.version = .sdv2Plus ∧ t.status = .ready ∧
          t.delivered = s.delivered ++ [0x00] ∧ t.env.answers = rest) ∧
      (s.env.answers = resetAnswers pu d0 ++ (v1Answers d st8 st55 echo ++ rest) →
        ∃ t, exec (.init q) s = .next t ∧ t.version = .sdv1 ∧ t.status = .ready ∧
          t.delivered = s.delivered ++ [0x00] ∧ t.env.answers = rest) ∧
      (s.env.answers = resetAnswers pu d0 ++ (mmcAnswers d st8 st55 st41 echo ++ rest) →
        ∃ t, exec (.init q) s = .next t ∧ t.version = .mmcv3 ∧ t.status = .ready ∧
          t.delivered = s.delivered ++ [0x00] ∧ t.env.answers = rest)

/-- A read past its preconditions completes when the environment keeps R108, and this is all it changes: the registers of
the sequence, the draws, the wire, and the buffer (44_facade.md R224, 20_memory.md R50, R60). -/
def Obligations.ReadCompletes : Prop :=
  ∀ (q : ReqArgs) (s : State), s.Legal → s.Free → s.Fair → s.cs = .deselected → s.mem.wf = true →
    q.unit = 0 → s.status = .ready → q.count ≠ 0 → s.Lends .store q.buf (512 * q.count.toNat) →
    ∃ t r, exec (.read q) s = .next t ∧ t.Fair ∧ (r = 0 ∨ r = 1) ∧
      t = { s with
        seq := .idle
        regs := t.regs
        mem := t.mem
        env := t.env
        wire := t.wire
        delivered := s.delivered ++ [r] } ∧
      (Regs.reported 2 q r).sectorRestored t.regs = Regs.reported 2 q r ∧
      ∀ x, ¬(q.buf ≤ x ∧ x < q.buf + 512 * q.count.toNat) → t.mem.read x = s.mem.read x

/-- What a read does: one sector command, the blocks received before the first failure stored whole and in order from the
buffer's start, nothing else stored, the stop sequence, `OK` exactly when every block came; what ends a token wait without
a token is the last statement (43_block_transfer.md R190, R192, R193, R198, R199, 20_memory.md R51, R56, R60). -/
def Obligations.ReadFollowsSequence : Prop :=
  ∀ (q : ReqArgs) (s t : State), q.unit = 0 → s.status = .ready → q.count ≠ 0 → exec (.read q) s = .next t →
    ∃ l blocks ok, ReadRun s.cfg q.sector q.count.toNat l blocks ok ∧
      t.wire = s.wire ++ (.select :: l ++ [.deselect]) ∧
      t.mem = s.mem.store q.buf (blocks.flatMap BlockIn.data) ∧
      t.delivered = s.delivered ++ [if ok = true then 0 else 1]

/-- A card that keeps nobody waiting has its sectors read: `OK`, and the buffer holds the blocks' bytes in order
(R192, R193, R56, R59). -/
def Obligations.ReadSucceeds : Prop :=
  ∀ (q : ReqArgs) (s : State) (d d12 rest : List Byte) (st12 stuff : Byte) (blocks : List (List Byte × List Byte)),
    s.Legal → s.Free → s.env.transport = none → s.cs = .deselected → q.unit = 0 → s.status = .ready → q.count ≠ 0 →
    s.Lends .store q.buf (512 * q.count.toNat) → d.length = 6 → d12.length = 6 → unresolved st12 = false →
    blocks.length = q.count.toNat → (∀ b ∈ blocks, b.1.length = 512 ∧ b.2.length = 2) →
    s.env.answers = readAnswers q.count.toNat d d12 st12 stuff blocks ++ rest →
    ∃ t, exec (.read q) s = .next t ∧ t.delivered = s.delivered ++ [0] ∧
      t.mem = s.mem.store q.buf (blocks.flatMap (·.1)) ∧ t.env.answers = rest

/-- A write past its preconditions completes when the environment keeps R108, and this is all it changes: the registers
of the sequence, the draws and the wire; never the buffer (44_facade.md R225). -/
def Obligations.WriteCompletes : Prop :=
  ∀ (q : ReqArgs) (s : State), s.Legal → s.Free → s.Fair → s.cs = .deselected →
    q.unit = 0 → s.status = .ready → q.count ≠ 0 → s.Lends .load q.buf (512 * q.count.toNat) →
    ∃ t r, exec (.write q) s = .next t ∧ t.Fair ∧ (r = 0 ∨ r = 1) ∧
      t = { s with
        seq := .idle
        regs := t.regs
        env := t.env
        wire := t.wire
        delivered := s.delivered ++ [r] } ∧
      (Regs.reported 3 q r).sectorRestored t.regs = Regs.reported 3 q r

/-- What a write does: one sector command, the buffer's blocks sent in order, each after a ready wait and with its token
and two zero CRC bytes, up to the first the card does not accept, the stop token sequence, `OK` exactly when every block
was accepted (43_block_transfer.md R191, R194 to R196, R199, 20_memory.md R51, R56). -/
def Obligations.WriteFollowsSequence : Prop :=
  ∀ (q : ReqArgs) (s t : State), q.unit = 0 → s.status = .ready → q.count ≠ 0 → exec (.write q) s = .next t →
    ∃ l blocks ok, WriteRun s.cfg s.mem q.sector q.buf q.count.toNat l blocks ok ∧
      t.wire = s.wire ++ (.select :: l ++ [.deselect]) ∧ t.mem = s.mem ∧
      t.delivered = s.delivered ++ [if ok = true then 0 else 1]

/-- A card that keeps nobody waiting and accepts every block has them written: `OK` (R194, R195, R197). -/
def Obligations.WriteSucceeds : Prop :=
  ∀ (q : ReqArgs) (s : State) (d rest : List Byte) (b0 b1 : Byte) (blocks : List (List Byte × Byte)),
    s.Legal → s.Free → s.env.transport = none → s.cs = .deselected → q.unit = 0 → s.status = .ready → q.count ≠ 0 →
    s.Lends .load q.buf (512 * q.count.toNat) → d.length = 6 → blocks.length = q.count.toNat →
    (∀ b ∈ blocks, b.1.length = 515 ∧ dataAccepted b.2 = true) →
    s.env.answers = writeAnswers q.count.toNat d b0 b1 blocks ++ rest →
    ∃ t, exec (.write q) s = .next t ∧ t.delivered = s.delivered ++ [0] ∧ t.mem = s.mem ∧ t.env.answers = rest

/-! The byte transport. -/

/-- One exchange: the byte sent, the byte the card answers received and returned, nothing else; `Rx` and the idle byte send
`0xFF` (40_transport.md R100, R101, 30_encoding.md R80; log 2, 15). -/
def Obligations.ExchangesOneByte : Prop :=
  ∀ (tx : Byte) (s : State), s.Legal → s.env.transport ≠ some 0 →
    exec (.xchg tx) s = .next ((s.exchanged tx).returned (some (.byte s.env.answer))) ∧
    exec .rx s = .next ((s.exchanged 0xFF).returned (some (.byte s.env.answer))) ∧
    exec .idleFiller s = .next ((s.exchanged 0xFF).returned (some (.byte s.env.answer))) ∧
    (s.exchanged tx).wire = s.wire ++ [.xchg tx s.env.answer] ∧
    ∀ b l, s.env.answers = b :: l → s.env.answer = b ∧ (s.exchanged tx).env.answers = l

/-- A transport that never becomes idle hangs the block at the exchange that waits for it, also in the middle of a command,
of the stop token sequence, of a power-up (40_transport.md R100, R108 (b), 44_facade.md R228 (d); log 5); a ready wait that
sees neither a ready card nor an expired budget hangs where nothing will show the expiry (R108 (a), R228 (d); how many polls
it makes before is log 4). The model stops there by name. -/
def Obligations.IdleTransportNeeded : Prop :=
  ∀ s : State, s.Legal →
    (s.env.transport = some 0 →
      (∀ tx, exec (.xchg tx) s = .fault .transportNeverIdle) ∧ exec .rx s = .fault .transportNeverIdle ∧
      exec .idleFiller s = .fault .transportNeverIdle ∧ exec .waitReady s = .fault .transportNeverIdle) ∧
    (∀ n, s.env.transport = some n →
      (∀ i idx arg, frameOf s.cfg i = some (idx, arg) → (idx ≠ 0 → s.env.answers.head? = some 0xFF) →
        n < (if idx = 0 then 6 else 7) → exec i s = .fault .transportNeverIdle) ∧
      (n < 2 → exec .stopTran s = .fault .transportNeverIdle) ∧
      (∀ q, s.Free → s.status = .uninitialized → n < s.cfg.powerupBytes →
        exec (.init q) s = .fault .transportNeverIdle)) ∧
    (s.env.transport = none → (s.env.tickFair = false ∨ 2 ^ 32 ≤ s.cfg.readyBudget) →
      (∀ k ≤ s.env.afterTick.pollsLeft, s.env.answerAt k ≠ 0xFF) →
      (∀ k < s.env.afterTick.pollsLeft, (s.env.tickAt (k + 1) - s.env.tickAt 0).toNat < s.cfg.readyBudget) →
      exec .waitReady s = .fault .waitNeverEnds)

/-- `Select` claims the bus; while it is claimed the model faults (R103; log 15, 29). -/
def Obligations.SelectClaimsBus : Prop :=
  ∀ s : State, s.Legal →
    (s.cs = .deselected → exec .select s = .next { s with
      cs := .selected
      wire := s.wire ++ [.select]
      ret := none }) ∧
    (s.cs = .selected → exec .select s = .fault (.internalFault .selectWhileSelected))

/-- `Deselect` releases the bus and makes no exchange (R104; that the row runs by itself is log 15, and that `ret` is cleared is the model's own record, log 19). -/
def Obligations.DeselectReleasesBus : Prop :=
  ∀ s : State, s.Legal → exec .deselect s = .next { s with
    cs := .deselected
    wire := s.wire ++ [.deselect]
    ret := none }

/-- `SetSpeed` selects the speed (R105; log 15). -/
def Obligations.SetSpeedSelects : Prop :=
  ∀ (v : Speed) (s : State), s.Legal → exec (.setSpeed v) s = .next { s with
    speed := v
    wire := s.wire ++ [.setSpeed v]
    ret := none }

/-- The expiry test: elapsed ticks modulo 2^32, one tick read (R107). -/
def Obligations.ExpiryIsModular : Prop :=
  ∀ (t0 : Tick) (budget : Nat) (s : State), expired t0 budget s =
    .ok (decide (budget ≤ (s.env.tick.toNat + 2 ^ 32 - t0.toNat) % 2 ^ 32)) { s with env := s.env.afterTick }

/-- A ready wait completes when the environment keeps R108; it draws, sends idle bytes, writes `t0`, and answers whether
the last byte, and only the last, was `0xFF` (R102, R108). -/
def Obligations.WaitReadyCompletes : Prop :=
  ∀ s : State, s.Legal → s.Fair → ∃ t r rxs, exec .waitReady s = .next t ∧ t.Fair ∧
    t = { s with
      env := t.env
      wire := s.wire ++ idles rxs
      ret := some (.bool r)
      regs := { s.regs with t0 := some s.env.tick } } ∧ WaitRun r rxs

/-- A ready wait under given ticks and answers: it ends at the first `0xFF`, even when the budget would have expired
after that exchange, and at the first expiry after another byte; it makes one exchange at least and writes `t0`
(R102). -/
def Obligations.WaitReadyFollowsTicks : Prop :=
  ∀ (s : State) (t0 last : Tick) (ts ticks : List Tick) (bs answers : List Byte), s.Legal → s.env.transport = none →
    (∀ b ∈ bs, b ≠ 0xFF) → (∀ t ∈ ts, (t - t0).toNat < s.cfg.readyBudget) →
    (s.env.ticks = t0 :: (ts ++ ticks) → s.env.answers = bs ++ 0xFF :: answers → bs.length = ts.length →
      ∃ t, exec .waitReady s = .next t ∧ t.ret = some (.bool true) ∧ t.wire = s.wire ++ idles (bs ++ [0xFF]) ∧
        t.env.ticks = ticks ∧ t.env.answers = answers ∧ t.regs = { s.regs with t0 := some t0 }) ∧
    (s.env.ticks = t0 :: (ts ++ last :: ticks) → s.cfg.readyBudget ≤ (last - t0).toNat →
      s.env.answers = bs ++ answers → bs.length = ts.length + 1 →
      ∃ t, exec .waitReady s = .next t ∧ t.ret = some (.bool false) ∧ t.wire = s.wire ++ idles bs ∧
        t.env.ticks = ticks ∧ t.env.answers = answers ∧ t.regs = { s.regs with t0 := some t0 })

/-- A card-ready byte ends a ready wait at once (30_encoding.md R81, R102; the row's reading is log 16). -/
def Obligations.CardReadyEndsWait : Prop :=
  ∀ s : State, s.Legal → s.env.transport = none → exec .cardReady s = .next { s with
    env := { s.env.afterTick with nAnswer := s.env.nAnswer + 1 }
    wire := s.wire ++ [.xchg 0xFF 0xFF]
    regs := { s.regs with t0 := some s.env.tick }
    ret := some (.bool true) }

/-! Commands. -/

/-- Every command row completes when the environment keeps R108, and this is all it changes: the framer's registers and
`t0`, the draws, the wire; the frame's fields are latched (41_command.md R120, R127, R130 to R142; log 15). -/
def Obligations.CommandsComplete : Prop :=
  ∀ (i : Instr) (idx : BitVec 6) (arg : Word) (s : State), frameOf s.cfg i = some (idx, arg) → s.Legal → s.Fair →
    ∃ t st, exec i s = .next t ∧ t.Fair ∧ t.ret = some (.byte st) ∧ s.onlyCard t ∧ s.regs.framerRestored t.regs = s.regs ∧
      t.regs.cmdIdx = some idx ∧ t.regs.cmdArg = some arg ∧ t.regs.cmdCrc = some (crcByte idx) ∧
      t.regs.extDest = some (destOf i)

/-- What a command row does: the ready gate but for CMD0, the six frame bytes with what is received discarded, the polls,
the payload, the result, and the destination; where the gate fails, nothing is sent and the result is `0xFF` (R120 to
R126; that the row runs by itself is log 15). -/
def Obligations.CommandsFollowFraming : Prop :=
  ∀ (i : Instr) (idx : BitVec 6) (arg : Word) (s t : State), frameOf s.cfg i = some (idx, arg) → exec i s = .next t →
    ∃ l st out, CommandRun s.cfg idx arg (destOf i) l st out ∧ t.wire = s.wire ++ l ∧ t.ret = some (.byte st) ∧
      t.regs.extOut = out.or s.regs.extOut

/-- A command row answered at once returns the status and takes just those answers (R120, R126). -/
def Obligations.CommandsReturnStatus : Prop :=
  ∀ (i : Instr) (idx : BitVec 6) (arg : Word) (s : State) (d payload rest : List Byte) (st : Byte),
    frameOf s.cfg i = some (idx, arg) → s.Legal → s.env.transport = none → (hasPayload idx = true → destOf i = true) →
    d.length = 6 → unresolved st = false → (idx = 0 → st = 0x01) → payload.length = (if hasPayload idx then 4 else 0) →
    s.env.answers = (if idx = 0 then d ++ [st] else reply d st) ++ (payload ++ rest) →
    ∃ t, exec i s = .next t ∧ t.ret = some (.byte st) ∧ t.env.answers = rest ∧
      (hasPayload idx = true → t.regs.extOut = some (payloadWord payload))

/-- CMD0 makes at most `6 + P_N_RESP + 1000` exchanges and no other event (R130, 70_reset_and_hazards.md R286). -/
def Obligations.Cmd0IsBounded : Prop :=
  ∀ s t : State, exec .cmd0 s = .next t → ∃ l, t.wire = s.wire ++ l ∧ l.length ≤ 6 + s.cfg.nResp + 1000 ∧
    ∀ e ∈ l, e.isXchg = true

/-- CMD8 and CMD58 with no destination return the busy sentinel, whatever the card answered, and write no destination
(41_command.md R125). -/
def Obligations.MisuseGuard : Prop :=
  ∀ s t : State, (exec (.cmd8 false) s = .next t ∨ exec (.cmd58 false) s = .next t) →
    t.ret = some (.byte 0xFF) ∧ t.regs.extOut = s.regs.extOut

/-- A valid status ends the response poll at once (R123; the row's reading is log 16). -/
def Obligations.ValidStatusEndsPoll : Prop :=
  ∀ (flags : BitVec 7) (s : State), s.Legal → s.env.transport = none →
    exec (.r1Valid flags) s = .next { s with
      env := { s.env with nAnswer := s.env.nAnswer + 1 }
      wire := s.wire ++ [.xchg 0xFF (0b0#1 ++ flags)]
      regs := { s.regs with
        resp := some (0b0#1 ++ flags)
        tries := some 1 }
      ret := some (.byte (0b0#1 ++ flags)) }

/-- An unresolved byte is polled past: the poll ends at the first valid byte or at the `P_N_RESP`-th, and returns the byte
it ended with (R123; the row's reading is log 16). -/
def Obligations.UnresolvedStatusPollsOn : Prop :=
  ∀ (low : BitVec 7) (s : State), s.Legal → s.env.transport = none →
    ∃ t polled st, exec (.r1Unresolved low) s = .next t ∧ (polled ++ [st]).head? = some (0b1#1 ++ low) ∧
      (∀ b ∈ polled, unresolved b = true) ∧ polled.length < s.cfg.nResp ∧
      (unresolved st = true → polled.length + 1 = s.cfg.nResp) ∧
      t = { s with
        env := t.env
        wire := s.wire ++ idles (polled ++ [st])
        regs := { s.regs with
          resp := some st
          tries := some (polled.length + 1) }
        ret := some (.byte st) }

/-! Data blocks. -/

/-- A start token received brings in one block: 512 bytes stored from `base` on whatever they are, two CRC bytes discarded
(43_block_transfer.md R190, R198; the row's reading is log 16). -/
def Obligations.StartTokenBringsBlock : Prop :=
  ∀ (base : Nat) (s : State), s.Legal → s.env.transport = none → s.Lends .store base 512 →
    ∃ t data crc, exec (.startBlockRx base) s = .next t ∧ t.ret = some (.bool true) ∧ data.length = 512 ∧
      crc.length = 2 ∧ t.wire = s.wire ++ idles (0xFE :: (data ++ crc)) ∧ t.mem = s.mem.store base data ∧
      s.onlyCardAndMemory t ∧ s.regs.blockRestored t.regs = s.regs

/-- A block is sent with its token: the two rows complete when the environment keeps R108, change the block registers, the
draws and the wire only, and answer whether the card accepted the buffer's bytes; a card ready at once that accepts is
answered `true` (R191, R197). -/
def Obligations.BlockIsSent : Prop :=
  ∀ (base : Nat) (i : Instr) (token : Byte) (s : State),
    (i = .startBlockTx base ∧ token = 0xFE ∨ i = .startMultiTx base ∧ token = 0xFC) → s.Legal →
    s.Lends .load base 512 →
      (s.Fair → ∃ t ok l, exec i s = .next t ∧ t.Fair ∧ t.ret = some (.bool ok) ∧ s.onlyCard t ∧
        s.regs.blockRestored t.regs = s.regs ∧ t.wire = s.wire ++ l ∧
        if ok = true then ∃ b : BlockOut, b.Legal ∧ dataAccepted b.response = true ∧ l = b.events token (s.mem.load base 512)
        else NotWritten token (s.mem.load base 512) l) ∧
      ∀ during response rest, s.env.transport = none → during.length = 515 → dataAccepted response = true →
        s.env.answers = 0xFF :: (during ++ [response, 0xFF]) ++ rest →
        ∃ t, exec i s = .next t ∧ t.ret = some (.bool true) ∧ t.env.answers = rest

/-- The stop token, one discarded byte, a ready wait whose result is ignored; the row completes when the environment keeps
R108 and changes `t0`, the draws and the wire only (R196). -/
def Obligations.StopTokenSequence : Prop :=
  ∀ s : State, s.Legal → s.Fair → ∃ t l, exec .stopTran s = .next t ∧ t.Fair ∧ StopTranRun l ∧
    t = { s with
      env := t.env
      wire := s.wire ++ l
      ret := none
      regs := { s.regs with t0 := t.regs.t0 } }

/-- A data response is accepted exactly when its low nibble is 5 (R197); the accepted one is read in one exchange, not
polled (R191; the row's reading is log 16). -/
def Obligations.DataResponseAccepted : Prop :=
  (∀ b : Byte, dataAccepted b = true ↔ b.toNat % 16 = 5) ∧
  ∀ (ignored : BitVec 4) (s : State), s.Legal → s.env.transport = none →
    exec (.dataRespAccepted ignored) s = .next { s with
      env := { s.env with nAnswer := s.env.nAnswer + 1 }
      wire := s.wire ++ [.xchg 0xFF (ignored ++ 0b0101#4)]
      regs := { s.regs with dresp := some (ignored ++ 0b0101#4) }
      ret := some (.bool true) }

/-- The token wait of a read, given its answers and its tick reads: bytes that do not end it are passed over while the
budget is not reached; the start token brings the block in; a tick read that reaches `P_TOKEN_BUDGET` ends it failed, and
under `ON_NON_IDLE` so does a byte other than `0xFF` and `0xFE`, at once; on failure no further byte is consumed and the
buffer is untouched (43_block_transfer.md R190, 40_transport.md R107, V43-2, V43-3). -/
def Obligations.TokenWaitFollowsTicks : Prop :=
  ∀ (q : ReqArgs) (s : State) (gate t0 : Tick) (ts ticks : List Tick) (d bs rest : List Byte),
    s.Legal → s.Free → s.env.transport = none → s.cs = .deselected → q.unit = 0 → s.status = .ready → q.count = 1 →
    s.Lends .store q.buf 512 → d.length = 6 →
    (∀ b ∈ bs, b ≠ 0xFE ∧ (s.cfg.tokenPollStop = .onNonIdle → b = 0xFF)) →
    (∀ t ∈ ts, (t - t0).toNat < s.cfg.tokenBudget) →
      (∀ data crc : List Byte, data.length = 512 → crc.length = 2 → bs.length = ts.length →
        s.env.ticks = gate :: t0 :: (ts ++ ticks) →
        s.env.answers = reply d 0x00 ++ (bs ++ 0xFE :: (data ++ (crc ++ rest))) →
        ∃ t, exec (.read q) s = .next t ∧ t.delivered = s.delivered ++ [0] ∧ t.mem = s.mem.store q.buf data ∧
          t.env.ticks = ticks ∧ t.env.answers = rest) ∧
      (∀ last : Tick, s.cfg.tokenBudget ≤ (last - t0).toNat → bs.length = ts.length + 1 →
        s.env.ticks = gate :: t0 :: (ts ++ last :: ticks) → s.env.answers = reply d 0x00 ++ (bs ++ rest) →
        ∃ t, exec (.read q) s = .next t ∧ t.delivered = s.delivered ++ [1] ∧ t.mem = s.mem ∧
          t.env.ticks = ticks ∧ t.env.answers = rest) ∧
      ∀ b : Byte, s.cfg.tokenPollStop = .onNonIdle → b ≠ 0xFF → b ≠ 0xFE → bs.length = ts.length →
        s.env.ticks = gate :: t0 :: (ts ++ ticks) → s.env.answers = reply d 0x00 ++ (bs ++ b :: rest) →
        ∃ t, exec (.read q) s = .next t ∧ t.delivered = s.delivered ++ [1] ∧ t.mem = s.mem ∧
          t.env.ticks = ticks ∧ t.env.answers = rest
end

