-- ==== Sys2Proof/Laws/Proc.lean ====
section
/-! SUPPORT. How to reason about procedures: what one ends with (`Ends`: it ends, with this; `Partial`:
if it ends, with this), and what it keeps (`Keeps`), each with one rule per way to build a procedure. -/

namespace Sys2Proof.Machine

/-- A stop only an environment that does not keep 40_transport.md R108 (`F`) can bring about. -/
def Stop.Allowed (F : Prop) : Stop → Prop
  | .fault (.internalFault _) | .refuse _ => False
  | .fault .transportNeverIdle | .fault .waitNeverEnds => ¬F

/-- From `s`, `m` neither refuses nor meets an internal fault; if `F` holds (the environment keeps R108) it
ends; and where it ends it is with a value and a state that meet `Q`. -/
def Ends {α : Type} (F : Prop) (m : M α) (s : State) (Q : α → State → Prop) : Prop :=
  match m s with
  | .ok a t => Q a t
  | .error e _ => e.Allowed F

/-- From `s`, if `m` ends, it is with a value and a state that meet `Q`. -/
def Partial {α : Type} (m : M α) (s : State) (Q : α → State → Prop) : Prop := ∀ a t, m s = .ok a t → Q a t

/-- Whenever `m` ends, `R` relates where it began and where it ended. -/
def Keeps {α : Type} (R : State → State → Prop) (m : M α) : Prop := ∀ s, Partial m s fun _ t => R s t

section
variable {F : Prop} {α β : Type} {m : M α} {f : α → M β} {s t : State} {Q : α → State → Prop}

theorem bind_ok_iff {b : β} :
    (m >>= f) s = .ok b t ↔ ∃ a u, m s = .ok a u ∧ f a u = .ok b t := by
  show EStateM.bind m f s = _ ↔ _
  unfold EStateM.bind
  cases h : m s <;> simp

theorem Ends.ok {a : α} (h : m s = .ok a t) : Ends F m s Q ↔ Q a t := by simp [Ends, h]

@[simp] theorem ends_bind {Q : β → State → Prop} :
    Ends F (m >>= f) s Q ↔ Ends F m s fun a t => Ends F (f a) t Q := by
  show Ends F (EStateM.bind m f) s Q ↔ _
  unfold Ends EStateM.bind
  cases m s <;> rfl

@[simp] theorem partial_bind {Q : β → State → Prop} :
    Partial (m >>= f) s Q ↔ Partial m s fun a t => Partial (f a) t Q := by
  simp only [Partial, bind_ok_iff]
  constructor
  · intro h a u hm b t hf
    exact h b t ⟨a, u, hm, hf⟩
  · rintro h b t ⟨a, u, hm, hf⟩
    exact h a u hm b t hf

theorem pure_apply (a : α) : (pure a : M α) s = .ok a s := rfl

@[simp] theorem ends_pure {a : α} : Ends F (pure a) s Q ↔ Q a s := Iff.rfl

@[simp] theorem partial_pure {a : α} : Partial (pure a) s Q ↔ Q a s := by
  simp [Partial, pure_apply, EStateM.Result.ok.injEq]

@[simp] theorem ends_map {g : α → β} {Q : β → State → Prop} :
    Ends F (g <$> m) s Q ↔ Ends F m s fun a t => Q (g a) t := by
  rw [← bind_pure_comp]
  simp only [ends_bind, ends_pure]

@[simp] theorem partial_map {g : α → β} {Q : β → State → Prop} :
    Partial (g <$> m) s Q ↔ Partial m s fun a t => Q (g a) t := by
  rw [← bind_pure_comp]
  simp only [partial_bind, partial_pure]

@[simp] theorem ends_act {g : State → State} {Q : Unit → State → Prop} :
    Ends F (act g) s Q ↔ Q () (g s) := Iff.rfl

@[simp] theorem partial_act {g : State → State} {Q : Unit → State → Prop} :
    Partial (act g) s Q ↔ Q () (g s) :=
  ⟨fun h => h () (g s) rfl, fun h _ _ hm => by cases hm; exact h⟩

@[simp] theorem ends_look {g : State → α} : Ends F (look g) s Q ↔ Q (g s) s := Iff.rfl

@[simp] theorem partial_look {g : State → α} : Partial (look g) s Q ↔ Q (g s) s := by
  simp [Partial, look]

@[simp] theorem ends_param {g : Params → α} : Ends F (param g) s Q ↔ Q (g s.cfg) s := by simp [param]

@[simp] theorem partial_param {g : Params → α} : Partial (param g) s Q ↔ Q (g s.cfg) s := by simp [param]

@[simp] theorem ends_writeRegs {g : Regs → Regs} {Q : Unit → State → Prop} :
    Ends F (writeRegs g) s Q ↔ Q () { s with regs := g s.regs } := by
  simp [writeRegs]

@[simp] theorem partial_writeRegs {g : Regs → Regs} {Q : Unit → State → Prop} :
    Partial (writeRegs g) s Q ↔ Q () { s with regs := g s.regs } := by
  simp [writeRegs]

@[simp] theorem ends_setSeq {q : Seq} {Q : Unit → State → Prop} :
    Ends F (setSeq q) s Q ↔ Q () { s with seq := q } := by
  simp [setSeq]

@[simp] theorem partial_setSeq {q : Seq} {Q : Unit → State → Prop} :
    Partial (setSeq q) s Q ↔ Q () { s with seq := q } := by
  simp [setSeq]

@[simp] theorem ends_emit {e : Event} {Q : Unit → State → Prop} :
    Ends F (emit e) s Q ↔ Q () { s with wire := s.wire ++ [e] } := by
  simp [emit]

@[simp] theorem partial_emit {e : Event} {Q : Unit → State → Prop} :
    Partial (emit e) s Q ↔ Q () { s with wire := s.wire ++ [e] } := by
  simp [emit]

/-- A register read ends exactly when the register holds a value. -/
@[simp] theorem ends_readReg {g : Regs → Option α} :
    Ends F (readReg g) s Q ↔ ∃ a, g s.regs = some a ∧ Q a s := by
  unfold Ends readReg
  cases h : g s.regs <;> simp [Stop.Allowed]

@[simp] theorem partial_readReg {g : Regs → Option α} :
    Partial (readReg g) s Q ↔ ∀ a, g s.regs = some a → Q a s := by
  unfold Partial readReg
  cases h : g s.regs <;> simp

@[simp] theorem partial_faultWith {x : Fault} : Partial (faultWith x : M α) s Q ↔ True := by
  simp [Partial, faultWith]

@[simp] theorem ends_ite {c : Prop} [Decidable c] {m' : M α} :
    Ends F (if c then m else m') s Q ↔ (c → Ends F m s Q) ∧ (¬c → Ends F m' s Q) := by
  by_cases h : c <;> simp [h]

@[simp] theorem partial_ite {c : Prop} [Decidable c] {m' : M α} :
    Partial (if c then m else m') s Q ↔ (c → Partial m s Q) ∧ (¬c → Partial m' s Q) := by
  by_cases h : c <;> simp [h]

theorem Ends.mono {Q' : α → State → Prop} (h : Ends F m s Q) (hq : ∀ a t, Q a t → Q' a t) : Ends F m s Q' := by
  unfold Ends at *
  cases hm : m s <;> simp_all

theorem Partial.mono {Q' : α → State → Prop} (h : Partial m s Q) (hq : ∀ a t, Q a t → Q' a t) :
    Partial m s Q' :=
  fun a t hm => hq a t (h a t hm)

/-- What ends, ends with what it can only end with. -/
theorem Ends.and {Q' : α → State → Prop} (h : Ends F m s Q) (h' : Partial m s Q') :
    Ends F m s fun a t => Q a t ∧ Q' a t := by
  unfold Ends at *
  cases hm : m s with
  | ok a t => rw [hm] at h; exact ⟨h, h' a t hm⟩
  | error e t => rw [hm] at h; exact h

theorem Partial.and {Q' : α → State → Prop} (h : Partial m s Q) (h' : Partial m s Q') :
    Partial m s fun a t => Q a t ∧ Q' a t :=
  fun a t hm => ⟨h a t hm, h' a t hm⟩

theorem Ends.partial (h : Ends F m s Q) : Partial m s Q := fun _ _ hm => (Ends.ok hm).mp h

/-- Under the assumptions of 40_transport.md R108 it ends. -/
theorem Ends.exists (h : Ends F m s Q) (hF : F) : ∃ a t, m s = .ok a t ∧ Q a t := by
  unfold Ends at h
  cases hm : m s with
  | ok a t => rw [hm] at h; exact ⟨a, t, rfl, h⟩
  | error e t =>
    rw [hm] at h
    rcases e with (_ | _ | _) | _ <;> exact absurd hF (by first | exact h | exact h.elim)

/-- It meets no internal fault. -/
theorem Ends.no_internalFault (h : Ends F m s Q) (c : InternalCause) (u : State) :
    m s ≠ .error (.fault (.internalFault c)) u := by
  intro hm
  unfold Ends at h
  rw [hm] at h
  exact h

/-- Two facts about what it ends with. -/
theorem Ends.both {Q' : α → State → Prop} (h : Ends F m s Q) (h' : Ends F m s Q') :
    Ends F m s fun a t => Q a t ∧ Q' a t := h.and h'.partial

theorem partial_true : Partial m s fun _ _ => True := fun _ _ _ => trivial

/-- `Keeps` of a sequence, for a relation that composes. -/
theorem Keeps.bind {R : State → State → Prop} (trans : ∀ {s t u}, R s t → R t u → R s u) (hm : Keeps R m)
    (hf : ∀ a, Keeps R (f a)) : Keeps R (m >>= f) := by
  intro s b u h
  obtain ⟨a, t, h1, h2⟩ := bind_ok_iff.mp h
  exact trans (hm s a t h1) (hf a t b u h2)

end

/-! Outcomes. -/

/-- An instruction answers a next state exactly when its procedure ends. -/
theorem run_eq_next_iff {m : M Unit} {s t : State} : run m s = .next t ↔ m s = .ok () t := by
  unfold run
  split <;> simp_all

theorem run_next_of_ends {m : M Unit} {s : State} {Q : Unit → State → Prop} (h : Ends True m s Q) :
    ∃ t, run m s = .next t ∧ Q () t :=
  let ⟨_, t, hm, hq⟩ := h.exists trivial
  ⟨t, run_eq_next_iff.mpr hm, hq⟩

/-- It meets no internal fault. -/
theorem run_no_internalFault {F : Prop} {m : M Unit} {s : State} {Q : Unit → State → Prop} (h : Ends F m s Q)
    (c : InternalCause) : run m s ≠ .fault (.internalFault c) := by
  unfold Ends at h
  unfold run
  split
  · nofun
  · rename_i hm
    rw [hm] at h
    rintro ⟨⟩
    exact h
  · nofun

theorem of_run_next {m : M Unit} {s t : State} {Q : Unit → State → Prop} (h : run m s = .next t)
    (hp : Partial m s Q) : Q () t :=
  hp () t (run_eq_next_iff.mp h)

end Sys2Proof.Machine
end

