-- ==== Sys2Proof/Laws/State.lean ====
section
/-! SUPPORT. One lemma per field per named update. -/

namespace Sys2Proof.Machine

section
variable (e : Env)

@[simp] theorem Env.afterXchg_answers : e.afterXchg.answers = e.answers.tail := rfl
@[simp] theorem Env.afterXchg_ticks : e.afterXchg.ticks = e.ticks := rfl
@[simp] theorem Env.afterXchg_nAnswer : e.afterXchg.nAnswer = e.nAnswer + 1 := rfl
@[simp] theorem Env.afterXchg_nTick : e.afterXchg.nTick = e.nTick := rfl
@[simp] theorem Env.afterXchg_transport : e.afterXchg.transport = e.transport.map (· - 1) := rfl
@[simp] theorem Env.afterXchg_tickFair : e.afterXchg.tickFair = e.tickFair := rfl
@[simp] theorem Env.afterTick_answers : e.afterTick.answers = e.answers := rfl
@[simp] theorem Env.afterTick_ticks : e.afterTick.ticks = e.ticks.tail := rfl
@[simp] theorem Env.afterTick_nAnswer : e.afterTick.nAnswer = e.nAnswer := rfl
@[simp] theorem Env.afterTick_nTick : e.afterTick.nTick = e.nTick + 1 := rfl
@[simp] theorem Env.afterTick_transport : e.afterTick.transport = e.transport := rfl
@[simp] theorem Env.afterTick_tickFair : e.afterTick.tickFair = e.tickFair := rfl

/-- A scripted answer is the card's answer. -/
theorem Env.answer_cons {b : Byte} {l : List Byte} (h : e.answers = b :: l) : e.answer = b := by
  simp [Env.answer, h]

/-- A scripted tick is the tick read. -/
theorem Env.tick_cons {t : Tick} {l : List Tick} (h : e.ticks = t :: l) : e.tick = t := by
  simp [Env.tick, h]

end

section
variable (s : State) (tx : Byte)

@[simp] theorem State.exchanged_version : (s.exchanged tx).version = s.version := rfl
@[simp] theorem State.exchanged_status : (s.exchanged tx).status = s.status := rfl
@[simp] theorem State.exchanged_cs : (s.exchanged tx).cs = s.cs := rfl
@[simp] theorem State.exchanged_speed : (s.exchanged tx).speed = s.speed := rfl
@[simp] theorem State.exchanged_busy : (s.exchanged tx).busy = s.busy := rfl
@[simp] theorem State.exchanged_seq : (s.exchanged tx).seq = s.seq := rfl
@[simp] theorem State.exchanged_regs : (s.exchanged tx).regs = s.regs := rfl
@[simp] theorem State.exchanged_mem : (s.exchanged tx).mem = s.mem := rfl
@[simp] theorem State.exchanged_regions : (s.exchanged tx).regions = s.regions := rfl
@[simp] theorem State.exchanged_cfg : (s.exchanged tx).cfg = s.cfg := rfl
@[simp] theorem State.exchanged_inbox : (s.exchanged tx).inbox = s.inbox := rfl
@[simp] theorem State.exchanged_env : (s.exchanged tx).env = s.env.afterXchg := rfl
@[simp] theorem State.exchanged_wire :
    (s.exchanged tx).wire = s.wire ++ [.xchg tx s.env.answer] := rfl
@[simp] theorem State.exchanged_delivered : (s.exchanged tx).delivered = s.delivered := rfl
@[simp] theorem State.exchanged_ret : (s.exchanged tx).ret = s.ret := rfl

end

section
variable (s : State) (op : Byte) (q : ReqArgs) (r : Byte)

@[simp] theorem State.answered_version : (s.answered op q r).version = s.version := rfl
@[simp] theorem State.answered_status : (s.answered op q r).status = s.status := rfl
@[simp] theorem State.answered_cs : (s.answered op q r).cs = s.cs := rfl
@[simp] theorem State.answered_speed : (s.answered op q r).speed = s.speed := rfl
@[simp] theorem State.answered_busy : (s.answered op q r).busy = s.busy := rfl
@[simp] theorem State.answered_seq : (s.answered op q r).seq = .idle := rfl
@[simp] theorem State.answered_regs :
    (s.answered op q r).regs = { Regs.latched op q with result := some r } := rfl
@[simp] theorem State.answered_mem : (s.answered op q r).mem = s.mem := rfl
@[simp] theorem State.answered_regions : (s.answered op q r).regions = s.regions := rfl
@[simp] theorem State.answered_cfg : (s.answered op q r).cfg = s.cfg := rfl
@[simp] theorem State.answered_inbox : (s.answered op q r).inbox = s.inbox := rfl
@[simp] theorem State.answered_env : (s.answered op q r).env = s.env := rfl
@[simp] theorem State.answered_wire : (s.answered op q r).wire = s.wire := rfl
@[simp] theorem State.answered_delivered : (s.answered op q r).delivered = s.delivered ++ [r] := rfl
@[simp] theorem State.answered_ret : (s.answered op q r).ret = s.ret := rfl

end

section
variable (s : State) (nbits w : Nat)

@[simp] theorem State.withFetchWord_inbox :
    (s.withFetchWord nbits w).inbox = .submit (tableCode nbits w) :: s.inbox := rfl
@[simp] theorem State.withFetchWord_busy : (s.withFetchWord nbits w).busy = s.busy := rfl
@[simp] theorem State.withFetchWord_cfg : (s.withFetchWord nbits w).cfg = s.cfg := rfl
@[simp] theorem State.withFetchWord_env : (s.withFetchWord nbits w).env = s.env := rfl
@[simp] theorem State.withFetchWord_regs : (s.withFetchWord nbits w).regs = s.regs := rfl
@[simp] theorem State.withFetchWord_mem : (s.withFetchWord nbits w).mem = s.mem := rfl

/-- The next word fetched is the one stored. -/
theorem fetch_withFetchWord : fetch (s.withFetchWord nbits w) = .word (tableCode nbits w) s := rfl

end

section
variable (op : Byte) (q : ReqArgs)

@[simp] theorem Regs.latched_reqOp : (Regs.latched op q).reqOp = some op := rfl
@[simp] theorem Regs.latched_reqUnit : (Regs.latched op q).reqUnit = some q.unit := rfl
@[simp] theorem Regs.latched_reqBuf : (Regs.latched op q).reqBuf = some q.buf := rfl
@[simp] theorem Regs.latched_reqSector : (Regs.latched op q).reqSector = some q.sector := rfl
@[simp] theorem Regs.latched_reqCount : (Regs.latched op q).reqCount = some q.count := rfl

end

end Sys2Proof.Machine
end

