-- ==== Sys2Proof/Laws/Transport.lean ====
section
/-! SUPPORT. What the card port, the tick port and the bounded waits can do. -/

namespace Sys2Proof.Machine

/-- What everything below the sector sequences can do: draws and exchanges, and register writes of which
`g` says the extent (`g old new` is `new` with those registers put back to `old`). -/
structure CardStep (g : Regs → Regs → Regs) (s t : State) : Prop where
  same : t = { s with
    env := t.env
    wire := t.wire
    regs := t.regs }
  regs : g s.regs t.regs = s.regs
  transport : s.env.transport = none → t.env.transport = none
  ticks : t.env.tickFair = s.env.tickFair
  wire : ∃ l, t.wire = s.wire ++ l ∧ ∀ e ∈ l, e.isXchg = true

/-- Putting registers back once is enough. -/
structure Restores (g : Regs → Regs → Regs) : Prop where
  refl : ∀ a, g a a = a
  last : ∀ a b c, g a (g b c) = g a c

/-- The tick register put back. -/
def Regs.waitRestored (old new : Regs) : Regs := { new with t0 := old.t0 }

theorem restores_wait : Restores Regs.waitRestored := ⟨fun _ => rfl, fun _ _ _ => rfl⟩
theorem restores_framer : Restores Regs.framerRestored := ⟨fun _ => rfl, fun _ _ _ => rfl⟩
theorem restores_block : Restores Regs.blockRestored := ⟨fun _ => rfl, fun _ _ _ => rfl⟩
theorem restores_sector : Restores Regs.sectorRestored := ⟨fun _ => rfl, fun _ _ _ => rfl⟩
theorem restores_negotiation : Restores Regs.negotiationRestored := ⟨fun _ => rfl, fun _ _ _ => rfl⟩

/-- No restriction on the registers written. -/
def Regs.anyRestored (old _new : Regs) : Regs := old

theorem restores_any : Restores Regs.anyRestored := ⟨fun _ => rfl, fun _ _ _ => rfl⟩

section
variable {g g' : Regs → Regs → Regs} {s t u : State}

theorem CardStep.refl (hg : Restores g) (s : State) : CardStep g s s :=
  ⟨rfl, hg.refl _, id, rfl, [], by simp, by simp⟩

theorem CardStep.trans (hg : Restores g) (h : CardStep g s t) (h' : CardStep g t u) : CardStep g s u where
  same := by rw [h'.same, h.same]
  regs := by rw [← hg.last s.regs t.regs, h'.regs, h.regs]
  transport := h'.transport ∘ h.transport
  ticks := h'.ticks.trans h.ticks
  wire := by
    obtain ⟨l, hl, hx⟩ := h.wire
    obtain ⟨l', hl', hx'⟩ := h'.wire
    refine ⟨l ++ l', by rw [hl', hl, List.append_assoc], fun e he => ?_⟩
    rcases List.mem_append.mp he with he | he
    · exact hx e he
    · exact hx' e he

theorem CardStep.weaken (hg : ∀ a b, g a b = a → g' a b = a) (h : CardStep g s t) : CardStep g' s t :=
  ⟨h.same, hg _ _ h.regs, h.transport, h.ticks, h.wire⟩

theorem Keeps.weaken {α : Type} {m : M α} (hg : ∀ a b, g a b = a → g' a b = a)
    (h : Keeps (CardStep g) m) : Keeps (CardStep g') m :=
  fun s a t hm => (h s a t hm).weaken hg

theorem CardStep.cfg (h : CardStep g s t) : t.cfg = s.cfg := by rw [h.same]
theorem CardStep.seq (h : CardStep g s t) : t.seq = s.seq := by rw [h.same]
theorem CardStep.mem (h : CardStep g s t) : t.mem = s.mem := by rw [h.same]
theorem CardStep.cs (h : CardStep g s t) : t.cs = s.cs := by rw [h.same]
theorem CardStep.speed (h : CardStep g s t) : t.speed = s.speed := by rw [h.same]
theorem CardStep.busy (h : CardStep g s t) : t.busy = s.busy := by rw [h.same]
theorem CardStep.status (h : CardStep g s t) : t.status = s.status := by rw [h.same]
theorem CardStep.version (h : CardStep g s t) : t.version = s.version := by rw [h.same]
theorem CardStep.delivered (h : CardStep g s t) : t.delivered = s.delivered := by rw [h.same]
theorem CardStep.inbox (h : CardStep g s t) : t.inbox = s.inbox := by rw [h.same]
theorem CardStep.regions (h : CardStep g s t) : t.regions = s.regions := by rw [h.same]

/-- A ready wait writes `t0` only. -/
theorem CardStep.wait_same (h : CardStep Regs.waitRestored s t) : t.regs = { s.regs with t0 := t.regs.t0 } := by
  have h' := h.regs
  rw [← h']
  rfl

/-- A card step keeps the assumptions of 40_transport.md R108. -/
theorem CardStep.fair {F : Prop} (h : CardStep g s t) (hs : F → s.Fair) : F → t.Fair := fun hF =>
  ⟨h.transport (hs hF).transport, h.ticks.trans (hs hF).ticks, by rw [h.cfg]; exact (hs hF).ready,
    by rw [h.cfg]; exact (hs hF).token⟩

end

/-- `Fair` looks at the environment and the parameters only. -/
theorem State.Fair.same {s t : State} (h : s.Fair) (he : t.env = s.env) (hc : t.cfg = s.cfg) : t.Fair :=
  ⟨he ▸ h.transport, he ▸ h.ticks, hc ▸ h.ready, hc ▸ h.token⟩

theorem fair_same {F : Prop} {s t : State} (h : F → s.Fair) (he : t.env = s.env) (hc : t.cfg = s.cfg) : F → t.Fair :=
  fun hF => (h hF).same he hc

theorem fair_exchanged {F : Prop} {s : State} (h : F → s.Fair) (tx : Byte) : F → (s.exchanged tx).Fair :=
  fun hF => ⟨by simp [(h hF).transport], (h hF).ticks, (h hF).ready, (h hF).token⟩

theorem open_of_fair {F : Prop} {s : State} (h : F → s.Fair) : F → s.env.transport = none :=
  fun hF => (h hF).transport

theorem wait_framer (a b : Regs) (h : a.waitRestored b = a) : a.framerRestored b = a := by
  have : a.framerRestored b = a.framerRestored (a.waitRestored b) := rfl
  rw [this, h]
  rfl

theorem wait_block (a b : Regs) (h : a.waitRestored b = a) : a.blockRestored b = a := by
  have : a.blockRestored b = a.blockRestored (a.waitRestored b) := rfl
  rw [this, h]
  rfl

theorem framer_sector (a b : Regs) (h : a.framerRestored b = a) : a.sectorRestored b = a := by
  have : a.sectorRestored b = a.sectorRestored (a.framerRestored b) := rfl
  rw [this, h]
  rfl

theorem block_sector (a b : Regs) (h : a.blockRestored b = a) : a.sectorRestored b = a := by
  have : a.sectorRestored b = a.sectorRestored (a.blockRestored b) := rfl
  rw [this, h]
  rfl

theorem wait_sector (a b : Regs) (h : a.waitRestored b = a) : a.sectorRestored b = a :=
  framer_sector a b (wait_framer a b h)

theorem framer_negotiation (a b : Regs) (h : a.framerRestored b = a) : a.negotiationRestored b = a := by
  have : a.negotiationRestored b = a.negotiationRestored (a.framerRestored b) := rfl
  rw [this, h]
  rfl

theorem any_of {g : Regs → Regs → Regs} (a b : Regs) (_ : g a b = a) : a.anyRestored b = a := rfl

section
variable {F : Prop} {α β : Type} {g : Regs → Regs → Regs} {m m' : M α} {f : α → M β} {tx : Byte} {s : State}
  {Q : Byte → State → Prop}

/-! One exchange. -/

theorem open_exchanged (h : F → s.env.transport = none) : F → (s.exchanged tx).env.transport = none :=
  fun hF => by simp [h hF]

theorem ends_xchg (h : F → s.env.transport = none) (hq : Q s.env.answer (s.exchanged tx)) :
    Ends F (xchg tx) s Q := by
  unfold Ends xchg
  split
  · rename_i e a h'
    split at h'
    · cases h'
    · cases h'
      exact hq
  · rename_i e a h'
    split at h'
    · rename_i h0
      cases h'
      exact fun hF => by simp [h hF] at h0
    · cases h'

theorem partial_xchg : (Q s.env.answer (s.exchanged tx)) → Partial (xchg tx) s Q := by
  intro hq b t h
  unfold xchg at h
  split at h
  · cases h
  · cases h
    exact hq

theorem ends_rx (h : F → s.env.transport = none) (hq : Q s.env.answer (s.exchanged 0xFF)) : Ends F rx s Q :=
  ends_xchg h hq

theorem partial_rx : (Q s.env.answer (s.exchanged 0xFF)) → Partial rx s Q := partial_xchg

@[simp] theorem ends_tickNow {Q : Tick → State → Prop} :
    Ends F tickNow s Q ↔ Q s.env.tick { s with env := s.env.afterTick } := Iff.rfl

@[simp] theorem partial_tickNow {Q : Tick → State → Prop} :
    Partial tickNow s Q ↔ Q s.env.tick { s with env := s.env.afterTick } := by
  simp [Partial, tickNow]

theorem ends_lastTick {budget : Nat} {Q : Unit → State → Prop}
    (h : F → s.env.tickFair = true ∧ budget < 2 ^ 32) (hq : Q () { s with env := s.env.afterTick }) :
    Ends F (lastTick budget) s Q := by
  unfold Ends lastTick
  by_cases h' : s.env.tickFair = true ∧ budget < 2 ^ 32
  · simpa only [if_pos h'] using hq
  · simp only [if_neg h']
    exact fun hF => h' (h hF)

/-! What keeps `CardStep`. -/

theorem keeps_pure (hg : Restores g) (a : α) : Keeps (CardStep g) (pure a : M α) := by
  intro s
  simpa using CardStep.refl hg s

theorem keeps_bind (hg : Restores g) (hm : Keeps (CardStep g) m) (hf : ∀ a, Keeps (CardStep g) (f a)) :
    Keeps (CardStep g) (m >>= f) :=
  Keeps.bind (fun h h' => CardStep.trans hg h h') hm hf

theorem keeps_ite {R : State → State → Prop} {c : Prop} [Decidable c] (h : Keeps R m) (h' : Keeps R m') :
    Keeps R (if c then m else m') := by
  by_cases hc : c <;> simpa [hc]

theorem keeps_look (hg : Restores g) (h : State → α) : Keeps (CardStep g) (look h) := by
  intro s
  simpa using CardStep.refl hg s

theorem keeps_param (hg : Restores g) (h : Params → α) : Keeps (CardStep g) (param h) := keeps_look hg _

theorem keeps_readReg (hg : Restores g) (h : Regs → Option α) : Keeps (CardStep g) (readReg h) := by
  intro s
  simpa using fun _ _ => CardStep.refl hg s

theorem keeps_writeRegs {w : Regs → Regs} (hw : ∀ r, g r (w r) = r) : Keeps (CardStep g) (writeRegs w) := by
  intro s
  simpa using ⟨rfl, hw _, id, rfl, [], by simp, by simp⟩

theorem keeps_xchg (hg : Restores g) (tx : Byte) : Keeps (CardStep g) (xchg tx) := fun s =>
  partial_xchg
    ⟨rfl, hg.refl _, fun h => by simp [h], rfl, [.xchg tx s.env.answer], rfl, by simp [Event.isXchg]⟩

theorem keeps_rx (hg : Restores g) : Keeps (CardStep g) rx := keeps_xchg hg _

theorem keeps_tickNow (hg : Restores g) : Keeps (CardStep g) tickNow := by
  intro s
  simpa using ⟨rfl, hg.refl _, id, rfl, [], by simp, by simp⟩

theorem keeps_expired (hg : Restores g) (t0 : Tick) (budget : Nat) : Keeps (CardStep g) (expired t0 budget) :=
  keeps_bind hg (keeps_tickNow hg) fun _ => keeps_pure hg _

theorem keeps_lastTick (hg : Restores g) (budget : Nat) : Keeps (CardStep g) (lastTick budget) := by
  intro s a t h
  unfold lastTick at h
  split at h
  · cases h
    exact ⟨rfl, hg.refl _, id, rfl, [], by simp, by simp⟩
  · cases h

theorem keeps_answerNext (hg : Restores g) (b : Byte) : Keeps (CardStep g) (answerNext b) := by
  intro s
  simpa [answerNext] using ⟨rfl, hg.refl _, id, rfl, [], by simp, by simp⟩

theorem keeps_pollOnce (hg : Restores g) {judge : Byte → M (Option Bool)} {goOn : M Bool}
    (hj : ∀ b, Keeps (CardStep g) (judge b)) (hn : Keeps (CardStep g) goOn) :
    Keeps (CardStep g) (pollOnce judge goOn) := by
  refine keeps_bind hg (keeps_rx hg) fun b => keeps_bind hg (hj b) fun v => ?_
  cases v with
  | none => exact hn
  | some r => exact keeps_pure hg r

theorem keeps_afterPoll (hg : Restores g) {judge : Byte → M (Option Bool)}
    (hj : ∀ b, Keeps (CardStep g) (judge b)) (budget : Nat) (t0 : Tick) (n : Nat) :
    Keeps (CardStep g) (afterPoll budget t0 judge n) := by
  induction n with
  | zero => exact keeps_bind hg (keeps_lastTick hg budget) fun _ => keeps_pure hg _
  | succ n ih =>
    exact keeps_bind hg (keeps_expired hg t0 budget) fun _ =>
      keeps_ite (keeps_pure hg _) (keeps_pollOnce hg hj ih)

theorem keeps_pollWait (hg : Restores g) {judge : Byte → M (Option Bool)}
    (hj : ∀ b, Keeps (CardStep g) (judge b)) (budget : Nat) (t0 : Tick) :
    Keeps (CardStep g) (pollWait budget t0 judge) :=
  keeps_bind hg (keeps_look hg _) fun n => keeps_pollOnce hg hj (keeps_afterPoll hg hj budget t0 n)

/-- A ready wait draws, exchanges and writes `t0`; nothing else. -/
theorem keeps_waitReady : Keeps (CardStep Regs.waitRestored) waitReady :=
  have hg := restores_wait
  keeps_bind hg (keeps_tickNow hg) fun _ =>
    keeps_bind hg (keeps_writeRegs fun _ => rfl) fun _ =>
      keeps_bind hg (keeps_param hg _) fun _ => keeps_pollWait hg (fun _ => keeps_pure hg _) _ _

theorem keeps_sendBytes (hg : Restores g) (l : List Byte) : Keeps (CardStep g) (sendBytes l) := by
  induction l with
  | nil => exact keeps_pure hg _
  | cons b l ih => exact keeps_bind hg (keeps_xchg hg b) fun _ => ih

theorem keeps_receiveWord (hg : Restores g) : Keeps (CardStep g) receiveWord :=
  keeps_bind hg (keeps_rx hg) fun _ => keeps_bind hg (keeps_rx hg) fun _ =>
    keeps_bind hg (keeps_rx hg) fun _ => keeps_bind hg (keeps_rx hg) fun _ => keeps_pure hg _

/-! The waits end when the environment keeps 40_transport.md R108. -/

/-- A judge that always gives its verdict. -/
def Judges (judge : Byte → M (Option Bool)) : Prop := ∀ b s, Ends True (judge b) s fun _ _ => True

theorem Ends.weaken (h : Ends True m s fun _ _ => True) : Ends F m s fun _ _ => True := by
  obtain ⟨a, t, hm, -⟩ := h.exists trivial
  exact (Ends.ok hm).mpr trivial

theorem ends_pollOnce {judge : Byte → M (Option Bool)} {goOn : M Bool}
    (hj : Judges judge) (hk : ∀ b, Keeps (CardStep Regs.anyRestored) (judge b))
    (hn : ∀ t, CardStep Regs.anyRestored s t → Ends F goOn t fun _ _ => True)
    (h : F → s.env.transport = none) : Ends F (pollOnce judge goOn) s fun _ _ => True := by
  have hg := restores_any
  simp only [pollOnce, ends_bind]
  refine ends_rx h ?_
  refine ((hj _ _).weaken.and (hk _ _)).mono fun v t hv => ?_
  cases v with
  | none =>
    refine hn t (CardStep.trans hg ?_ hv.2)
    exact ⟨rfl, rfl, fun h => by simp [h], rfl, [.xchg 0xFF s.env.answer], rfl, by simp [Event.isXchg]⟩
  | some r => exact trivial

theorem ends_afterPoll {judge : Byte → M (Option Bool)} (hj : Judges judge)
    (hk : ∀ b, Keeps (CardStep Regs.anyRestored) (judge b)) {budget : Nat} (hb : F → budget < 2 ^ 32)
    (t0 : Tick) (n : Nat) (hs : F → s.env.transport = none) (ht : F → s.env.tickFair = true) :
    Ends F (afterPoll budget t0 judge n) s fun _ _ => True := by
  induction n generalizing s with
  | zero =>
    simp only [afterPoll, ends_bind]
    exact ends_lastTick (fun hF => ⟨ht hF, hb hF⟩) trivial
  | succ n ih =>
    simp only [afterPoll, ends_bind, expired, ends_tickNow, ends_pure, ends_ite]
    refine ⟨fun _ => trivial, fun _ => ends_pollOnce hj hk (fun t st => ?_) hs⟩
    exact ih (st.transport ∘ hs) (fun hF => st.ticks.trans (ht hF))

theorem ends_pollWait {judge : Byte → M (Option Bool)} (hj : Judges judge)
    (hk : ∀ b, Keeps (CardStep Regs.anyRestored) (judge b)) {budget : Nat} (hb : F → budget < 2 ^ 32)
    (t0 : Tick) (hs : F → s.env.transport = none) (ht : F → s.env.tickFair = true) :
    Ends F (pollWait budget t0 judge) s fun _ _ => True := by
  simp only [pollWait, ends_bind, ends_look]
  exact ends_pollOnce hj hk (fun t st =>
    ends_afterPoll hj hk hb t0 _ (st.transport ∘ hs) (fun hF => st.ticks.trans (ht hF))) hs

/-- A ready wait ends, ready or not (40_transport.md R102, R108). -/
theorem ends_waitReady (hs : F → s.Fair) : Ends F waitReady s fun _ _ => True := by
  simp only [waitReady, ends_bind, ends_tickNow, ends_writeRegs, ends_param]
  exact ends_pollWait (fun b s => ends_pure.mpr trivial) (fun b => keeps_pure restores_any _) (fun hF => (hs hF).ready) _
    (fun hF => (hs hF).transport) (fun hF => (hs hF).ticks)

/-! What a ready wait puts on the wire. -/

/-- The bytes of a ready wait: idle exchanges only, and `0xFF` ends it at once (R102). -/
def WaitWire (s : State) (r : Bool) (t : State) : Prop :=
  ∃ rxs last, t.wire = s.wire ++ idles (rxs ++ [last]) ∧ (∀ b ∈ rxs, b ≠ 0xFF) ∧ (r = true ↔ last = 0xFF)

theorem wire_pollOnce {goOn : M Bool}
    (hn : ∀ u : State, Partial goOn u fun r t =>
      (r = false ∧ t.wire = u.wire) ∨ WaitWire u r t) :
    Partial (pollOnce (fun b => pure (judgeReady b)) goOn) s fun r t => WaitWire s r t := by
  simp only [pollOnce, partial_bind, partial_pure]
  refine partial_rx ?_
  unfold judgeReady isReady
  by_cases h : s.env.answer = 0xFF
  · simp only [h, beq_self_eq_true, if_true, partial_pure]
    exact ⟨[], 0xFF, by simp [idles, h], by simp, by simp⟩
  · simp only [beq_iff_eq, h, if_false]
    refine (hn _).mono fun r t ht => ?_
    rcases ht with ⟨hr, hw⟩ | ⟨rxs, last, hw, hx, hr⟩
    · exact ⟨[], s.env.answer, by simp [hw, idles], by simp,
        fun h' => absurd (hr.symm.trans h') Bool.false_ne_true, fun h' => absurd h' h⟩
    · refine ⟨s.env.answer :: rxs, last, by simp [hw, idles], fun b hb => ?_, hr⟩
      rcases List.mem_cons.mp hb with rfl | hb
      · exact h
      · exact hx b hb

theorem wire_afterPoll {budget : Nat} {t0 : Tick} (n : Nat) (u : State) :
    Partial (afterPoll budget t0 (fun b => pure (judgeReady b)) n) u fun r t =>
      (r = false ∧ t.wire = u.wire) ∨ WaitWire u r t := by
  induction n generalizing u with
  | zero =>
    simp only [afterPoll, partial_bind, partial_pure]
    intro a t h
    unfold lastTick at h
    split at h
    · cases h
      exact .inl ⟨trivial, rfl⟩
    · cases h
  | succ n ih =>
    simp only [afterPoll, expired, partial_bind, partial_tickNow, partial_pure, partial_ite]
    refine ⟨fun _ => .inl ⟨trivial, trivial⟩, fun _ => ?_⟩
    exact (wire_pollOnce ih).mono fun r t h => .inr h

/-- A ready wait makes at least one exchange, each sending `0xFF`; it answers `true` exactly when the last
byte received is `0xFF`, and no byte before the last is (40_transport.md R102). -/
theorem wire_waitReady : Partial waitReady s fun r t => WaitWire s r t := by
  simp only [waitReady, pollWait, partial_bind, partial_tickNow, partial_writeRegs, partial_param,
    partial_look]
  exact wire_pollOnce (s := { s with env := s.env.afterTick, regs := _ }) fun u => wire_afterPoll _ u

theorem restores_all : Restores fun _ new => new := ⟨fun _ => rfl, fun _ _ _ => rfl⟩

/-- A ready wait writes the tick it began at and no other register (40_transport.md R102). -/
theorem waitReady_regs {t : State} {r : Bool} (h : waitReady s = .ok r t) :
    t.regs = { s.regs with t0 := some s.env.tick } := by
  have hk : Keeps (CardStep fun _ new => new)
      (param (·.readyBudget) >>= fun budget => pollWait budget s.env.tick fun b => pure (judgeReady b)) :=
    keeps_bind restores_all (keeps_param restores_all _) fun _ =>
      keeps_pollWait restores_all (fun _ => keeps_pure restores_all _) _ _
  exact (hk _ _ _ h).regs

/-! One poll and one expiry test of a ready wait, with the draws given (R102, R107). -/

theorem pollOnce_ready {goOn : M Bool} {l : List Byte} (ht : s.env.transport = none) (ha : s.env.answers = 0xFF :: l) :
    pollOnce (fun b => pure (judgeReady b)) goOn s = .ok true (s.exchanged 0xFF) := by
  simp [pollOnce, rx, xchg, bind, EStateM.bind, ht, Env.answer, ha, judgeReady, isReady, pure, EStateM.pure,
    Config.idleByte]

theorem pollOnce_busy {goOn : M Bool} {b : Byte} {l : List Byte} (ht : s.env.transport = none)
    (ha : s.env.answers = b :: l) (hb : b ≠ 0xFF) :
    pollOnce (fun b => pure (judgeReady b)) goOn s = goOn (s.exchanged 0xFF) := by
  have h : judgeReady b = none := by
    unfold judgeReady isReady
    rw [beq_eq_false_iff_ne.mpr hb]
    rfl
  simp [pollOnce, rx, xchg, bind, EStateM.bind, ht, Env.answer, ha, h, pure, EStateM.pure, Config.idleByte]

theorem afterPoll_goes_on {judge : Byte → M (Option Bool)} {t t0 : Tick} {l : List Tick} {budget n : Nat}
    (ha : s.env.ticks = t :: l) (hb : (t - t0).toNat < budget) : afterPoll budget t0 judge (n + 1) s =
      pollOnce judge (afterPoll budget t0 judge n) { s with env := s.env.afterTick } := by
  have h : budgetExpired t0 t budget = false := decide_eq_false (Nat.not_le.mpr hb)
  simp [afterPoll, expired, tickNow, bind, EStateM.bind, Env.tick, ha, h, pure, EStateM.pure]

theorem afterPoll_expired {judge : Byte → M (Option Bool)} {t t0 : Tick} {l : List Tick} {budget n : Nat}
    (ha : s.env.ticks = t :: l) (hb : budget ≤ (t - t0).toNat) :
    afterPoll budget t0 judge (n + 1) s = .ok false { s with env := s.env.afterTick } := by
  have h : budgetExpired t0 t budget = true := decide_eq_true hb
  simp [afterPoll, expired, tickNow, bind, EStateM.bind, Env.tick, ha, h, pure, EStateM.pure]

/-- A card that answers `0xFF` at once is ready after one exchange. -/
theorem waitReady_at_once (hs : s.env.transport = none) (h : s.env.answer = 0xFF) :
    waitReady s = .ok true
      ({ s with
          env := s.env.afterTick
          regs := { s.regs with t0 := some s.env.tick } }.exchanged 0xFF) := by
  have h' : Env.answer s.env.afterTick = 0xFF := h
  have h0 : s.env.afterTick.transport = none := hs
  simp only [waitReady, pollWait, pollOnce, tickNow, writeRegs, act, param, look, rx, xchg, bind, EStateM.bind, h0,
    h', judgeReady, isReady, Config.idleByte]
  rfl

end

end Sys2Proof.Machine
end

