-- ==== Sys2Proof/Laws/Command.lean ====
section
/-! SUPPORT. What the command framer can do. -/

namespace Sys2Proof.Machine

section
variable {F : Prop} {s : State}

/-- The registers written after a command's frame is latched, put back. -/
def Regs.phaseRestored (old new : Regs) : Regs :=
  { new with
    resp := old.resp
    tries := old.tries
    xtries := old.xtries
    ext := old.ext
    extOut := old.extOut
    t0 := old.t0 }

theorem restores_phase : Restores Regs.phaseRestored := ⟨fun _ => rfl, fun _ _ _ => rfl⟩

theorem wait_phase (a b : Regs) (h : a.waitRestored b = a) : a.phaseRestored b = a := by
  have : a.phaseRestored b = a.phaseRestored (a.waitRestored b) := rfl
  rw [this, h]
  rfl

theorem phase_framer (a b : Regs) (h : a.phaseRestored b = a) : a.framerRestored b = a := by
  have : a.framerRestored b = a.framerRestored (a.phaseRestored b) := rfl
  rw [this, h]
  rfl

theorem keeps_pollResponse (done k : Nat) : Keeps (CardStep Regs.phaseRestored) (pollResponse done k) := by
  have hg := restores_phase
  induction k generalizing done with
  | zero => exact keeps_pure hg _
  | succ k ih =>
    exact keeps_bind hg (keeps_rx hg) fun _ => keeps_bind hg (keeps_writeRegs fun _ => rfl) fun _ =>
      keeps_ite (ih _) (keeps_pure hg _)

theorem keeps_firstPoll (n : Nat) : Keeps (CardStep Regs.phaseRestored) (firstPoll n) :=
  keeps_bind restores_phase (keeps_writeRegs fun _ => rfl) fun _ => keeps_pollResponse 0 n

theorem keeps_extraPolls (r : Byte) (done k : Nat) :
    Keeps (CardStep Regs.phaseRestored) (extraPolls r done k) := by
  have hg := restores_phase
  induction k generalizing r done with
  | zero => exact keeps_pure hg _
  | succ k ih =>
    exact keeps_ite (keeps_pure hg _) (keeps_bind hg (keeps_rx hg) fun _ =>
      keeps_bind hg (keeps_writeRegs fun _ => rfl) fun _ => ih _ _)

theorem keeps_cmd0Polls : Keeps (CardStep Regs.phaseRestored) cmd0Polls :=
  have hg := restores_phase
  keeps_bind hg (keeps_readReg hg _) fun _ => keeps_bind hg (keeps_param hg _) fun _ =>
    keeps_ite (keeps_bind hg (keeps_writeRegs fun _ => rfl) fun _ => keeps_extraPolls _ _ _) (keeps_pure hg _)

theorem keeps_extraPhase (idx : BitVec 6) : Keeps (CardStep Regs.phaseRestored) (extraPhase idx) :=
  keeps_ite keeps_cmd0Polls (keeps_pure restores_phase _)

theorem keeps_readPayload : Keeps (CardStep Regs.phaseRestored) readPayload :=
  have hg := restores_phase
  keeps_bind hg (keeps_receiveWord hg) fun _ => keeps_bind hg (keeps_writeRegs fun _ => rfl) fun _ =>
    keeps_bind hg (keeps_readReg hg _) fun _ =>
      keeps_ite (keeps_bind hg (keeps_writeRegs fun _ => rfl) fun _ => keeps_readReg hg _) (keeps_pure hg _)

theorem keeps_transact (idx : BitVec 6) (arg : Word) (n : Nat) :
    Keeps (CardStep Regs.phaseRestored) (transact idx arg n) :=
  have hg := restores_phase
  keeps_bind hg (keeps_bind hg (keeps_readReg hg _) fun _ => keeps_sendBytes hg _) fun _ =>
    keeps_bind hg (keeps_firstPoll n) fun _ =>
      keeps_bind hg (keeps_extraPhase idx) fun _ =>
        keeps_ite keeps_readPayload (keeps_readReg hg _)

theorem keeps_readyGate (idx : BitVec 6) : Keeps (CardStep Regs.waitRestored) (readyGate idx) :=
  keeps_ite (keeps_pure restores_wait _) keeps_waitReady

/-- A command draws, exchanges and writes the framer's registers and `t0`; nothing else (41_command.md R120). -/
theorem keeps_sendCommand (idx : BitVec 6) (arg : Word) (n : Nat) (dest : Bool) :
    Keeps (CardStep Regs.framerRestored) (sendCommand idx arg n dest) :=
  have hg := restores_framer
  keeps_bind hg (keeps_writeRegs fun _ => rfl) fun _ =>
    keeps_bind hg ((keeps_readyGate idx).weaken wait_framer) fun _ =>
      keeps_ite ((keeps_transact _ _ _).weaken phase_framer) (keeps_pure hg _)

theorem keeps_command (idx : BitVec 6) (arg : Word) (dest : Bool) :
    Keeps (CardStep Regs.framerRestored) (command idx arg dest) :=
  keeps_bind restores_framer (keeps_param restores_framer _) fun _ => keeps_sendCommand _ _ _ _

/-- What a command latches stays (41_command.md R120). -/
theorem command_latched {t : State} {idx : BitVec 6} {arg : Word} {dest : Bool} {st : Byte}
    (h : command idx arg dest s = .ok st t) : t.regs.cmdIdx = some idx ∧ t.regs.cmdArg = some arg ∧
      t.regs.cmdCrc = some (crcByte idx) ∧ t.regs.extDest = some dest := by
  have hg := restores_phase
  have hk : Keeps (CardStep Regs.phaseRestored)
      (readyGate idx >>= fun ready => if ready then transact idx arg s.cfg.nResp else pure 0xFF) :=
    keeps_bind hg ((keeps_readyGate idx).weaken wait_phase) fun _ => keeps_ite (keeps_transact _ _ _) (keeps_pure hg _)
  have hr := (hk _ _ _ h).regs
  exact ⟨(congrArg Regs.cmdIdx hr :), (congrArg Regs.cmdArg hr :), (congrArg Regs.cmdCrc hr :), (congrArg Regs.extDest hr :)⟩

theorem keeps_cmd8 (dest : Bool) : Keeps (CardStep Regs.framerRestored) (cmd8 dest) :=
  keeps_bind restores_framer (keeps_param restores_framer _) fun _ => keeps_command _ _ _

theorem keeps_acmd41Hcs : Keeps (CardStep Regs.framerRestored) acmd41Hcs :=
  keeps_bind restores_framer (keeps_param restores_framer _) fun _ => keeps_command _ _ _

theorem keeps_pollAnswered (b : Byte) : Keeps (CardStep Regs.framerRestored) (pollAnswered b) :=
  have hg := restores_framer
  keeps_bind hg (keeps_answerNext hg b) fun _ => keeps_bind hg (keeps_param hg _) fun _ =>
    keeps_bind hg ((keeps_firstPoll _).weaken phase_framer) fun _ => keeps_readReg hg _

/-! A command ends when the environment keeps 40_transport.md R108. -/

theorem ends_sendBytes (l : List Byte) (hs : F → s.env.transport = none) :
    Ends F (sendBytes l) s fun _ t => (F → t.env.transport = none) ∧ t.regs = s.regs := by
  induction l generalizing s with
  | nil => exact ⟨hs, rfl⟩
  | cons b l ih =>
    simp only [sendBytes, ends_bind]
    exact ends_xchg hs ((ih (open_exchanged hs)).mono fun _ _ h => h)

theorem ends_receiveWord (hs : F → s.env.transport = none) :
    Ends F receiveWord s fun _ t => (F → t.env.transport = none) ∧ t.regs = s.regs := by
  simp only [receiveWord, ends_bind]
  have h1 := open_exchanged (tx := 0xFF) hs
  have h2 := open_exchanged (tx := 0xFF) h1
  have h3 := open_exchanged (tx := 0xFF) h2
  exact ends_rx hs (ends_rx h1 (ends_rx h2 (ends_rx h3 ⟨open_exchanged h3, rfl⟩)))

/-- What a poll leaves for what follows: a status, and the payload's destination as it was. -/
def Polled (F : Prop) (s t : State) : Prop :=
  (F → t.env.transport = none) ∧ (∃ b, t.regs.resp = some b) ∧ t.regs.extDest = s.regs.extDest

/-- The first poll loop leaves a status (R123). -/
theorem ends_pollResponse (done k : Nat) (hs : F → s.env.transport = none)
    (hr : k = 0 → ∃ b, s.regs.resp = some b) :
    Ends F (pollResponse done k) s fun _ t => Polled F s t := by
  induction k generalizing s done with
  | zero => exact ⟨hs, hr rfl, rfl⟩
  | succ k ih =>
    simp only [pollResponse, ends_bind]
    refine ends_rx hs ?_
    simp only [ends_writeRegs, ends_ite, ends_pure]
    refine ⟨fun _ => ?_, fun _ => ⟨open_exchanged (tx := 0xFF) hs, ⟨_, rfl⟩, rfl⟩⟩
    refine (ih _ ?_ fun _ => ?_).mono fun _ _ h => h
    · exact open_exchanged (tx := 0xFF) hs
    · exact ⟨_, rfl⟩

theorem ends_firstPoll {n : Nat} (hn : 1 ≤ n) (hs : F → s.env.transport = none) :
    Ends F (firstPoll n) s fun _ t => Polled F s t := by
  simp only [firstPoll, ends_bind, ends_writeRegs]
  exact ends_pollResponse 0 n hs fun h => by omega

theorem ends_extraPolls (r : Byte) (done k : Nat) (hs : F → s.env.transport = none)
    (hr : ∃ b, s.regs.resp = some b) :
    Ends F (extraPolls r done k) s fun _ t => Polled F s t := by
  induction k generalizing s r done with
  | zero => exact ⟨hs, hr, rfl⟩
  | succ k ih =>
    simp only [extraPolls, ends_ite, ends_pure, ends_bind]
    refine ⟨fun _ => ⟨hs, hr, rfl⟩, fun _ => ends_rx hs ?_⟩
    simp only [ends_writeRegs]
    refine (ih _ _ ?_ ?_).mono fun _ _ h => h
    · exact open_exchanged (tx := 0xFF) hs
    · exact ⟨_, rfl⟩

theorem ends_cmd0Polls (hs : F → s.env.transport = none) (hr : ∃ b, s.regs.resp = some b) :
    Ends F cmd0Polls s fun _ t => Polled F s t := by
  obtain ⟨b, hb⟩ := hr
  simp only [cmd0Polls, ends_bind, ends_readReg, ends_param, ends_ite, ends_writeRegs, ends_pure]
  exact ⟨b, hb, fun _ => ends_extraPolls _ _ _ hs ⟨b, hb⟩, fun _ => ⟨hs, ⟨b, hb⟩, rfl⟩⟩

theorem ends_extraPhase (idx : BitVec 6) (hs : F → s.env.transport = none) (hr : ∃ b, s.regs.resp = some b) :
    Ends F (extraPhase idx) s fun _ t => Polled F s t := by
  simp only [extraPhase, ends_ite, ends_pure]
  exact ⟨fun _ => ends_cmd0Polls hs hr, fun _ => ⟨hs, hr, rfl⟩⟩

/-- The payload's destination is written unless the busy sentinel is returned (R125). -/
theorem ends_readPayload (hs : F → s.env.transport = none) (hr : ∃ b, s.regs.resp = some b)
    (hd : ∃ d, s.regs.extDest = some d) :
    Ends F readPayload s fun st t => st ≠ 0xFF → ∃ e, t.regs.extOut = some e := by
  obtain ⟨b, hb⟩ := hr
  obtain ⟨d, hd⟩ := hd
  simp only [readPayload, ends_bind, ends_writeRegs, ends_readReg, ends_ite, ends_pure]
  refine (ends_receiveWord hs).mono fun e t ht => ?_
  refine ⟨d, by rw [ht.2]; exact hd, fun _ => ⟨b, by rw [ht.2]; exact hb, fun _ => ⟨_, rfl⟩⟩, fun _ h => absurd rfl h⟩

theorem ends_readyGate (idx : BitVec 6) (hs : F → s.Fair) :
    Ends F (readyGate idx) s fun _ t => CardStep Regs.waitRestored s t := by
  have h : Ends F (readyGate idx) s fun _ _ => True := by
    simp only [readyGate, ends_ite, ends_pure]
    exact ⟨fun _ => trivial, fun _ => ends_waitReady hs⟩
  exact (h.and (keeps_readyGate idx s)).mono fun _ _ h => h.2

/-- A command ends, and one with a payload has written its destination unless it answers the busy sentinel
(R126). -/
theorem ends_sendCommand (idx : BitVec 6) (arg : Word) {n : Nat} (hn : 1 ≤ n) (dest : Bool) (hs : F → s.Fair) :
    Ends F (sendCommand idx arg n dest) s fun st t =>
      hasPayload idx = true → st ≠ 0xFF → ∃ e, t.regs.extOut = some e := by
  simp only [sendCommand, latchCommand, ends_bind, ends_writeRegs]
  refine (ends_readyGate idx ?_).mono fun r t h => ?_
  · exact fair_same hs rfl rfl
  have ht : F → t.env.transport = none := fun hF => h.transport (hs hF).transport
  have hc : t.regs.cmdCrc = some (crcByte idx) := congrArg Regs.cmdCrc h.regs
  have hd : t.regs.extDest = some dest := congrArg Regs.extDest h.regs
  simp only [ends_ite, ends_pure, transact, sendFrame, ends_bind, ends_readReg]
  refine ⟨fun _ => ⟨_, hc, ?_⟩, fun _ _ h => absurd rfl h⟩
  refine (ends_sendBytes _ ht).mono fun _ u hu => ?_
  refine (ends_firstPoll hn hu.1).mono fun _ v hv => ?_
  have hvd : v.regs.extDest = some dest := by rw [hv.2.2, hu.2, hd]
  refine (ends_extraPhase idx hv.1 hv.2.1).mono fun _ w hw => ?_
  refine ⟨fun _ => (ends_readPayload hw.1 hw.2.1 ⟨_, hw.2.2.trans hvd⟩).mono fun _ _ h _ => h, fun hp => ?_⟩
  obtain ⟨b, hb⟩ := hw.2.1
  exact ⟨b, hb, fun h => absurd h hp⟩

/-- Legal parameters allow a poll. -/
theorem Params.one_le_nResp {p : Params} (h : p.ok = true) : 1 ≤ p.nResp := by
  simp only [Params.ok, Bool.and_eq_true, decide_eq_true_eq] at h
  exact h.1

theorem ends_command (idx : BitVec 6) (arg : Word) (dest : Bool) (hs : F → s.Fair) (hp : s.cfg.ok = true) :
    Ends F (command idx arg dest) s fun st t =>
      hasPayload idx = true → st ≠ 0xFF → ∃ e, t.regs.extOut = some e := by
  simp only [command, ends_bind, ends_param]
  exact ends_sendCommand idx arg (Params.one_le_nResp hp) dest hs

/-- A command ends, and has done no more than a command can. -/
theorem ends_command_and (idx : BitVec 6) (arg : Word) (dest : Bool) (hs : F → s.Fair) (hp : s.cfg.ok = true) :
    Ends F (command idx arg dest) s fun st t =>
      (hasPayload idx = true → st ≠ 0xFF → ∃ e, t.regs.extOut = some e) ∧ CardStep Regs.framerRestored s t :=
  (ends_command idx arg dest hs hp).and (keeps_command idx arg dest s)

end

end Sys2Proof.Machine
end

