-- ==== Sys2Proof/Laws/Memory.lean ====
section
/-! SUPPORT. Host memory: a read after a write, and the canonical form. -/

namespace Sys2Proof.Machine

namespace Memory

theorem wfFrom_mono {lo lo' : Nat} (h : lo ≤ lo') {m : Memory} (hm : wfFrom lo' m = true) :
    wfFrom lo m = true := by
  cases m with
  | nil => rfl
  | cons c m =>
    obtain ⟨k, v⟩ := c
    simp only [wfFrom, Bool.and_eq_true, decide_eq_true_eq] at hm ⊢
    exact ⟨⟨by omega, hm.1.2⟩, hm.2⟩

/-- Below the first address of the list nothing is listed. -/
theorem read_below {lo a : Nat} (h : a < lo) {m : Memory} (hm : wfFrom lo m = true) :
    Memory.read m a = unwrittenByte := by
  cases m with
  | nil => rfl
  | cons c m =>
    obtain ⟨k, v⟩ := c
    simp only [wfFrom, Bool.and_eq_true, decide_eq_true_eq] at hm
    simp [Memory.read, show a < k by omega]

theorem wfFrom_cons {lo a : Nat} (h : lo ≤ a) (b : Byte) {m : Memory} (hm : wfFrom (a + 1) m = true) :
    wfFrom lo (Memory.cons a b m) = true := by
  unfold Memory.cons
  split
  · exact wfFrom_mono (by omega) hm
  · simp_all [wfFrom]

theorem read_cons {a x : Nat} {b : Byte} {m : Memory} (hm : wfFrom (a + 1) m = true) :
    Memory.read (Memory.cons a b m) x = if x = a then b else if x < a then unwrittenByte else Memory.read m x := by
  unfold Memory.cons
  split
  · rename_i hb
    by_cases hx : x < a + 1
    · rw [read_below hx hm]
      split <;> simp_all
    · rw [if_neg (by omega), if_neg (by omega)]
  · simp only [Memory.read]
    by_cases h1 : x < a
    · rw [if_pos h1, if_neg (by omega), if_pos h1]
    · by_cases h2 : x = a <;> simp [h1, h2]

/-- A write keeps the canonical form. -/
theorem wfFrom_write {lo a : Nat} (h : lo ≤ a) (b : Byte) {m : Memory} (hm : wfFrom lo m = true) :
    wfFrom lo (Memory.write m a b) = true := by
  induction m generalizing lo with
  | nil => exact wfFrom_cons h b rfl
  | cons c m ih =>
    obtain ⟨k, v⟩ := c
    have hm' := hm
    simp only [wfFrom, Bool.and_eq_true, decide_eq_true_eq] at hm'
    obtain ⟨⟨hk, hv⟩, ht⟩ := hm'
    simp only [Memory.write]
    split
    · exact wfFrom_cons h b (by simp only [wfFrom, Bool.and_eq_true, decide_eq_true_eq]; exact ⟨⟨by omega, hv⟩, ht⟩)
    · split
      · rename_i hak
        subst hak
        exact wfFrom_cons h b ht
      · simp only [wfFrom, Bool.and_eq_true, decide_eq_true_eq]
        exact ⟨⟨hk, hv⟩, ih (by omega) ht⟩

theorem wf_write (a : Nat) (b : Byte) {m : Memory} (hm : m.wf = true) : (Memory.write m a b).wf = true :=
  wfFrom_write (Nat.zero_le a) b hm

/-- What a read gives after a write. -/
theorem read_write_from {lo a x : Nat} (b : Byte) {m : Memory} (hm : wfFrom lo m = true) :
    Memory.read (Memory.write m a b) x = if x = a then b else Memory.read m x := by
  induction m generalizing lo with
  | nil =>
    simp only [Memory.write]
    rw [read_cons rfl]
    simp [Memory.read]
  | cons c m ih =>
    obtain ⟨k, v⟩ := c
    have hm' := hm
    simp only [wfFrom, Bool.and_eq_true, decide_eq_true_eq] at hm'
    obtain ⟨⟨hk, hv⟩, ht⟩ := hm'
    simp only [Memory.write]
    split
    · rename_i hak
      rw [read_cons]
      · by_cases h1 : x = a
        · simp [h1]
        · by_cases h2 : x < a
          · simp [h1, h2, Memory.read, show x < k by omega]
          · simp [h1, h2]
      · simp only [wfFrom, Bool.and_eq_true, decide_eq_true_eq]
        exact ⟨⟨by omega, hv⟩, ht⟩
    · split
      · rename_i hak
        subst hak
        rw [read_cons ht]
        by_cases h1 : x = a
        · simp [h1]
        · simp [h1, Memory.read]
      · simp only [Memory.read, ih ht]
        by_cases h1 : x < k
        · simp [h1, show x ≠ a by omega]
        · by_cases h2 : x = k
          · subst h2
            rename_i h3 h4
            simp [Ne.symm h4]
          · simp [h1, h2]

theorem read_write {a x : Nat} (b : Byte) {m : Memory} (hm : m.wf = true) :
    Memory.read (Memory.write m a b) x = if x = a then b else Memory.read m x :=
  read_write_from b hm

/-- Another address reads as before, in any list. -/
theorem read_write_of_ne {a x : Nat} (h : x ≠ a) (b : Byte) {m : Memory} (hm : m.wf = true) :
    Memory.read (Memory.write m a b) x = Memory.read m x := by
  simp [read_write b hm, h]

end Memory

end Sys2Proof.Machine
end

