-- ==== Sys2Proof/Laws/Block.lean ====
section
/-! SUPPORT. What the block primitives and the sector sequences can do. -/

namespace Sys2Proof.Machine

/-- A relation between memories that composes. -/
structure MemRel (R : Memory → Memory → Prop) : Prop where
  refl (a : Memory) : R a a
  trans : ∀ {a b c}, R a b → R b c → R a c

/-- Memory is as before. -/
theorem memRel_eq : MemRel (fun a b => b = a) := ⟨fun _ => rfl, fun h h' => h'.trans h⟩

/-- Memory keeps its canonical form, and every byte outside `base .. base + n - 1` reads as before. -/
def StoresOnly (base n : Nat) (a b : Memory) : Prop :=
  a.wf = true → b.wf = true ∧ ∀ x, ¬(base ≤ x ∧ x < base + n) → b.read x = a.read x

theorem memRel_storesOnly (base n : Nat) : MemRel (StoresOnly base n) where
  refl _ h := ⟨h, fun _ _ => rfl⟩
  trans h h' ha := ⟨(h' (h ha).1).1, fun x hx => ((h' (h ha).1).2 x hx).trans ((h ha).2 x hx)⟩

/-- What the block primitives can do: as `CardStep`, and memory changes as `R` says. -/
structure BlockStep (g : Regs → Regs → Regs) (R : Memory → Memory → Prop) (s t : State) : Prop where
  same : t = { s with
    env := t.env
    wire := t.wire
    regs := t.regs
    mem := t.mem }
  regs : g s.regs t.regs = s.regs
  mem : R s.mem t.mem
  transport : s.env.transport = none → t.env.transport = none
  ticks : t.env.tickFair = s.env.tickFair
  wire : ∃ l, t.wire = s.wire ++ l ∧ ∀ e ∈ l, e.isXchg = true

/-- What the sector sequences can do: as the block primitives, and `seq`. -/
structure XferStep (g : Regs → Regs → Regs) (R : Memory → Memory → Prop) (s t : State) : Prop where
  same : t = { s with
    env := t.env
    wire := t.wire
    regs := t.regs
    mem := t.mem
    seq := t.seq }
  regs : g s.regs t.regs = s.regs
  seq : s.seq.unused = false → t.seq.unused = false
  mem : R s.mem t.mem
  transport : s.env.transport = none → t.env.transport = none
  ticks : t.env.tickFair = s.env.tickFair
  wire : ∃ l, t.wire = s.wire ++ l ∧ ∀ e ∈ l, e.isXchg = true

/-- One wire after another. -/
theorem wire_trans {a b c : List Event} (h : ∃ l, b = a ++ l ∧ ∀ e ∈ l, e.isXchg = true)
    (h' : ∃ l, c = b ++ l ∧ ∀ e ∈ l, e.isXchg = true) : ∃ l, c = a ++ l ∧ ∀ e ∈ l, e.isXchg = true := by
  obtain ⟨l, hl, hx⟩ := h
  obtain ⟨l', hl', hx'⟩ := h'
  refine ⟨l ++ l', by rw [hl', hl, List.append_assoc], fun e he => ?_⟩
  rcases List.mem_append.mp he with he | he
  · exact hx e he
  · exact hx' e he

section
variable {F : Prop} {g g' : Regs → Regs → Regs} {R R' : Memory → Memory → Prop} {s t u : State}

theorem CardStep.block (hR : MemRel R) (h : CardStep g s t) : BlockStep g R s t where
  same := by
    have := h.same
    rw [this]
  regs := h.regs
  mem := by rw [h.mem]; exact hR.refl _
  transport := h.transport
  ticks := h.ticks
  wire := h.wire

theorem BlockStep.trans (hg : Restores g) (hR : MemRel R) (h : BlockStep g R s t) (h' : BlockStep g R t u) :
    BlockStep g R s u where
  same := by rw [h'.same, h.same]
  regs := by rw [← hg.last s.regs t.regs, h'.regs, h.regs]
  mem := hR.trans h.mem h'.mem
  transport := h'.transport ∘ h.transport
  ticks := h'.ticks.trans h.ticks
  wire := wire_trans h.wire h'.wire

theorem BlockStep.weaken (hg : ∀ a b, g a b = a → g' a b = a) (hR : ∀ a b, R a b → R' a b)
    (h : BlockStep g R s t) : BlockStep g' R' s t :=
  ⟨h.same, hg _ _ h.regs, hR _ _ h.mem, h.transport, h.ticks, h.wire⟩

theorem BlockStep.xfer (hg : ∀ a b, g a b = a → g' a b = a) (h : BlockStep g R s t) : XferStep g' R s t where
  same := by
    have := h.same
    rw [this]
  regs := hg _ _ h.regs
  seq := by rw [h.same]; exact id
  mem := h.mem
  transport := h.transport
  ticks := h.ticks
  wire := h.wire

theorem CardStep.xfer (hg : ∀ a b, g a b = a → g' a b = a) (hR : MemRel R) (h : CardStep g s t) :
    XferStep g' R s t := (h.block hR).xfer hg

theorem XferStep.refl (hg : Restores g) (hR : MemRel R) (s : State) : XferStep g R s s :=
  ⟨rfl, hg.refl _, id, hR.refl _, id, rfl, [], by simp, by simp⟩

theorem XferStep.trans (hg : Restores g) (hR : MemRel R) (h : XferStep g R s t) (h' : XferStep g R t u) :
    XferStep g R s u where
  same := by rw [h'.same, h.same]
  regs := by rw [← hg.last s.regs t.regs, h'.regs, h.regs]
  seq := h'.seq ∘ h.seq
  mem := hR.trans h.mem h'.mem
  transport := h'.transport ∘ h.transport
  ticks := h'.ticks.trans h.ticks
  wire := wire_trans h.wire h'.wire

theorem BlockStep.cfg (h : BlockStep g R s t) : t.cfg = s.cfg := by rw [h.same]
theorem BlockStep.seq (h : BlockStep g R s t) : t.seq = s.seq := by rw [h.same]

theorem BlockStep.fair (h : BlockStep g R s t) (hs : F → s.Fair) : F → t.Fair := fun hF =>
  ⟨h.transport (hs hF).transport, h.ticks.trans (hs hF).ticks, by rw [h.cfg]; exact (hs hF).ready,
    by rw [h.cfg]; exact (hs hF).token⟩

theorem XferStep.cfg (h : XferStep g R s t) : t.cfg = s.cfg := by rw [h.same]
theorem XferStep.cs (h : XferStep g R s t) : t.cs = s.cs := by rw [h.same]
theorem XferStep.speed (h : XferStep g R s t) : t.speed = s.speed := by rw [h.same]
theorem XferStep.busy (h : XferStep g R s t) : t.busy = s.busy := by rw [h.same]
theorem XferStep.status (h : XferStep g R s t) : t.status = s.status := by rw [h.same]
theorem XferStep.version (h : XferStep g R s t) : t.version = s.version := by rw [h.same]
theorem XferStep.delivered (h : XferStep g R s t) : t.delivered = s.delivered := by rw [h.same]
theorem XferStep.inbox (h : XferStep g R s t) : t.inbox = s.inbox := by rw [h.same]
theorem XferStep.regions (h : XferStep g R s t) : t.regions = s.regions := by rw [h.same]

theorem XferStep.fair (h : XferStep g R s t) (hs : F → s.Fair) : F → t.Fair := fun hF =>
  ⟨h.transport (hs hF).transport, h.ticks.trans (hs hF).ticks, by rw [h.cfg]; exact (hs hF).ready,
    by rw [h.cfg]; exact (hs hF).token⟩

end

section
variable {F : Prop} {α β : Type} {g g' : Regs → Regs → Regs} {R : Memory → Memory → Prop} {m : M α} {f : α → M β} {s : State}

theorem Keeps.block (hR : MemRel R) (h : Keeps (CardStep g) m) : Keeps (BlockStep g R) m :=
  fun s a t hm => (h s a t hm).block hR

theorem Keeps.xfer (hg : ∀ a b, g a b = a → g' a b = a) (h : Keeps (BlockStep g R) m) : Keeps (XferStep g' R) m :=
  fun s a t hm => (h s a t hm).xfer hg

theorem block_bind (hg : Restores g) (hR : MemRel R) (hm : Keeps (BlockStep g R) m)
    (hf : ∀ a, Keeps (BlockStep g R) (f a)) : Keeps (BlockStep g R) (m >>= f) :=
  Keeps.bind (fun h h' => BlockStep.trans hg hR h h') hm hf

theorem xfer_bind (hg : Restores g) (hR : MemRel R) (hm : Keeps (XferStep g R) m) (hf : ∀ a, Keeps (XferStep g R) (f a)) :
    Keeps (XferStep g R) (m >>= f) :=
  Keeps.bind (fun h h' => XferStep.trans hg hR h h') hm hf

theorem block_pure (hg : Restores g) (hR : MemRel R) (a : α) : Keeps (BlockStep g R) (pure a : M α) :=
  (keeps_pure hg a).block hR

theorem xfer_pure (hg : Restores g) (hR : MemRel R) (a : α) : Keeps (XferStep g R) (pure a : M α) :=
  (block_pure hg hR a).xfer fun _ _ h => h

theorem xfer_setSeq (hg : Restores g) (hR : MemRel R) {q : Seq} (hq : q.unused = false) :
    Keeps (XferStep g R) (setSeq q) := by
  intro s
  simpa using ⟨rfl, hg.refl _, fun _ => hq, hR.refl _, id, rfl, [], by simp, by simp⟩

theorem xfer_card (hg : ∀ a b, g a b = a → g' a b = a) (hR : MemRel R) (h : Keeps (CardStep g) m) :
    Keeps (XferStep g' R) m := (h.block hR).xfer hg

/-! Reading a block. -/

theorem block_memWrite {base n a : Nat} (h : base ≤ a ∧ a < base + n) (hg : Restores g) (b : Byte) :
    Keeps (BlockStep g (StoresOnly base n)) (memWrite a b) := by
  intro s
  simp only [memWrite, partial_act]
  refine ⟨rfl, hg.refl _, fun hw => ⟨Memory.wf_write a b hw, fun x hx => ?_⟩, id, rfl, [], by simp, by simp⟩
  exact Memory.read_write_of_ne (fun e => hx (by rw [e]; exact h)) b hw

theorem block_streamIn {lo n : Nat} (base i k : Nat) (h : k ≠ 0 → lo ≤ base + i ∧ base + i + k ≤ lo + n) :
    Keeps (BlockStep Regs.blockRestored (StoresOnly lo n)) (streamIn base i k) := by
  have hg := restores_block
  have hR := memRel_storesOnly lo n
  induction k generalizing i with
  | zero => exact block_pure hg hR _
  | succ k ih =>
    have h' := h (by omega)
    refine block_bind hg hR ((keeps_writeRegs fun _ => rfl).block hR) fun _ =>
      block_bind hg hR ((keeps_rx hg).block hR) fun b =>
        block_bind hg hR (block_memWrite (by omega) hg b) fun _ => ih (i + 1) fun _ => by omega

theorem keeps_waitToken : Keeps (CardStep Regs.blockRestored) waitToken :=
  have hg := restores_block
  keeps_bind hg (keeps_tickNow hg) fun _ => keeps_bind hg (keeps_writeRegs fun _ => rfl) fun _ =>
    keeps_bind hg (keeps_param hg _) fun _ =>
      keeps_pollWait hg (fun b => by
        exact keeps_bind hg (keeps_writeRegs fun _ => rfl) fun _ => keeps_pure hg _) _ _

/-- A block read writes no byte outside its 512-byte region (43_block_transfer.md R190). -/
theorem block_readBlock {lo n : Nat} (base size : Nat) (h : size ≠ 0 → lo ≤ base ∧ base + size ≤ lo + n) :
    Keeps (BlockStep Regs.blockRestored (StoresOnly lo n)) (readBlock base size) := by
  have hg := restores_block
  have hR := memRel_storesOnly lo n
  refine block_bind hg hR (keeps_waitToken.block hR) fun seen => keeps_ite ?_ (block_pure hg hR _)
  exact block_bind hg hR (block_streamIn base 0 size fun hk => by simpa using h hk) fun _ =>
    block_bind hg hR ((keeps_rx hg).block hR) fun _ => block_bind hg hR ((keeps_rx hg).block hR) fun _ =>
      block_pure hg hR _

theorem ends_waitToken (hs : F → s.Fair) : Ends F waitToken s fun _ _ => True := by
  simp only [waitToken, ends_bind, ends_tickNow, ends_writeRegs, ends_param]
  exact ends_pollWait
    (fun b s => by simp only [ends_bind, ends_writeRegs, ends_pure])
    (fun b => keeps_bind restores_any (keeps_writeRegs fun _ => rfl) fun _ => keeps_pure restores_any _)
    (fun hF => (hs hF).token) _ (fun hF => (hs hF).transport) (fun hF => (hs hF).ticks)

theorem ends_streamIn (base i k : Nat) (hs : F → s.env.transport = none) :
    Ends F (streamIn base i k) s fun _ t => F → t.env.transport = none := by
  induction k generalizing s i with
  | zero => exact hs
  | succ k ih =>
    simp only [streamIn, pointAt, ends_bind, ends_writeRegs]
    refine ends_rx hs ?_
    simp only [memWrite, ends_act]
    exact ih _ (open_exchanged (tx := 0xFF) hs)

theorem ends_readBlock (base size : Nat) (hs : F → s.Fair) : Ends F (readBlock base size) s fun _ _ => True := by
  simp only [readBlock, ends_bind, ends_ite, ends_pure]
  refine ((ends_waitToken hs).and (keeps_waitToken s)).mono fun seen t h => ⟨fun _ => ?_, fun _ => trivial⟩
  refine (ends_streamIn base 0 size (open_of_fair (h.2.fair hs))).mono fun _ u hu => ?_
  exact ends_rx hu (ends_rx (open_exchanged hu) trivial)

/-! Writing a block. -/

theorem keeps_streamOut (base i k : Nat) : Keeps (CardStep Regs.blockRestored) (streamOut base i k) := by
  have hg := restores_block
  induction k generalizing i with
  | zero => exact keeps_pure hg _
  | succ k ih =>
    exact keeps_bind hg (keeps_writeRegs fun _ => rfl) fun _ => keeps_bind hg (keeps_look hg _) fun _ =>
      keeps_bind hg (keeps_xchg hg _) fun _ => ih _

theorem keeps_readDataResponse : Keeps (CardStep Regs.blockRestored) readDataResponse :=
  have hg := restores_block
  keeps_bind hg (keeps_rx hg) fun _ => keeps_bind hg (keeps_writeRegs fun _ => rfl) fun _ => keeps_pure hg _

theorem keeps_sendBlock (base size : Nat) (token : Byte) :
    Keeps (CardStep Regs.blockRestored) (sendBlock base size token) :=
  have hg := restores_block
  keeps_bind hg (keeps_writeRegs fun _ => rfl) fun _ => keeps_bind hg (keeps_xchg hg _) fun _ =>
    keeps_bind hg (keeps_streamOut _ _ _) fun _ => keeps_bind hg (keeps_sendBytes hg _) fun _ =>
      keeps_bind hg keeps_readDataResponse fun _ =>
        keeps_bind hg (keeps_waitReady.weaken wait_block) fun _ => keeps_pure hg _

/-- A block write never writes the buffer (R191). -/
theorem keeps_writeBlock (base size : Nat) (token : Byte) :
    Keeps (CardStep Regs.blockRestored) (writeBlock base size token) :=
  have hg := restores_block
  keeps_bind hg (keeps_waitReady.weaken wait_block) fun _ =>
    keeps_ite (keeps_sendBlock _ _ _) (keeps_pure hg _)

theorem keeps_stopTran : Keeps (CardStep Regs.waitRestored) stopTran :=
  have hg := restores_wait
  keeps_bind hg (keeps_xchg hg _) fun _ => keeps_bind hg (keeps_rx hg) fun _ =>
    keeps_bind hg keeps_waitReady fun _ => keeps_pure hg _

theorem ends_streamOut (base i k : Nat) (hs : F → s.env.transport = none) :
    Ends F (streamOut base i k) s fun _ t => F → t.env.transport = none := by
  induction k generalizing s i with
  | zero => exact hs
  | succ k ih =>
    simp only [streamOut, pointAt, memRead, ends_bind, ends_writeRegs, ends_look]
    refine ends_xchg hs (ih _ ?_)
    exact fun hF => by simp [hs hF]

theorem ends_readDataResponse (hs : F → s.Fair) :
    Ends F readDataResponse s fun _ t => F → t.Fair := by
  simp only [readDataResponse, ends_bind, ends_writeRegs, ends_pure]
  exact ends_rx (open_of_fair hs) (fair_same (fair_exchanged hs 0xFF) rfl rfl)

theorem ends_sendBlock (base size : Nat) (token : Byte) (hs : F → s.Fair) :
    Ends F (sendBlock base size token) s fun _ _ => True := by
  simp only [sendBlock, ends_bind, ends_writeRegs, ends_pure]
  refine ends_xchg (fun hF => (hs hF).transport) ?_
  refine ((ends_streamOut base 0 size ?_).and (keeps_streamOut base 0 size _)).mono fun _ u hu => ?_
  · exact open_of_fair (fair_same (fair_exchanged hs token) rfl rfl)
  have hu' := hu.2.fair (fair_same (fair_exchanged hs token) rfl rfl)
  refine ((ends_sendBytes _ hu.1).and (keeps_sendBytes restores_any _ _)).mono fun _ v hv => ?_
  exact (ends_readDataResponse (hv.2.fair hu')).mono fun _ w hw => (ends_waitReady hw).mono fun _ _ _ => trivial

theorem ends_writeBlock (base size : Nat) (token : Byte) (hs : F → s.Fair) :
    Ends F (writeBlock base size token) s fun _ _ => True := by
  simp only [writeBlock, ends_bind, ends_ite, ends_pure]
  exact ((ends_waitReady hs).and (keeps_waitReady s)).mono fun ready t h =>
    ⟨fun _ => ends_sendBlock base size token (h.2.fair hs), fun _ => trivial⟩

theorem ends_stopTran (hs : F → s.Fair) : Ends F stopTran s fun _ _ => True := by
  simp only [stopTran, ends_bind, ends_pure]
  exact ends_xchg (open_of_fair hs) (ends_rx (open_of_fair (fair_exchanged hs _))
    (ends_waitReady (fair_exchanged (fair_exchanged hs _) _)))

/-! The sector sequences. -/

/-- What a sector sequence keeps. -/
abbrev Sector (R : Memory → Memory → Prop) : State → State → Prop := XferStep Regs.sectorRestored R

theorem sector_bind (hR : MemRel R) {m : M α} {f : α → M β} (hm : Keeps (Sector R) m)
    (hf : ∀ a, Keeps (Sector R) (f a)) : Keeps (Sector R) (m >>= f) :=
  xfer_bind restores_sector hR hm hf

theorem sector_writeRegs (hR : MemRel R) {w : Regs → Regs} (hw : ∀ r : Regs, r.sectorRestored (w r) = r) :
    Keeps (Sector R) (writeRegs w) :=
  xfer_card (fun _ _ h => h) hR (keeps_writeRegs hw)

theorem sector_blocks (hR : MemRel R) {block : Nat → M Bool} {count : Nat} (k n : Nat) (hk : k + n ≤ count)
    (hb : ∀ k, k < count → Keeps (Sector R) (block k)) : Keeps (Sector R) (blocks block k n) := by
  induction n generalizing k with
  | zero => exact xfer_pure restores_sector hR _
  | succ n ih =>
    exact sector_bind hR (sector_writeRegs hR fun _ => rfl) fun _ => sector_bind hR (hb k (by omega)) fun _ =>
      keeps_ite (ih _ (by omega)) (sector_writeRegs hR fun _ => rfl)

theorem keeps_stopRead : Keeps (CardStep Regs.framerRestored) stopRead :=
  have hg := restores_framer
  keeps_bind hg (keeps_command _ _ _) fun _ => keeps_bind hg (keeps_rx hg) fun _ =>
    keeps_bind hg (keeps_waitReady.weaken wait_framer) fun _ => keeps_pure hg _

theorem sector_stopPhase (hR : MemRel R) {stop : M Unit} (hs : Keeps (Sector R) stop) :
    Keeps (Sector R) (stopPhase stop) := by
  have hg := restores_sector
  refine sector_bind hR (xfer_card (fun _ _ h => h) hR (keeps_readReg hg _)) fun _ =>
    sector_bind hR (xfer_card (fun _ _ h => h) hR (keeps_param hg _)) fun _ => keeps_ite ?_ (xfer_pure hg hR _)
  exact sector_bind hR (xfer_setSeq hg hR rfl) fun _ => hs

theorem sector_multiBlock (hR : MemRel R) {block : Nat → M Bool} {stop : M Unit} {count : Nat}
    (hb : ∀ k, k < count → Keeps (Sector R) (block k)) (hs : Keeps (Sector R) stop) :
    Keeps (Sector R) (multiBlock block stop count) :=
  sector_bind hR (xfer_setSeq restores_sector hR rfl) fun _ =>
    sector_bind hR (sector_writeRegs hR fun _ => rfl) fun _ =>
      sector_bind hR (sector_blocks hR 0 count (by omega) hb) fun _ =>
        sector_bind hR (sector_stopPhase hR hs) fun _ =>
          xfer_card (fun _ _ h => h) hR (keeps_readReg restores_sector _)

theorem sector_sectorCommand (hR : MemRel R) (idx : BitVec 6) (sector : Word) {data : M Bool}
    (hd : Keeps (Sector R) data) : Keeps (Sector R) (sectorCommand idx sector data) :=
  sector_bind hR (xfer_setSeq restores_sector hR rfl) fun _ =>
    sector_bind hR (xfer_card framer_sector hR (keeps_command _ _ _)) fun _ =>
      keeps_ite hd (xfer_pure restores_sector hR _)

theorem sector_singleBlock (hR : MemRel R) {block : M Bool} (hb : Keeps (Sector R) block) :
    Keeps (Sector R) (singleBlock block) :=
  sector_bind hR (xfer_setSeq restores_sector hR rfl) fun _ => hb

/-- A single read writes its 512-byte buffer only (R192). -/
theorem sector_singleRead (sector : Word) (base : Nat) :
    Keeps (Sector (StoresOnly base Config.blockBytes)) (singleRead sector base) :=
  have hR := memRel_storesOnly base Config.blockBytes
  sector_sectorCommand hR _ _ (sector_singleBlock hR
    ((block_readBlock base Config.blockBytes fun _ => ⟨le_rfl, le_rfl⟩).xfer block_sector))

/-- A multi-block read writes its buffer only (R193). -/
theorem sector_multiRead (sector : Word) (base count : Nat) :
    Keeps (Sector (StoresOnly base (Config.blockBytes * count))) (multiRead sector base count) :=
  have hR := memRel_storesOnly base (Config.blockBytes * count)
  sector_sectorCommand hR _ _ (sector_multiBlock hR
    (fun k hk => (block_readBlock (blockBase base k) Config.blockBytes fun _ => by
      unfold blockBase
      have : Config.blockBytes * (k + 1) ≤ Config.blockBytes * count := Nat.mul_le_mul_left _ hk
      rw [Nat.mul_succ] at this
      omega).xfer block_sector)
    (xfer_card framer_sector hR keeps_stopRead))

/-- A write never writes the buffer (R194). -/
theorem sector_singleWrite (sector : Word) (base : Nat) :
    Keeps (Sector fun a b => b = a) (singleWrite sector base) :=
  sector_sectorCommand memRel_eq _ _
    (sector_singleBlock memRel_eq (xfer_card block_sector memRel_eq (keeps_writeBlock _ _ _)))

/-- A multi-block write never writes the buffer (R195). -/
theorem sector_multiWrite (sector : Word) (base count : Nat) :
    Keeps (Sector fun a b => b = a) (multiWrite sector base count) :=
  sector_sectorCommand memRel_eq _ _ (sector_multiBlock memRel_eq
    (fun _ _ => xfer_card block_sector memRel_eq (keeps_writeBlock _ _ _))
    (xfer_card wait_sector memRel_eq keeps_stopTran))

/-- A block procedure that ends and leaves the success flag alone. -/
structure EndsBlock (F : Prop) (block : M Bool) : Prop where
  ends : ∀ s : State, (F → s.Fair) → Ends F block s fun _ _ => True
  fair : Keeps (fun s t => s.Fair → t.Fair) block
  ok : Keeps (fun s t => t.regs.ok = s.regs.ok) block
  cfg : Keeps (fun s t => t.cfg = s.cfg) block

theorem endsBlock_read (base size : Nat) : EndsBlock F (readBlock base size) where
  ends _ hs := ends_readBlock base size hs
  fair s a t h hs := (block_readBlock (lo := base) (n := size) base size (fun _ => ⟨le_rfl, le_rfl⟩) s a t h).fair
    (F := True) (fun _ => hs) trivial
  ok s a t h := by
    have h' := congrArg Regs.ok
      (block_readBlock (lo := base) (n := size) base size (fun _ => ⟨le_rfl, le_rfl⟩) s a t h).regs
    exact h'
  cfg s a t h := (block_readBlock (lo := base) (n := size) base size (fun _ => ⟨le_rfl, le_rfl⟩) s a t h).cfg

theorem endsBlock_write (base size : Nat) (token : Byte) : EndsBlock F (writeBlock base size token) where
  ends _ hs := ends_writeBlock base size token hs
  fair s a t h hs := (keeps_writeBlock base size token s a t h).fair (F := True) (fun _ => hs) trivial
  ok s a t h := by
    have h' := congrArg Regs.ok (keeps_writeBlock base size token s a t h).regs
    exact h'
  cfg s a t h := (keeps_writeBlock base size token s a t h).cfg

/-- The loop over the blocks ends, with the success flag holding a value. -/
theorem ends_blocks {block : Nat → M Bool} (hb : ∀ k, EndsBlock F (block k)) (k n : Nat) (hs : F → s.Fair)
    (hok : ∃ b, s.regs.ok = some b) :
    Ends F (blocks block k n) s fun _ t => (F → t.Fair) ∧ t.cfg = s.cfg ∧ ∃ b, t.regs.ok = some b := by
  induction n generalizing s k with
  | zero => exact ⟨hs, rfl, hok⟩
  | succ n ih =>
    simp only [blocks, ends_bind, ends_writeRegs]
    have hs' : F → State.Fair { s with regs := { s.regs with blk := some k } } := fair_same hs rfl rfl
    have h := ((hb k).ends _ hs').and (((hb k).fair _).and (((hb k).ok _).and ((hb k).cfg _)))
    refine h.mono fun good t ht => ?_
    obtain ⟨-, hf, ho, hc⟩ := ht
    have hf : F → t.Fair := fun hF => hf (hs' hF)
    simp only [ends_ite, ends_writeRegs]
    refine ⟨fun _ => ?_, fun _ => ⟨fair_same hf rfl rfl, hc, _, rfl⟩⟩
    exact (ih (k + 1) hf (by rw [ho]; exact hok)).mono fun _ _ h => ⟨h.1, h.2.1.trans hc, h.2.2⟩

theorem keeps_stopRead_ok : Keeps (fun s t => t.regs.ok = s.regs.ok) stopRead := fun s a t h => by
  have h' := congrArg Regs.ok (keeps_stopRead s a t h).regs
  exact h'

theorem keeps_stopTran_ok : Keeps (fun s t => t.regs.ok = s.regs.ok) stopTran := fun s a t h => by
  have h' := congrArg Regs.ok (keeps_stopTran s a t h).regs
  exact h'

theorem ends_stopRead (hs : F → s.Fair) (hp : s.cfg.ok = true) : Ends F stopRead s fun _ _ => True := by
  simp only [stopRead, ends_bind, ends_pure]
  refine (ends_command_and 12 0 false hs hp).mono fun _ t h => ?_
  have ht := h.2.fair hs
  exact ends_rx (open_of_fair ht) (ends_waitReady (fair_exchanged ht _))

/-- A multi-block transfer ends, whatever its blocks did (R193, R195). -/
theorem ends_multiBlock {block : Nat → M Bool} (hb : ∀ k, EndsBlock F (block k)) {stop : M Unit} {count : Nat}
    (ht : ∀ s : State, (F → s.Fair) → s.cfg.ok = true → Ends F stop s fun _ _ => True)
    (hk : Keeps (fun s t => t.regs.ok = s.regs.ok) stop) (hs : F → s.Fair) (hp : s.cfg.ok = true) :
    Ends F (multiBlock block stop count) s fun _ _ => True := by
  simp only [multiBlock, ends_bind, ends_setSeq, ends_writeRegs]
  refine (ends_blocks hb 0 count ?_ ⟨true, rfl⟩).mono fun _ t h => ?_
  · exact fair_same hs rfl rfl
  obtain ⟨hf, hc, b, hb⟩ := h
  simp only [stopPhase, ends_bind, ends_readReg, ends_param, ends_ite, ends_setSeq, ends_pure]
  refine ⟨b, hb, fun _ => ?_, fun _ => ⟨b, hb, trivial⟩⟩
  refine ((ht _ ?_ (by rw [← hp]; exact congrArg Params.ok hc)).and (hk _)).mono fun _ u hu => ?_
  · exact fair_same hf rfl rfl
  · exact ⟨b, hu.2.trans hb, trivial⟩

theorem ends_sectorCommand (idx : BitVec 6) (sector : Word) {data : M Bool}
    (hd : ∀ s : State, (F → s.Fair) → s.cfg.ok = true → Ends F data s fun _ _ => True) (hs : F → s.Fair)
    (hp : s.cfg.ok = true) : Ends F (sectorCommand idx sector data) s fun _ _ => True := by
  simp only [sectorCommand, ends_bind, ends_setSeq]
  have hs' : F → State.Fair { s with seq := .xferCmd } := fair_same hs rfl rfl
  refine (ends_command_and idx sector false hs' hp).mono fun st t h => ?_
  simp only [ends_ite, ends_pure]
  exact ⟨fun _ => hd t (h.2.fair hs') (by rw [h.2.cfg]; exact hp), fun _ => trivial⟩

theorem ends_singleRead (sector : Word) (base : Nat) (hs : F → s.Fair) (hp : s.cfg.ok = true) :
    Ends F (singleRead sector base) s fun _ _ => True := by
  refine ends_sectorCommand _ _ (fun t ht _ => ?_) hs hp
  simp only [singleBlock, ends_bind, ends_setSeq]
  exact ends_readBlock _ _ (fair_same ht rfl rfl)

theorem ends_singleWrite (sector : Word) (base : Nat) (hs : F → s.Fair) (hp : s.cfg.ok = true) :
    Ends F (singleWrite sector base) s fun _ _ => True := by
  refine ends_sectorCommand _ _ (fun t ht _ => ?_) hs hp
  simp only [singleBlock, ends_bind, ends_setSeq]
  exact ends_writeBlock _ _ _ (fair_same ht rfl rfl)

theorem ends_multiRead (sector : Word) (base count : Nat) (hs : F → s.Fair) (hp : s.cfg.ok = true) :
    Ends F (multiRead sector base count) s fun _ _ => True :=
  ends_sectorCommand _ _ (fun _ ht hc => ends_multiBlock (fun _ => endsBlock_read _ _)
    (fun _ hs hp => ends_stopRead hs hp)
    keeps_stopRead_ok ht hc) hs hp

theorem ends_multiWrite (sector : Word) (base count : Nat) (hs : F → s.Fair) (hp : s.cfg.ok = true) :
    Ends F (multiWrite sector base count) s fun _ _ => True :=
  ends_sectorCommand _ _ (fun _ ht hc => ends_multiBlock (fun _ => endsBlock_write _ _ _)
    (fun _ hs _ => ends_stopTran hs)
    keeps_stopTran_ok ht hc) hs hp

end

end Sys2Proof.Machine
end

