-- ==== Sys2Proof/Laws/Negotiation.lean ====
section
/-! SUPPORT. What the negotiation can do: each step ends, with the bus released and the session either left
as it was or made ready. -/

namespace Sys2Proof.Machine

/-- Draws, exchanges, writes of the negotiation's registers and `seq`; memory as before. -/
abbrev Quiet (s t : State) : Prop := XferStep Regs.negotiationRestored (fun a b : Memory => b = a) s t

/-- What the rest of a negotiation, from a claimed bus on, has done when it ends (42_negotiation.md R160). -/
structure Negotiated (s t : State) : Prop where
  same : t = { s with
    version := t.version
    status := t.status
    cs := .deselected
    seq := .negEnd
    regs := t.regs
    env := t.env
    wire := t.wire }
  regs : s.regs.negotiationRestored t.regs = s.regs
  transport : s.env.transport = none → t.env.transport = none
  ticks : t.env.tickFair = s.env.tickFair
  session : (t.version = s.version ∧ t.status = s.status) ∨ (t.status = .ready ∧ t.version ≠ .none)
  wire : ∃ l, t.wire = s.wire ++ (l ++ [.deselect]) ∧ ∀ e ∈ l, e.isXchg = true

section
variable {F : Prop} {s t u : State} {g : Regs → Regs → Regs}

theorem CardStep.quiet (h : CardStep Regs.framerRestored s t) : Quiet s t := h.xfer framer_negotiation memRel_eq

theorem Quiet.trans (h : Quiet s t) (h' : Quiet t u) : Quiet s u := XferStep.trans restores_negotiation memRel_eq h h'

theorem quiet_writeRegs (r : Regs) (hr : s.regs.negotiationRestored r = s.regs) : Quiet s { s with regs := r } :=
  ⟨rfl, hr, id, rfl, id, rfl, [], by simp, by simp⟩

theorem quiet_setSeq {q : Seq} (hq : q.unused = false) : Quiet s { s with seq := q } :=
  ⟨rfl, rfl, fun _ => hq, rfl, id, rfl, [], by simp, by simp⟩

/-- Work within the claim, then the rest of the negotiation. -/
theorem Negotiated.after (h' : Negotiated t u) (h : Quiet s t) : Negotiated s u where
  same := by
    rw [h'.same, h.same]
    simp only [h.mem]
  regs := by rw [← restores_negotiation.last s.regs t.regs, h'.regs, h.regs]
  transport := h'.transport ∘ h.transport
  ticks := h'.ticks.trans h.ticks
  session := by rw [← h.version, ← h.status]; exact h'.session
  wire := by
    obtain ⟨l, hl, hx⟩ := h.wire
    obtain ⟨l', hl', hx'⟩ := h'.wire
    refine ⟨l ++ l', by simp [hl', hl, List.append_assoc], fun e he => ?_⟩
    rcases List.mem_append.mp he with he | he
    · exact hx e he
    · exact hx' e he

theorem ends_negotiationFails : Ends F negotiationFails s fun _ t => Negotiated s t := by
  simp only [negotiationFails, deselect, ends_bind, ends_setSeq, ends_act, ends_emit]
  exact ⟨rfl, rfl, id, rfl, .inl ⟨rfl, rfl⟩, [], rfl, by simp⟩

/-- The commit needs a family found (R171). -/
theorem ends_negotiationReady {v : Version} (hv : s.regs.pendVer = some v) (hn : v ≠ .none) :
    Ends F negotiationReady s fun _ t => Negotiated s t := by
  simp only [negotiationReady, deselect, ends_bind, ends_setSeq, ends_readReg, ends_act, ends_emit]
  exact ⟨v, hv, rfl, rfl, id, rfl, .inr ⟨rfl, hn⟩, [], rfl, by simp⟩

theorem ends_setBlockLength {v : Version} (hv : s.regs.pendVer = some v) (hn : v ≠ .none) (hs : F → s.Fair)
    (hp : s.cfg.ok = true) : Ends F setBlockLength s fun _ t => Negotiated s t := by
  simp only [setBlockLength, ends_bind, ends_ite]
  refine (ends_command_and 16 512 false hs hp).mono fun st t h => ⟨fun _ => ?_, fun _ => ?_⟩
  · have hv' : t.regs.pendVer = some v := (congrArg Regs.pendVer h.2.regs).trans hv
    exact (ends_negotiationReady hv' hn).mono fun _ _ h' => h'.after h.2.quiet
  · exact ends_negotiationFails.mono fun _ _ h' => h'.after h.2.quiet

theorem ends_configureV2 {o : Word} {v : Version} (ho : s.regs.ocr = some o) (hv : s.regs.pendVer = some v)
    (hn : v ≠ .none) (hs : F → s.Fair) (hp : s.cfg.ok = true) :
    Ends F configureV2 s fun _ t => Negotiated s t := by
  simp only [configureV2, ends_bind, ends_setSeq, ends_readReg, ends_param, ends_ite]
  have hq : Quiet s { s with seq := .blockSizeConfig } := quiet_setSeq rfl
  refine ⟨o, ho, fun _ => ?_, fun _ => ?_⟩
  · exact (ends_negotiationReady (s := { s with seq := .blockSizeConfig }) hv hn).mono fun _ _ h => h.after hq
  · exact (ends_setBlockLength (s := { s with seq := .blockSizeConfig }) hv hn (hq.fair hs) hp).mono
      fun _ _ h => h.after hq

theorem ends_readOcr (hs : F → s.Fair) (hp : s.cfg.ok = true) : Ends F readOcr s fun _ t => Negotiated s t := by
  simp only [readOcr, ends_bind, ends_setSeq, ends_ite]
  have hq : Quiet s { s with seq := .v2ReadOcr } := quiet_setSeq rfl
  refine (ends_command_and 58 0 true (hq.fair hs) hp).mono fun st t h => ⟨fun hst => ?_, fun _ => ?_⟩
  · simp only [ends_readReg, ends_writeRegs]
    have hc : st ≠ 0xFF := by
      rintro rfl
      simp [commandOk] at hst
    obtain ⟨e, he⟩ := h.1 rfl hc
    have ht := h.2.fair (hq.fair hs)
    have hcfg : t.cfg = s.cfg := h.2.cfg
    have hr : Quiet t { t with regs := { t.regs with ocr := some e, pendVer := some .sdv2Plus } } := quiet_writeRegs _ rfl
    refine ⟨e, he, (ends_configureV2 (s := { t with regs := { t.regs with ocr := some e, pendVer := some .sdv2Plus } })
      rfl rfl (by decide : Version.sdv2Plus ≠ .none) (hr.fair ht) (by rw [hr.cfg, hcfg]; exact hp)).mono fun _ _ h' => ?_⟩
    exact h'.after ((hq.trans h.2.quiet).trans hr)
  · exact ends_negotiationFails.mono fun _ _ h' => h'.after (hq.trans h.2.quiet)

/-- A command-like procedure: it ends and writes the framer's registers only. -/
def CommandLike (F : Prop) (m : M Byte) : Prop :=
  ∀ s : State, (F → s.Fair) → s.cfg.ok = true → Ends F m s fun _ t => CardStep Regs.framerRestored s t

theorem commandLike_command (idx : BitVec 6) (arg : Word) (dest : Bool) : CommandLike F (command idx arg dest) :=
  fun _ hs hp => (ends_command_and idx arg dest hs hp).mono fun _ _ h => h.2

theorem commandLike_acmd41Hcs : CommandLike F acmd41Hcs := fun s hs hp => by
  simp only [acmd41Hcs, ends_bind, ends_param]
  exact commandLike_command _ _ _ s hs hp

theorem commandLike_appCommand {m : M Byte} (hm : CommandLike F m) : CommandLike F (appCommand m) := fun s hs hp => by
  simp only [appCommand, ends_bind]
  refine (commandLike_command 55 0 false s hs hp).mono fun _ t h => ?_
  exact (hm t (h.fair hs) (by rw [h.cfg]; exact hp)).mono fun _ _ h' => CardStep.trans restores_framer h h'

/-- A loop of attempts ends after at most its bound (R165, R168, R169). -/
theorem ends_attempts {m : M Byte} (hm : CommandLike F m) (done k : Nat) (hs : F → s.Fair) (hp : s.cfg.ok = true) :
    Ends F (attempts m done k) s fun _ t => Quiet s t := by
  induction k generalizing s done with
  | zero => exact XferStep.refl restores_negotiation memRel_eq s
  | succ k ih =>
    simp only [attempts, ends_bind, ends_writeRegs, ends_ite, ends_pure]
    have hq : Quiet s { s with regs := { s.regs with iter := some (done + 1) } } := quiet_writeRegs _ rfl
    refine (hm _ (hq.fair hs) hp).mono fun st t h => ⟨fun _ => hq.trans h.quiet, fun _ => ?_⟩
    refine (ih _ (h.fair (hq.fair hs)) (by rw [h.cfg]; exact hp)).mono fun _ _ h' => ?_
    exact (hq.trans h.quiet).trans h'

theorem ends_voltageCheckPath {e : Word} (he : s.regs.extOut = some e) (hs : F → s.Fair) (hp : s.cfg.ok = true) :
    Ends F voltageCheckPath s fun _ t => Negotiated s t := by
  simp only [voltageCheckPath, ends_bind, ends_readReg, ends_writeRegs, ends_param, ends_ite, ends_setSeq]
  have hr : Quiet s { s with regs := { s.regs with r7 := some e } } := quiet_writeRegs _ rfl
  refine ⟨e, he, fun _ => ?_, fun _ => ends_negotiationFails.mono fun _ _ h => h.after hr⟩
  have hq : Quiet s { s with
      regs := { s.regs with r7 := some e }
      seq := .v2Acmd41 } := hr.trans (quiet_setSeq rfl)
  refine (ends_attempts (commandLike_appCommand commandLike_acmd41Hcs) 0 Config.initIter (hq.fair hs) hp).mono
    fun _ t h => ⟨fun _ => ?_, fun _ => ?_⟩
  · exact (ends_readOcr (h.fair (hq.fair hs)) (by rw [h.cfg]; exact hp)).mono fun _ _ h' => h'.after (hq.trans h)
  · exact ends_negotiationFails.mono fun _ _ h' => h'.after (hq.trans h)

theorem ends_configureLegacy {v : Version} (hn : v ≠ .none) (hs : F → s.Fair) (hp : s.cfg.ok = true) :
    Ends F (configureLegacy v) s fun _ t => Negotiated s t := by
  simp only [configureLegacy, ends_bind, ends_writeRegs, ends_setSeq]
  have hq : Quiet s { s with
      regs := { s.regs with pendVer := some v }
      seq := .blockSizeConfig } := (quiet_writeRegs { s.regs with pendVer := some v } rfl).trans (quiet_setSeq rfl)
  exact (ends_setBlockLength rfl hn (hq.fair hs) hp).mono fun _ _ h => h.after hq

theorem ends_mmcPath (hs : F → s.Fair) (hp : s.cfg.ok = true) : Ends F mmcPath s fun _ t => Negotiated s t := by
  simp only [mmcPath, ends_bind, ends_setSeq, ends_ite]
  have hq : Quiet s { s with seq := .legacyCmd1 } := quiet_setSeq rfl
  refine (ends_attempts (commandLike_command 1 0 false) 0 Config.initIter (hq.fair hs) hp).mono
    fun _ t h => ⟨fun _ => ?_, fun _ => ?_⟩
  · exact (ends_configureLegacy (by decide) (h.fair (hq.fair hs)) (by rw [h.cfg]; exact hp)).mono
      fun _ _ h' => h'.after (hq.trans h)
  · exact ends_negotiationFails.mono fun _ _ h' => h'.after (hq.trans h)

theorem ends_legacyPath (hs : F → s.Fair) (hp : s.cfg.ok = true) : Ends F legacyPath s fun _ t => Negotiated s t := by
  simp only [legacyPath, ends_bind, ends_setSeq, ends_writeRegs, ends_ite]
  have hq : Quiet s { s with
      seq := .legacyAcmd41
      regs := { s.regs with pendVer := some .none } } :=
    (quiet_setSeq (s := s) (q := .legacyAcmd41) rfl).trans (quiet_writeRegs _ rfl)
  refine (ends_attempts (commandLike_appCommand (commandLike_command 41 0 false)) 0 Config.initIter
    (hq.fair hs) hp).mono fun _ t h => ⟨fun _ => ?_, fun _ => ?_⟩
  · exact (ends_configureLegacy (by decide) (h.fair (hq.fair hs)) (by rw [h.cfg]; exact hp)).mono
      fun _ _ h' => h'.after (hq.trans h)
  · exact (ends_mmcPath (h.fair (hq.fair hs)) (by rw [h.cfg]; exact hp)).mono fun _ _ h' => h'.after (hq.trans h)

theorem ends_interfaceCheck (hs : F → s.Fair) (hp : s.cfg.ok = true) :
    Ends F interfaceCheck s fun _ t => Negotiated s t := by
  simp only [interfaceCheck, cmd8, ends_bind, ends_setSeq, ends_param, ends_ite]
  have hq : Quiet s { s with seq := .ifCond } := quiet_setSeq rfl
  refine (ends_command_and 8 s.cfg.r7Pattern true (hq.fair hs) hp).mono fun st t h => ⟨fun hst => ?_, fun _ => ?_⟩
  · have hc : st ≠ 0xFF := by
      rw [hst]
      decide
    obtain ⟨e, he⟩ := h.1 rfl hc
    exact (ends_voltageCheckPath he (h.2.fair (hq.fair hs)) (by rw [h.2.cfg]; exact hp)).mono
      fun _ _ h' => h'.after (hq.trans h.2.quiet)
  · exact (ends_legacyPath (h.2.fair (hq.fair hs)) (by rw [h.2.cfg]; exact hp)).mono
      fun _ _ h' => h'.after (hq.trans h.2.quiet)

/-! Power-up (R161). -/

/-- The dummy exchanges, each sending `0xFF`. -/
theorem ends_dummyBytes (done k : Nat) (hs : F → s.env.transport = none) :
    Ends F (dummyBytes done k) s fun _ t =>
      CardStep Regs.negotiationRestored s t ∧ ∃ rxs : List Byte, rxs.length = k ∧ t.wire = s.wire ++ idles rxs := by
  induction k generalizing s done with
  | zero => exact ⟨CardStep.refl restores_negotiation s, [], rfl, by simp [idles]⟩
  | succ k ih =>
    simp only [dummyBytes, ends_bind, ends_writeRegs]
    refine ends_xchg hs ((ih (done + 1) ?_).mono fun _ t h => ?_)
    · exact fun hF => by simp [hs hF]
    obtain ⟨h, rxs, hl, hw⟩ := h
    refine ⟨CardStep.trans restores_negotiation ?_ h, s.env.answer :: rxs, by simp [hl], by simp [hw, idles, Config.powerupTx]⟩
    exact ⟨rfl, rfl, fun h => by simp [h], rfl, [_], rfl, by simp [Event.isXchg]⟩

/-- What the power-up has done: the dummy exchanges at slow speed with the bus not claimed, then fast, then the
claim. -/
structure PoweredUp (s t : State) : Prop where
  same : t = { s with
    speed := .fast
    cs := .selected
    regs := t.regs
    env := t.env
    wire := t.wire }
  regs : s.regs.negotiationRestored t.regs = s.regs
  transport : s.env.transport = none → t.env.transport = none
  ticks : t.env.tickFair = s.env.tickFair
  wire : ∃ rxs : List Byte, rxs.length = s.cfg.powerupBytes ∧
    t.wire = s.wire ++ (.setSpeed .slow :: idles rxs ++ [.setSpeed .fast, .select])

theorem ends_powerUp (hs : F → s.env.transport = none) (hc : s.cs = .deselected) :
    Ends F powerUp s fun _ t => PoweredUp s t := by
  simp only [powerUp, setSpeed, select, ends_bind, ends_act, ends_emit, ends_param]
  refine (ends_dummyBytes 0 s.cfg.powerupBytes ?_).mono fun _ t h => ?_
  · exact hs
  obtain ⟨h, rxs, hl, hw⟩ := h
  simp only [ends_look, ends_ite, ends_bind, ends_act, ends_emit]
  refine ⟨fun h' => ?_, fun _ => ⟨by rw [h.same], h.regs, h.transport, h.ticks, rxs, hl, by simp [hw]⟩⟩
  have := h.cs
  simp_all

/-- What a negotiation has done when it ends, with the bus not claimed at its beginning (R160). -/
structure Initialized (s t : State) : Prop where
  same : t = { s with
    version := t.version
    status := t.status
    cs := .deselected
    speed := .fast
    seq := .negEnd
    regs := t.regs
    env := t.env
    wire := t.wire }
  regs : s.regs.negotiationRestored t.regs = s.regs
  transport : s.env.transport = none → t.env.transport = none
  ticks : t.env.tickFair = s.env.tickFair
  session : (t.version = s.version ∧ t.status = s.status) ∨ (t.status = .ready ∧ t.version ≠ .none)
  wire : ∃ rxs l, rxs.length = s.cfg.powerupBytes ∧ (∀ e ∈ l, e.isXchg = true) ∧
    t.wire = s.wire ++ (.setSpeed .slow :: idles rxs ++ .setSpeed .fast :: .select :: l ++ [.deselect])

/-- A negotiation ends, and this is all it can have done. -/
theorem ends_negotiate (hs : F → s.Fair) (hp : s.cfg.ok = true) (hc : s.cs = .deselected) :
    Ends F negotiate s fun _ t => Initialized s t := by
  simp only [negotiate, ends_bind, ends_setSeq, ends_ite]
  have hq : Quiet s { s with seq := .native } := quiet_setSeq rfl
  refine (ends_powerUp (open_of_fair (hq.fair hs)) hc).mono fun _ t h => ?_
  have hcfg : t.cfg = s.cfg := by rw [h.same]
  have ht : F → State.Fair { t with seq := .idleReset } := fun hF =>
    ⟨h.transport (hs hF).transport, h.ticks.trans (hs hF).ticks, hcfg ▸ (hs hF).ready, hcfg ▸ (hs hF).token⟩
  have last {v u : State} (hv : Quiet { t with seq := .idleReset } v) (hu : Negotiated v u) : Initialized s u := by
    have hu := hu.after hv
    obtain ⟨rxs, hl, hw⟩ := h.wire
    obtain ⟨l, hw', hx⟩ := hu.wire
    refine ⟨by rw [hu.same, h.same], ?_, hu.transport ∘ h.transport, hu.ticks.trans h.ticks, ?_,
      rxs, l, hl, hx, by rw [hw']; simp [hw]⟩
    · rw [← restores_negotiation.last s.regs t.regs, hu.regs, h.regs]
    have h1 : t.version = s.version := by rw [h.same]
    have h2 : t.status = s.status := by rw [h.same]
    rw [← h1, ← h2]
    exact hu.session
  refine (ends_command_and 0 0 false ht (hcfg ▸ hp)).mono fun st v hv => ⟨fun _ => ?_, fun _ => ?_⟩
  · exact (ends_interfaceCheck (hv.2.fair ht) (by rw [hv.2.cfg]; exact hcfg ▸ hp)).mono
      fun _ _ hu => last hv.2.quiet hu
  · exact ends_negotiationFails.mono fun _ _ hu => last hv.2.quiet hu

end

end Sys2Proof.Machine
end

