-- ==== Sys2Proof/Laws/Width.lean ====
section
/-! SUPPORT. Every counter stays in its range (10_state.md R28 to R30): `Narrow m s` says so of the procedure
`m` begun at `s`. -/

namespace Sys2Proof.Machine

/-- The parameters are as before, and registers in their ranges stay in them. -/
def WidthStep (s t : State) : Prop := t.cfg = s.cfg ∧ (s.regs.InWidth s.cfg → t.regs.InWidth s.cfg)

abbrev Narrow {α : Type} (m : M α) (s : State) : Prop := Partial m s fun _ t => WidthStep s t

section
variable {α β : Type} {m m' : M α} {f : α → M β} {s : State}

theorem WidthStep.of_same {s t : State} (hc : t.cfg = s.cfg) (hr : t.regs = s.regs) : WidthStep s t :=
  ⟨hc, fun h => hr ▸ h⟩

theorem narrow_pure (a : α) : Narrow (pure a : M α) s := by
  simpa using WidthStep.of_same rfl rfl

theorem narrow_bind (hm : Narrow m s) (hf : ∀ a t, t.cfg = s.cfg → Narrow (f a) t) : Narrow (m >>= f) s := by
  intro b u h
  obtain ⟨a, t, h1, h2⟩ := bind_ok_iff.mp h
  have ht := hm a t h1
  have hu := hf a t ht.1 b u h2
  exact ⟨hu.1.trans ht.1, fun h => ht.1 ▸ hu.2 (ht.1.symm ▸ ht.2 h)⟩

theorem narrow_ite {c : Prop} [Decidable c] (h : c → Narrow m s) (h' : ¬c → Narrow m' s) :
    Narrow (if c then m else m') s := by
  by_cases hc : c
  · simpa [hc] using h hc
  · simpa [hc] using h' hc

theorem narrow_look (g : State → α) : Narrow (look g) s := by simpa using WidthStep.of_same rfl rfl

theorem narrow_param (g : Params → α) : Narrow (param g) s := narrow_look _

theorem narrow_readReg (g : Regs → Option α) : Narrow (readReg g) s := by
  simpa using fun _ _ => WidthStep.of_same rfl rfl

theorem narrow_act {g : State → State} (hc : (g s).cfg = s.cfg) (hr : (g s).regs = s.regs) : Narrow (act g) s := by
  simpa using WidthStep.of_same hc hr

theorem narrow_setSeq (q : Seq) : Narrow (setSeq q) s := narrow_act rfl rfl

theorem narrow_writeRegs {w : Regs → Regs} (h : s.regs.InWidth s.cfg → (w s.regs).InWidth s.cfg) :
    Narrow (writeRegs w) s := by
  simpa using ⟨rfl, h⟩

theorem narrow_xchg (tx : Byte) : Narrow (xchg tx) s := partial_xchg (WidthStep.of_same rfl rfl)

theorem narrow_rx : Narrow rx s := narrow_xchg _

theorem narrow_emit (e : Event) : Narrow (emit e) s := narrow_act rfl rfl

theorem narrow_tickNow : Narrow tickNow s := partial_tickNow.mpr (WidthStep.of_same rfl rfl)

theorem narrow_lastTick (budget : Nat) : Narrow (lastTick budget) s := by
  intro a t h
  unfold lastTick at h
  split at h
  · cases h
    exact .of_same rfl rfl
  · cases h

theorem narrow_pollOnce {judge : Byte → M (Option Bool)} {goOn : M Bool} (hj : ∀ b s, Narrow (judge b) s)
    (hn : ∀ s, Narrow goOn s) : Narrow (pollOnce judge goOn) s :=
  narrow_bind narrow_rx fun b t _ => narrow_bind (hj b t) fun v u _ => by
    cases v with
    | none => exact hn u
    | some r => exact narrow_pure r

theorem narrow_afterPoll {judge : Byte → M (Option Bool)} (hj : ∀ b s, Narrow (judge b) s) (budget : Nat)
    (t0 : Tick) (n : Nat) : Narrow (afterPoll budget t0 judge n) s := by
  induction n generalizing s with
  | zero => exact narrow_bind (narrow_lastTick budget) fun _ _ _ => narrow_pure _
  | succ n ih =>
    exact narrow_bind (narrow_bind narrow_tickNow fun _ _ _ => narrow_pure _) fun _ _ _ =>
      narrow_ite (fun _ => narrow_pure _) fun _ => narrow_pollOnce hj fun _ => ih

theorem narrow_pollWait {judge : Byte → M (Option Bool)} (hj : ∀ b s, Narrow (judge b) s) (budget : Nat)
    (t0 : Tick) : Narrow (pollWait budget t0 judge) s :=
  narrow_bind (narrow_look _) fun _ _ _ => narrow_pollOnce hj fun _ => narrow_afterPoll hj _ _ _

theorem narrow_waitReady : Narrow waitReady s :=
  narrow_bind narrow_tickNow fun _ _ _ =>
    narrow_bind (narrow_writeRegs fun h => ⟨h.tries, h.xtries, h.iter, h.pu, h.bcnt, h.blk, h.ptr, h.reqBuf⟩)
      fun _ _ _ => narrow_bind (narrow_param _) fun _ _ _ => narrow_pollWait (fun _ _ => narrow_pure _) _ _

theorem narrow_sendBytes (l : List Byte) : Narrow (sendBytes l) s := by
  induction l generalizing s with
  | nil => exact narrow_pure _
  | cons b l ih => exact narrow_bind (narrow_xchg b) fun _ _ _ => ih

/-! Commands. -/

theorem narrow_pollResponse (done k : Nat) (h : done + k ≤ s.cfg.nResp) : Narrow (pollResponse done k) s := by
  induction k generalizing s done with
  | zero => exact narrow_pure _
  | succ k ih =>
    refine narrow_bind narrow_rx fun b t ht => narrow_bind (narrow_writeRegs fun hw => ?_) fun _ u hu =>
      narrow_ite (fun _ => ih _ (by rw [hu, ht]; omega)) fun _ => narrow_pure _
    refine ⟨fun n hn => ?_, hw.xtries, hw.iter, hw.pu, hw.bcnt, hw.blk, hw.ptr, hw.reqBuf⟩
    cases hn
    rw [ht]
    omega

theorem narrow_firstPoll {n : Nat} (h : n ≤ s.cfg.nResp) : Narrow (firstPoll n) s := by
  refine narrow_bind (narrow_writeRegs fun hw => ?_) fun _ t ht => narrow_pollResponse 0 n (by rw [ht]; omega)
  refine ⟨fun k hk => ?_, hw.xtries, hw.iter, hw.pu, hw.bcnt, hw.blk, hw.ptr, hw.reqBuf⟩
  cases hk
  exact Nat.zero_le _

theorem narrow_extraPolls (r : Byte) (done k : Nat) (h : done + k ≤ Config.cmd0Extra) :
    Narrow (extraPolls r done k) s := by
  induction k generalizing s r done with
  | zero => exact narrow_pure _
  | succ k ih =>
    refine narrow_ite (fun _ => narrow_pure _) fun _ => narrow_bind narrow_rx fun b t _ =>
      narrow_bind (narrow_writeRegs fun hw => ?_) fun _ _ _ => ih _ _ (by omega)
    refine ⟨hw.tries, fun n hn => ?_, hw.iter, hw.pu, hw.bcnt, hw.blk, hw.ptr, hw.reqBuf⟩
    cases hn
    omega

theorem narrow_cmd0Polls : Narrow cmd0Polls s := by
  refine narrow_bind (narrow_readReg _) fun _ _ _ => narrow_bind (narrow_param _) fun _ _ _ =>
    narrow_ite (fun _ => narrow_bind (narrow_writeRegs fun hw => ?_) fun _ _ _ =>
      narrow_extraPolls _ _ _ (by omega)) fun _ => narrow_pure _
  refine ⟨hw.tries, fun n hn => ?_, hw.iter, hw.pu, hw.bcnt, hw.blk, hw.ptr, hw.reqBuf⟩
  cases hn
  exact Nat.zero_le _

theorem narrow_readPayload : Narrow readPayload s :=
  narrow_bind (narrow_bind narrow_rx fun _ _ _ => narrow_bind narrow_rx fun _ _ _ =>
    narrow_bind narrow_rx fun _ _ _ => narrow_bind narrow_rx fun _ _ _ => narrow_pure _) fun _ _ _ =>
    narrow_bind (narrow_writeRegs fun h => ⟨h.tries, h.xtries, h.iter, h.pu, h.bcnt, h.blk, h.ptr, h.reqBuf⟩)
      fun _ _ _ => narrow_bind (narrow_readReg _) fun _ _ _ =>
        narrow_ite (fun _ => narrow_bind
          (narrow_writeRegs fun h => ⟨h.tries, h.xtries, h.iter, h.pu, h.bcnt, h.blk, h.ptr, h.reqBuf⟩)
          fun _ _ _ => narrow_readReg _) fun _ => narrow_pure _

theorem narrow_sendCommand (idx : BitVec 6) (arg : Word) {n : Nat} (dest : Bool) (h : n ≤ s.cfg.nResp) :
    Narrow (sendCommand idx arg n dest) s := by
  refine narrow_bind (narrow_writeRegs fun h => ⟨h.tries, h.xtries, h.iter, h.pu, h.bcnt, h.blk, h.ptr, h.reqBuf⟩)
    fun _ t ht => narrow_bind (narrow_ite (fun _ => narrow_pure _) fun _ => narrow_waitReady) fun _ u hu =>
      narrow_ite (fun _ => ?_) fun _ => narrow_pure _
  refine narrow_bind (narrow_bind (narrow_readReg _) fun _ _ _ => narrow_sendBytes _) fun _ v hv => ?_
  refine narrow_bind (narrow_firstPoll (by rw [hv, hu, ht]; exact h)) fun _ _ _ =>
    narrow_bind (narrow_ite (fun _ => narrow_cmd0Polls) fun _ => narrow_pure _) fun _ _ _ =>
      narrow_ite (fun _ => narrow_readPayload) fun _ => narrow_readReg _

theorem narrow_command (idx : BitVec 6) (arg : Word) (dest : Bool) : Narrow (command idx arg dest) s := by
  intro b t h
  obtain ⟨n, u, hn, h⟩ := bind_ok_iff.mp h
  cases hn
  exact narrow_sendCommand idx arg dest le_rfl b t h

theorem narrow_cmd8 (dest : Bool) : Narrow (cmd8 dest) s :=
  narrow_bind (narrow_param _) fun _ _ _ => narrow_command _ _ _

theorem narrow_acmd41Hcs : Narrow acmd41Hcs s :=
  narrow_bind (narrow_param _) fun _ _ _ => narrow_command _ _ _

theorem narrow_pollAnswered (b : Byte) : Narrow (pollAnswered b) s := by
  refine narrow_bind (narrow_act rfl rfl) fun _ t _ => ?_
  intro a u h
  obtain ⟨n, v, hn, h⟩ := bind_ok_iff.mp h
  cases hn
  exact narrow_bind (narrow_firstPoll le_rfl) (fun _ _ _ => narrow_readReg _) a u h

/-! Blocks. -/

theorem narrow_pointAt {base i : Nat} (hi : i < Config.blockBytes) (hb : base + i < 2 ^ s.cfg.addrWidth) :
    Narrow (pointAt base i) s := by
  refine narrow_writeRegs fun hw => ⟨hw.tries, hw.xtries, hw.iter, hw.pu, fun n hn => ?_, hw.blk, fun n hn => ?_, hw.reqBuf⟩
  · cases hn
    exact hi
  · cases hn
    exact hb

theorem narrow_streamIn {base i k : Nat} (hi : i + k ≤ Config.blockBytes)
    (hb : base + Config.blockBytes ≤ 2 ^ s.cfg.addrWidth) : Narrow (streamIn base i k) s := by
  induction k generalizing s i with
  | zero => exact narrow_pure _
  | succ k ih =>
    refine narrow_bind (narrow_pointAt (by omega) (by omega)) fun _ t ht => narrow_bind narrow_rx fun b u hu =>
      narrow_bind (narrow_act rfl rfl) fun _ v hv => ih (by omega) (by rw [hv, hu, ht]; exact hb)

theorem narrow_streamOut {base i k : Nat} (hi : i + k ≤ Config.blockBytes)
    (hb : base + Config.blockBytes ≤ 2 ^ s.cfg.addrWidth) : Narrow (streamOut base i k) s := by
  induction k generalizing s i with
  | zero => exact narrow_pure _
  | succ k ih =>
    refine narrow_bind (narrow_pointAt (by omega) (by omega)) fun _ t ht => narrow_bind (narrow_look _) fun b u hu =>
      narrow_bind (narrow_xchg _) fun _ v hv => ih (by omega) (by rw [hv, hu, ht]; exact hb)

theorem narrow_readBlock {base : Nat} (hb : base + Config.blockBytes ≤ 2 ^ s.cfg.addrWidth) :
    Narrow (readBlock base Config.blockBytes) s := by
  refine narrow_bind ?_ fun _ t ht => narrow_ite (fun _ => ?_) fun _ => narrow_pure _
  · exact narrow_bind narrow_tickNow fun _ _ _ =>
      narrow_bind (narrow_writeRegs fun h => ⟨h.tries, h.xtries, h.iter, h.pu, h.bcnt, h.blk, h.ptr, h.reqBuf⟩)
        fun _ _ _ => narrow_bind (narrow_param _) fun _ _ _ => narrow_pollWait (fun _ _ =>
          narrow_bind (narrow_writeRegs fun h => ⟨h.tries, h.xtries, h.iter, h.pu, h.bcnt, h.blk, h.ptr, h.reqBuf⟩)
            fun _ _ _ => narrow_pure _) _ _
  · exact narrow_bind (narrow_streamIn (by omega) (by rw [ht]; exact hb)) fun _ _ _ =>
      narrow_bind narrow_rx fun _ _ _ => narrow_bind narrow_rx fun _ _ _ => narrow_pure _

theorem narrow_readDataResponse : Narrow readDataResponse s :=
  narrow_bind narrow_rx fun _ _ _ =>
    narrow_bind (narrow_writeRegs fun h => ⟨h.tries, h.xtries, h.iter, h.pu, h.bcnt, h.blk, h.ptr, h.reqBuf⟩)
      fun _ _ _ => narrow_pure _

theorem narrow_writeBlock {base : Nat} (token : Byte) (hb : base + Config.blockBytes ≤ 2 ^ s.cfg.addrWidth) :
    Narrow (writeBlock base Config.blockBytes token) s :=
  narrow_bind narrow_waitReady fun _ t ht => narrow_ite (fun _ =>
    narrow_bind (narrow_writeRegs fun h => ⟨h.tries, h.xtries, h.iter, h.pu, h.bcnt, h.blk, h.ptr, h.reqBuf⟩)
      fun _ u hu => narrow_bind (narrow_xchg _) fun _ v hv =>
        narrow_bind (narrow_streamOut (by omega) (by rw [hv, hu, ht]; exact hb)) fun _ _ _ =>
          narrow_bind (narrow_sendBytes _) fun _ _ _ => narrow_bind narrow_readDataResponse fun _ _ _ =>
            narrow_bind narrow_waitReady fun _ _ _ => narrow_pure _) fun _ => narrow_pure _

theorem narrow_stopTran : Narrow stopTran s :=
  narrow_bind (narrow_xchg _) fun _ _ _ => narrow_bind narrow_rx fun _ _ _ =>
    narrow_bind narrow_waitReady fun _ _ _ => narrow_pure _

theorem narrow_stopRead : Narrow stopRead s :=
  narrow_bind (narrow_command _ _ _) fun _ _ _ => narrow_bind narrow_rx fun _ _ _ =>
    narrow_bind narrow_waitReady fun _ _ _ => narrow_pure _

theorem narrow_blocks {block : Nat → M Bool} {count : Nat} (hc : count < 2 ^ 32) (p : Params)
    (hb : ∀ k s, k < count → s.cfg = p → Narrow (block k) s) (k n : Nat) (hk : k + n ≤ count) (hp : s.cfg = p) :
    Narrow (blocks block k n) s := by
  induction n generalizing s k with
  | zero => exact narrow_pure _
  | succ n ih =>
    refine narrow_bind (narrow_writeRegs fun hw => ?_) fun _ t ht => narrow_bind (hb k t (by omega) (by rw [ht, hp]))
      fun _ u hu => narrow_ite (fun _ => ih _ (by omega) (by rw [hu, ht, hp])) fun _ =>
        narrow_writeRegs fun h => ⟨h.tries, h.xtries, h.iter, h.pu, h.bcnt, h.blk, h.ptr, h.reqBuf⟩
    refine ⟨hw.tries, hw.xtries, hw.iter, hw.pu, hw.bcnt, fun m hm => ?_, hw.ptr, hw.reqBuf⟩
    cases hm
    omega

theorem narrow_multiBlock {block : Nat → M Bool} {stop : M Unit} {count : Nat} (hc : count < 2 ^ 32)
    (hb : ∀ k t, k < count → t.cfg = s.cfg → Narrow (block k) t) (hs : ∀ t, Narrow stop t) :
    Narrow (multiBlock block stop count) s :=
  narrow_bind (narrow_setSeq _) fun _ t ht =>
    narrow_bind (narrow_writeRegs fun h => ⟨h.tries, h.xtries, h.iter, h.pu, h.bcnt, h.blk, h.ptr, h.reqBuf⟩)
      fun _ u hu => narrow_bind (narrow_blocks hc s.cfg hb 0 count (by omega) (by rw [hu, ht])) fun _ _ _ =>
        narrow_bind (narrow_bind (narrow_readReg _) fun _ _ _ => narrow_bind (narrow_param _) fun _ _ _ =>
          narrow_ite (fun _ => narrow_bind (narrow_setSeq _) fun _ _ _ => hs _) fun _ => narrow_pure _)
          fun _ _ _ => narrow_readReg _

theorem narrow_sectorCommand (idx : BitVec 6) (sector : Word) {data : M Bool}
    (hd : ∀ t, t.cfg = s.cfg → Narrow data t) : Narrow (sectorCommand idx sector data) s :=
  narrow_bind (narrow_setSeq _) fun _ t ht => narrow_bind (narrow_command _ _ _) fun _ u hu =>
    narrow_ite (fun _ => hd u (by rw [hu, ht])) fun _ => narrow_pure _

/-- The bytes of block `k` fit the address width when the whole buffer does. -/
theorem blockBase_fits {base count k w : Nat} (h : base + Config.blockBytes * count ≤ 2 ^ w) (hk : k < count) :
    blockBase base k + Config.blockBytes ≤ 2 ^ w := by
  have : Config.blockBytes * (k + 1) ≤ Config.blockBytes * count := Nat.mul_le_mul_left _ hk
  rw [Nat.mul_succ] at this
  unfold blockBase
  omega

/-- The sector sequences, with a buffer that fits the address width. -/
structure Fits (s : State) (base count : Nat) : Prop where
  addr : base + Config.blockBytes * count ≤ 2 ^ s.cfg.addrWidth
  count : count < 2 ^ 32

theorem narrow_singleRead (sector : Word) {base : Nat} (h : base + Config.blockBytes ≤ 2 ^ s.cfg.addrWidth) :
    Narrow (singleRead sector base) s :=
  narrow_sectorCommand _ _ fun t ht => narrow_bind (narrow_setSeq _) fun _ u hu =>
    narrow_readBlock (by rw [hu, ht]; exact h)

theorem narrow_singleWrite (sector : Word) {base : Nat} (h : base + Config.blockBytes ≤ 2 ^ s.cfg.addrWidth) :
    Narrow (singleWrite sector base) s :=
  narrow_sectorCommand _ _ fun t ht => narrow_bind (narrow_setSeq _) fun _ u hu =>
    narrow_writeBlock _ (by rw [hu, ht]; exact h)

theorem narrow_multiRead (sector : Word) {base count : Nat} (h : Fits s base count) :
    Narrow (multiRead sector base count) s :=
  narrow_sectorCommand _ _ fun t ht => narrow_multiBlock h.count
    (fun k u hk hu => narrow_readBlock (by rw [hu, ht]; exact blockBase_fits h.addr hk)) fun _ => narrow_stopRead

theorem narrow_multiWrite (sector : Word) {base count : Nat} (h : Fits s base count) :
    Narrow (multiWrite sector base count) s :=
  narrow_sectorCommand _ _ fun t ht => narrow_multiBlock h.count
    (fun k u hk hu => narrow_writeBlock _ (by rw [hu, ht]; exact blockBase_fits h.addr hk)) fun _ => narrow_stopTran

/-! Negotiation. -/

theorem narrow_dummyBytes (done k : Nat) (h : done + k ≤ s.cfg.powerupBytes) : Narrow (dummyBytes done k) s := by
  induction k generalizing s done with
  | zero => exact narrow_pure _
  | succ k ih =>
    refine narrow_bind (narrow_writeRegs fun hw => ?_) fun _ t ht => narrow_bind (narrow_xchg _) fun _ u hu =>
      ih _ (by rw [hu, ht]; omega)
    refine ⟨hw.tries, hw.xtries, hw.iter, fun n hn => ?_, hw.bcnt, hw.blk, hw.ptr, hw.reqBuf⟩
    cases hn
    omega

theorem narrow_select : Narrow select s :=
  narrow_bind (narrow_look _) fun _ _ _ => narrow_ite (fun _ => by simp [Narrow]) fun _ =>
    narrow_bind (narrow_act rfl rfl) fun _ _ _ => narrow_emit _

theorem narrow_deselect : Narrow deselect s := narrow_bind (narrow_act rfl rfl) fun _ _ _ => narrow_emit _

theorem narrow_setSpeed (v : Speed) : Narrow (setSpeed v) s := narrow_bind (narrow_act rfl rfl) fun _ _ _ => narrow_emit _

theorem narrow_powerUp : Narrow powerUp s := by
  refine narrow_bind (narrow_setSpeed _) fun _ t _ => ?_
  intro a u h
  obtain ⟨n, v, hn, h⟩ := bind_ok_iff.mp h
  cases hn
  exact narrow_bind (narrow_dummyBytes 0 _ (Nat.zero_add _).le) (fun _ _ _ =>
    narrow_bind (narrow_setSpeed _) fun _ _ _ => narrow_select) a u h

theorem narrow_attempts {m : M Byte} (hm : ∀ t, Narrow m t) (done k : Nat) (h : done + k ≤ Config.initIter) :
    Narrow (attempts m done k) s := by
  induction k generalizing s done with
  | zero => exact narrow_pure _
  | succ k ih =>
    refine narrow_bind (narrow_writeRegs fun hw => ?_) fun _ _ _ => narrow_bind (hm _) fun _ _ _ =>
      narrow_ite (fun _ => narrow_pure _) fun _ => ih _ (by omega)
    refine ⟨hw.tries, hw.xtries, fun n hn => ?_, hw.pu, hw.bcnt, hw.blk, hw.ptr, hw.reqBuf⟩
    cases hn
    omega

theorem narrow_appCommand {m : M Byte} (hm : ∀ t, Narrow m t) : Narrow (appCommand m) s :=
  narrow_bind (narrow_command _ _ _) fun _ _ _ => hm _

theorem narrow_negotiationFails : Narrow negotiationFails s :=
  narrow_bind (narrow_setSeq _) fun _ _ _ => narrow_deselect

theorem narrow_negotiationReady : Narrow negotiationReady s :=
  narrow_bind (narrow_setSeq _) fun _ _ _ => narrow_bind (narrow_readReg _) fun _ _ _ =>
    narrow_bind (narrow_act rfl rfl) fun _ _ _ => narrow_deselect

theorem narrow_setBlockLength : Narrow setBlockLength s :=
  narrow_bind (narrow_command _ _ _) fun _ _ _ => narrow_ite (fun _ => narrow_negotiationReady) fun _ =>
    narrow_negotiationFails

theorem narrow_readOcr : Narrow readOcr s :=
  narrow_bind (narrow_setSeq _) fun _ _ _ => narrow_bind (narrow_command _ _ _) fun _ _ _ =>
    narrow_ite (fun _ => narrow_bind (narrow_readReg _) fun _ _ _ =>
      narrow_bind (narrow_writeRegs fun h => ⟨h.tries, h.xtries, h.iter, h.pu, h.bcnt, h.blk, h.ptr, h.reqBuf⟩)
        fun _ _ _ => narrow_bind (narrow_setSeq _) fun _ _ _ => narrow_bind (narrow_readReg _) fun _ _ _ =>
          narrow_bind (narrow_param _) fun _ _ _ => narrow_ite (fun _ => narrow_negotiationReady) fun _ =>
            narrow_setBlockLength) fun _ => narrow_negotiationFails

theorem narrow_voltageCheckPath : Narrow voltageCheckPath s :=
  narrow_bind (narrow_readReg _) fun _ _ _ =>
    narrow_bind (narrow_writeRegs fun h => ⟨h.tries, h.xtries, h.iter, h.pu, h.bcnt, h.blk, h.ptr, h.reqBuf⟩)
      fun _ _ _ => narrow_bind (narrow_param _) fun _ _ _ => narrow_ite (fun _ =>
        narrow_bind (narrow_setSeq _) fun _ _ _ =>
          narrow_bind (narrow_attempts (fun _ => narrow_appCommand fun _ => narrow_acmd41Hcs) 0 _ (by omega))
            fun _ _ _ => narrow_ite (fun _ => narrow_readOcr) fun _ => narrow_negotiationFails)
        fun _ => narrow_negotiationFails

theorem narrow_configureLegacy (v : Version) : Narrow (configureLegacy v) s :=
  narrow_bind (narrow_writeRegs fun h => ⟨h.tries, h.xtries, h.iter, h.pu, h.bcnt, h.blk, h.ptr, h.reqBuf⟩)
    fun _ _ _ => narrow_bind (narrow_setSeq _) fun _ _ _ => narrow_setBlockLength

theorem narrow_legacyPath : Narrow legacyPath s :=
  narrow_bind (narrow_setSeq _) fun _ _ _ =>
    narrow_bind (narrow_writeRegs fun h => ⟨h.tries, h.xtries, h.iter, h.pu, h.bcnt, h.blk, h.ptr, h.reqBuf⟩)
      fun _ _ _ => narrow_bind
        (narrow_attempts (fun _ => narrow_appCommand fun _ => narrow_command _ _ _) 0 _ (by omega)) fun _ _ _ =>
          narrow_ite (fun _ => narrow_configureLegacy _) fun _ =>
            narrow_bind (narrow_setSeq _) fun _ _ _ =>
              narrow_bind (narrow_attempts (fun _ => narrow_command _ _ _) 0 _ (by omega)) fun _ _ _ =>
                narrow_ite (fun _ => narrow_configureLegacy _) fun _ => narrow_negotiationFails

theorem narrow_negotiate : Narrow negotiate s :=
  narrow_bind (narrow_setSeq _) fun _ _ _ => narrow_bind narrow_powerUp fun _ _ _ =>
    narrow_bind (narrow_setSeq _) fun _ _ _ => narrow_bind (narrow_command _ _ _) fun _ _ _ =>
      narrow_ite (fun _ => narrow_bind (narrow_setSeq _) fun _ _ _ => narrow_bind (narrow_cmd8 _) fun _ _ _ =>
        narrow_ite (fun _ => narrow_voltageCheckPath) fun _ => narrow_legacyPath) fun _ => narrow_negotiationFails

end

end Sys2Proof.Machine
end

