-- ==== Sys2Proof/Laws/Facade.lean ====
section
/-! SUPPORT. What a request can do, each procedure said once: arbitration, the transfers, the negotiation. -/

namespace Sys2Proof.Machine

/-- The state a request is served in (44_facade.md R220). -/
def State.accepted (s : State) (op : Byte) (q : ReqArgs) : State :=
  { s with
    busy := true
    regs := Regs.latched op q }

/-- The state after a request whose service ended in `u` with the result `r` (R220). -/
def State.concluded (u : State) (r : Byte) : State :=
  { u with
    seq := .idle
    busy := false
    regs := { u.regs with result := some r }
    delivered := u.delivered ++ [r] }

section
variable {F : Prop} {s t : State} {op : Byte} {q : ReqArgs} {serve : M Byte}

@[simp] theorem State.accepted_env : (s.accepted op q).env = s.env := rfl
@[simp] theorem State.accepted_cfg : (s.accepted op q).cfg = s.cfg := rfl
@[simp] theorem State.accepted_cs : (s.accepted op q).cs = s.cs := rfl
@[simp] theorem State.accepted_mem : (s.accepted op q).mem = s.mem := rfl
@[simp] theorem State.accepted_wire : (s.accepted op q).wire = s.wire := rfl
@[simp] theorem State.accepted_seq : (s.accepted op q).seq = s.seq := rfl
@[simp] theorem State.accepted_status : (s.accepted op q).status = s.status := rfl
@[simp] theorem State.accepted_version : (s.accepted op q).version = s.version := rfl
@[simp] theorem State.accepted_speed : (s.accepted op q).speed = s.speed := rfl
@[simp] theorem State.accepted_regions : (s.accepted op q).regions = s.regions := rfl
@[simp] theorem State.accepted_inbox : (s.accepted op q).inbox = s.inbox := rfl
@[simp] theorem State.accepted_delivered : (s.accepted op q).delivered = s.delivered := rfl
@[simp] theorem State.accepted_ret : (s.accepted op q).ret = s.ret := rfl
@[simp] theorem State.accepted_intrusions : (s.accepted op q).intrusions = s.intrusions := rfl
@[simp] theorem State.accepted_bufferOk (acc : Access) (base n : Nat) :
    (s.accepted op q).bufferOk acc base n = s.bufferOk acc base n := rfl
@[simp] theorem State.accepted_regs : (s.accepted op q).regs = Regs.latched op q := rfl

theorem enter_of_legal (h : s.Legal) : enter s = .ok () s := by simp [enter, h.seq, h.cfg]

theorem accept_of_free (h : s.Free) : accept op q s = .ok () (s.accepted op q) := by
  simp [accept, h.busy, h.alone, State.accepted]

/-- A request accepted is served and concluded. -/
theorem request_of_free (hl : s.Legal) (hf : s.Free) :
    request op q serve s =
      (serve >>= fun r => do
        writeRegs fun x => { x with result := some r }
        conclude) (s.accepted op q) := by
  simp only [request, bind, EStateM.bind, enter_of_legal hl, accept_of_free hf]

theorem ends_request (hl : s.Legal) (hf : s.Free) {Q : State → Prop}
    (h : Ends F serve (s.accepted op q) fun r u => Q (u.concluded r)) :
    Ends F (request op q serve) s fun _ t => Q t := by
  unfold Ends
  rw [request_of_free hl hf]
  show Ends F _ _ _
  simp only [ends_bind, ends_writeRegs, conclude, ends_readReg, ends_setSeq, ends_act]
  exact h.mono fun r u hu => ⟨r, rfl, hu⟩

/-- What a request that answers a next state has done. -/
theorem request_next (h : run (request op q serve) s = .next t) :
    s.Legal ∧ s.busy = false ∧ s.intrusions.any HostAct.isOverlap = false ∧
      ∃ r u, serve (s.accepted op q) = .ok r u ∧ t = u.concluded r := by
  obtain ⟨_, s1, h1, h⟩ := bind_ok_iff.mp (run_eq_next_iff.mp h)
  obtain ⟨_, s2, h2, h⟩ := bind_ok_iff.mp h
  obtain ⟨r, u, h3, h⟩ := bind_ok_iff.mp h
  revert h3 h
  unfold enter at h1
  split at h1
  · cases h1
  split at h1
  · rename_i hseq hcfg
    cases h1
    unfold accept at h2
    split at h2
    · cases h2
    split at h2
    · cases h2
    rename_i hb hi
    cases h2
    intro h3 h
    have ht : t = u.concluded r := by
      cases h
      rfl
    exact ⟨⟨by simpa using hseq, hcfg⟩, by simpa using hb, by simpa using hi, r, u, h3, ht⟩
  · cases h1

/-- A request meets no internal fault when its service meets none. -/
theorem request_no_internalFault (hs : s.seq.unused = false)
    (h : s.cfg.ok = true → ∀ c u, serve (s.accepted op q) ≠ .error (.fault (.internalFault c)) u) (c : InternalCause) :
    run (request op q serve) s ≠ .fault (.internalFault c) := by
  intro hr
  have hr : ∃ u, request op q serve s = .error (.fault (.internalFault c)) u := by
    unfold run at hr
    split at hr
    · cases hr
    · cases hr
      exact ⟨_, ‹_›⟩
    · cases hr
  obtain ⟨u, hr⟩ := hr
  by_cases hc : s.cfg.ok = true
  · by_cases hb : s.busy = true
    · simp [request, bind, EStateM.bind, enter, hs, hc, accept, hb] at hr
    · by_cases hi : s.intrusions.any HostAct.isOverlap = true
      · simp [request, bind, EStateM.bind, enter, hs, hc, accept, hb, hi] at hr
      · have ha : accept op q s = .ok () (s.accepted op q) := by simp [accept, hb, hi, State.accepted]
        have he : enter s = .ok () s := by simp [enter, hs, hc]
        simp only [request, bind, EStateM.bind, he, ha] at hr
        cases hm : serve (s.accepted op q) with
        | ok r v => simp [hm, writeRegs, act, conclude, readReg, setSeq, bind, EStateM.bind] at hr
        | error e v =>
          simp only [hm] at hr
          cases hr
          exact h hc c u hm
  · simp [request, bind, EStateM.bind, enter, hs, hc] at hr

/-! Transfers. -/

/-- What a claimed transfer has done (R224, R225). -/
structure Transferred (R : Memory → Memory → Prop) (s t : State) : Prop where
  same : t = { s with
    cs := .deselected
    seq := .result
    regs := t.regs
    mem := t.mem
    env := t.env
    wire := t.wire }
  regs : s.regs.sectorRestored t.regs = s.regs
  mem : R s.mem t.mem
  transport : s.env.transport = none → t.env.transport = none
  ticks : t.env.tickFair = s.env.tickFair
  wire : ∃ l, t.wire = s.wire ++ (.select :: l ++ [.deselect]) ∧ ∀ e ∈ l, e.isXchg = true

/-- The state with the bus claimed. -/
def State.claimed (s : State) : State :=
  { s with
    cs := .selected
    wire := s.wire ++ [.select] }

@[simp] theorem State.claimed_env : s.claimed.env = s.env := rfl
@[simp] theorem State.claimed_cfg : s.claimed.cfg = s.cfg := rfl
@[simp] theorem State.claimed_mem : s.claimed.mem = s.mem := rfl
@[simp] theorem State.claimed_regs : s.claimed.regs = s.regs := rfl

theorem ends_claimedTransfer {R : Memory → Memory → Prop} {sequence : M Bool} (hc : s.cs = .deselected)
    (h : Ends F sequence s.claimed fun _ _ => True) (hk : Keeps (Sector R) sequence) :
    Ends F (claimedTransfer sequence) s fun r t => (r = resultOk ∨ r = resultError) ∧ Transferred R s t := by
  simp only [claimedTransfer, select, deselect, ends_bind, ends_look, ends_ite, ends_act, ends_emit, ends_setSeq,
    ends_pure]
  refine ⟨fun h' => by simp [hc] at h', fun _ => ?_⟩
  refine (h.and (hk _)).mono fun good u hu => ?_
  have hu := hu.2
  obtain ⟨l, hl, hx⟩ := hu.wire
  refine ⟨by cases good <;> simp, ⟨?_, hu.regs, hu.mem, hu.transport, hu.ticks, l, ?_, hx⟩⟩
  · rw [hu.same]
    rfl
  · simp [hl, State.claimed]

/-- The latched fields read back. -/
theorem latchedRequest_accepted :
    latchedRequest (s.accepted op q) = .ok ⟨q.unit, q.buf, q.sector, q.count, 0⟩ (s.accepted op q) := rfl

/-- The sequence a transfer runs. -/
def chosen (q : ReqArgs) (single : Word → Nat → M Bool) (multi : Word → Nat → Nat → M Bool) : M Bool :=
  if q.count = 1 then single q.sector q.buf else multi q.sector q.buf q.count.toNat

variable {acc : Access} {single : Word → Nat → M Bool} {multi : Word → Nat → Nat → M Bool}

/-- A span is accessible when each of its bytes is. -/
theorem spanAccessible_iff {rs : List Region} {lo hi : Nat} : spanAccessible acc rs lo hi = true ↔
    ∀ x, lo ≤ x → x < hi → ∃ r ∈ rs, r.permits acc = true ∧ r.base ≤ x ∧ x < r.base + r.size := by
  induction rs generalizing lo hi with
  | nil =>
    simp only [spanAccessible, decide_eq_true_eq, List.not_mem_nil, false_and, exists_false, imp_false, not_lt]
    exact ⟨fun h x hx => h.trans hx, fun h => h lo le_rfl⟩
  | cons r rs ih =>
    unfold spanAccessible
    split
    · rename_i hp
      rw [Bool.and_eq_true, ih, ih]
      constructor
      · rintro ⟨below, above⟩ x hlo hhi
        by_cases h : r.base ≤ x ∧ x < r.base + r.size
        · exact ⟨r, List.mem_cons_self, hp, h⟩
        · have : ∃ r ∈ rs, r.permits acc = true ∧ r.base ≤ x ∧ x < r.base + r.size := by
            rcases Nat.lt_or_ge x r.base with hb | hb
            · exact below x hlo (by omega)
            · exact above x (by omega) hhi
          obtain ⟨r', hr', h'⟩ := this
          exact ⟨r', List.mem_cons_of_mem _ hr', h'⟩
      · intro h
        refine ⟨fun x hlo hhi => ?_, fun x hlo hhi => ?_⟩ <;>
          obtain ⟨r', hr', hp', hx⟩ := h x (by omega) (by omega) <;>
          rcases List.mem_cons.mp hr' with rfl | hr'
        · omega
        · exact ⟨r', hr', hp', hx⟩
        · omega
        · exact ⟨r', hr', hp', hx⟩
    · rename_i hp
      rw [ih]
      refine forall₃_congr fun x _ _ => ?_
      simp only [List.mem_cons, exists_eq_or_imp, hp, false_and, false_or, Bool.false_eq_true]

/-- The check of R228 (b) holds exactly when every byte is accessible and the span does not overflow. -/
theorem bufferOk_iff {base n : Nat} : s.bufferOk acc base n = true ↔ s.Accessible acc base n := by
  simp only [State.bufferOk, State.Accessible, Bool.and_eq_true, spanAccessible_iff, spanFits, addrFits, Bool.or_eq_true,
    beq_iff_eq, decide_eq_true_eq]

/-- The duties toward the buffer, kept. -/
theorem bufferUntouched_of {base n : Nat} (h : s.intrusions.any (HostAct.touches base n) = false) :
    bufferUntouched base n s = .ok () s := by simp [bufferUntouched, h]

theorem bufferAccessible_of {base n : Nat} (h : s.bufferOk acc base n = true) :
    bufferAccessible acc base n s = .ok () s := by simp [bufferAccessible, h]

/-- The duties toward the buffer, broken (60_exceptions.md R245). -/
theorem bufferUntouched_refuses {base n : Nat} (h : s.intrusions.any (HostAct.touches base n) = true) :
    bufferUntouched base n s = .error (.refuse .bufferTouched) s := by simp [bufferUntouched, h]

theorem bufferAccessible_refuses {base n : Nat} (h : s.bufferOk acc base n = false) :
    bufferAccessible acc base n s = .error (.refuse .badBuffer) s := by simp [bufferAccessible, h]

/-- A transfer whose buffer the host touches is refused, whatever its preconditions (20_memory.md R64). -/
theorem transfer_touched (h : s.intrusions.any (HostAct.touches q.buf (requestBytes q.count)) = true) :
    transfer acc single multi (s.accepted op q) = .error (.refuse .bufferTouched) (s.accepted op q) := by
  simp only [transfer, bind, EStateM.bind, latchedRequest_accepted,
    bufferUntouched_refuses (s := s.accepted op q) (base := q.buf) (n := requestBytes q.count) h]

/-- A transfer whose buffer the host leaves alone goes on to its preconditions. -/
theorem transfer_untouched (h : s.intrusions.any (HostAct.touches q.buf (requestBytes q.count)) = false) :
    transfer acc single multi (s.accepted op q) =
      match precondition s.status q.unit q.count with
      | some r => .ok r (s.accepted op q)
      | none => (bufferAccessible acc q.buf (requestBytes q.count) >>= fun _ =>
          claimedTransfer (chosen q single multi)) (s.accepted op q) := by
  simp only [transfer, bind, EStateM.bind, latchedRequest_accepted, look, State.accepted_status,
    bufferUntouched_of (s := s.accepted op q) (base := q.buf) (n := requestBytes q.count) h]
  cases precondition s.status q.unit q.count <;> rfl

theorem transfer_precondition {r : Byte} (hu : s.intrusions.any (HostAct.touches q.buf (requestBytes q.count)) = false)
    (h : precondition s.status q.unit q.count = some r) :
    transfer acc single multi (s.accepted op q) = .ok r (s.accepted op q) := by
  rw [transfer_untouched hu, h]

theorem transfer_claimed (h : precondition s.status q.unit q.count = none) (hb : s.Lends acc q.buf (requestBytes q.count)) :
    transfer acc single multi (s.accepted op q) = claimedTransfer (chosen q single multi) (s.accepted op q) := by
  rw [transfer_untouched hb.untouched, h]
  simp only [bind, EStateM.bind, bufferAccessible_of (s := s.accepted op q) (base := q.buf) (n := requestBytes q.count) hb.ok]

/-- A buffer that is not accessible is refused by a transfer that would use it (R245). -/
theorem transfer_badBuffer (hu : s.intrusions.any (HostAct.touches q.buf (requestBytes q.count)) = false)
    (h : precondition s.status q.unit q.count = none) (hb : s.bufferOk acc q.buf (requestBytes q.count) = false) :
    transfer acc single multi (s.accepted op q) = .error (.refuse .badBuffer) (s.accepted op q) := by
  rw [transfer_untouched hu, h]
  simp only [bind, EStateM.bind,
    bufferAccessible_refuses (s := s.accepted op q) (base := q.buf) (n := requestBytes q.count) hb]

/-- All a transfer can do: it is refused for its buffer, a precondition answers, or it claims the bus. -/
theorem transfer_cases :
    (∃ r, transfer acc single multi (s.accepted op q) = .error (.refuse r) (s.accepted op q)) ∨
    (s.intrusions.any (HostAct.touches q.buf (requestBytes q.count)) = false ∧ ∃ r,
      precondition s.status q.unit q.count = some r ∧ transfer acc single multi (s.accepted op q) = .ok r (s.accepted op q)) ∨
    (precondition s.status q.unit q.count = none ∧ s.Lends acc q.buf (requestBytes q.count) ∧
      transfer acc single multi (s.accepted op q) = claimedTransfer (chosen q single multi) (s.accepted op q)) := by
  cases hu : s.intrusions.any (HostAct.touches q.buf (requestBytes q.count)) with
  | true => exact .inl ⟨_, transfer_touched hu⟩
  | false =>
    cases hpre : precondition s.status q.unit q.count with
    | some r => exact .inr (.inl ⟨rfl, r, rfl, transfer_precondition hu hpre⟩)
    | none =>
      cases hok : s.bufferOk acc q.buf (requestBytes q.count) with
      | true => exact .inr (.inr ⟨rfl, ⟨hok, hu⟩, transfer_claimed hpre ⟨hok, hu⟩⟩)
      | false => exact .inl ⟨_, transfer_badBuffer hu hpre hok⟩

/-- A transfer meets no internal fault when its claimed part meets none. -/
theorem transfer_no_internalFault {Q : Byte → State → Prop}
    (hc : Ends F (claimedTransfer (chosen q single multi)) (s.accepted op q) Q) (c : InternalCause) (u : State) :
    transfer acc single multi (s.accepted op q) ≠ .error (.fault (.internalFault c)) u := by
  rcases transfer_cases (s := s) (op := op) (q := q) (acc := acc) (single := single) (multi := multi) with
    ⟨r, h⟩ | ⟨-, r, -, h⟩ | ⟨-, -, h⟩ <;> rw [h]
  · simp
  · simp
  · exact hc.no_internalFault c u

/-- What a transfer that ends has done: its buffer was left alone, and a precondition answered or the transfer claimed
the bus. -/
theorem transfer_ok {r : Byte} {u : State} (h : transfer acc single multi (s.accepted op q) = .ok r u) :
    s.intrusions.any (HostAct.touches q.buf (requestBytes q.count)) = false ∧
    ((precondition s.status q.unit q.count = some r ∧ u = s.accepted op q) ∨
    (precondition s.status q.unit q.count = none ∧ s.Lends acc q.buf (requestBytes q.count) ∧
      claimedTransfer (chosen q single multi) (s.accepted op q) = .ok r u)) := by
  rcases transfer_cases (s := s) (op := op) (q := q) (acc := acc) (single := single) (multi := multi) with
    ⟨r', h'⟩ | ⟨hu, r', hp, h'⟩ | ⟨hp, hl, h'⟩ <;> rw [h'] at h
  · cases h
  · cases h
    exact ⟨hu, .inl ⟨hp, rfl⟩⟩
  · exact ⟨hl.untouched, .inr ⟨hp, hl, h⟩⟩

/-- A read writes its buffer only (R224). -/
theorem ends_chosenRead (hs : F → s.Fair) (hp : s.cfg.ok = true) :
    Ends F (chosen q singleRead multiRead) s fun _ _ => True := by
  unfold chosen
  split
  · exact ends_singleRead _ _ hs hp
  · exact ends_multiRead _ _ _ hs hp

theorem sector_chosenRead :
    Keeps (Sector (StoresOnly q.buf (requestBytes q.count))) (chosen q singleRead multiRead) := by
  unfold chosen requestBytes
  split
  · rename_i h
    rw [h]
    exact sector_singleRead _ _
  · exact sector_multiRead _ _ _

/-- A write never writes memory (R225). -/
theorem ends_chosenWrite (hs : F → s.Fair) (hp : s.cfg.ok = true) :
    Ends F (chosen q singleWrite multiWrite) s fun _ _ => True := by
  unfold chosen
  split
  · exact ends_singleWrite _ _ hs hp
  · exact ends_multiWrite _ _ _ hs hp

theorem sector_chosenWrite : Keeps (Sector fun a b => b = a) (chosen q singleWrite multiWrite) := by
  unfold chosen
  split
  · exact sector_singleWrite _ _
  · exact sector_multiWrite _ _ _

theorem ends_claimedRead (hs : F → s.Fair) (hp : s.cfg.ok = true) (hc : s.cs = .deselected) :
    Ends F (claimedTransfer (chosen q singleRead multiRead)) s fun r t =>
      (r = resultOk ∨ r = resultError) ∧ Transferred (StoresOnly q.buf (requestBytes q.count)) s t := by
  refine ends_claimedTransfer hc (ends_chosenRead ?_ hp) sector_chosenRead
  exact fair_same hs rfl rfl

theorem ends_claimedWrite (hs : F → s.Fair) (hp : s.cfg.ok = true) (hc : s.cs = .deselected) :
    Ends F (claimedTransfer (chosen q singleWrite multiWrite)) s fun r t =>
      (r = resultOk ∨ r = resultError) ∧ Transferred (fun a b => b = a) s t := by
  refine ends_claimedTransfer hc (ends_chosenWrite ?_ hp) sector_chosenWrite
  exact fair_same hs rfl rfl

/-- `Initialize()` on an uninitialized session (R223). -/
theorem initSession_uninitialized (h : s.status ≠ .ready) :
    initSession s = (negotiate >>= fun _ => sessionWord) s := by
  simp [initSession, look, bind, EStateM.bind, h]

theorem initSession_ready (h : s.status = .ready) : initSession s = .ok 0x00 s := by
  simp [initSession, look, bind, EStateM.bind, h]
  rfl

theorem ends_initSession (hs : F → s.Fair) (hp : s.cfg.ok = true) (hc : s.cs = .deselected)
    (h : s.status ≠ .ready) :
    Ends F initSession s fun r t => r = statusWord t.status ∧ Initialized s t := by
  unfold Ends
  rw [initSession_uninitialized h]
  show Ends F _ _ _
  simp only [ends_bind, sessionWord, ends_look, ends_pure]
  exact (ends_negotiate hs hp hc).mono fun _ t h => ⟨trivial, h⟩

theorem narrow_chosenRead (h : Fits s q.buf q.count.toNat) : Narrow (chosen q singleRead multiRead) s := by
  unfold chosen
  split
  · rename_i hc
    have := h.addr
    rw [hc] at this
    exact narrow_singleRead _ this
  · exact narrow_multiRead _ h

theorem narrow_chosenWrite (h : Fits s q.buf q.count.toNat) : Narrow (chosen q singleWrite multiWrite) s := by
  unfold chosen
  split
  · rename_i hc
    have := h.addr
    rw [hc] at this
    exact narrow_singleWrite _ this
  · exact narrow_multiWrite _ h

/-- A lent buffer fits the address width. -/
theorem State.Lends.fits {count : Word} {base : Nat} (h : s.Lends acc base (requestBytes count)) :
    Fits s base count.toNat := by
  refine ⟨?_, count.isLt⟩
  have := h.ok
  simp only [State.bufferOk, spanFits, addrFits, Bool.and_eq_true, Bool.or_eq_true, beq_iff_eq, decide_eq_true_eq] at this
  unfold requestBytes at this
  have := Nat.pos_of_ne_zero (Nat.ne_of_gt (Nat.two_pow_pos s.cfg.addrWidth))
  omega

end

end Sys2Proof.Machine
end

