-- ==== Sys2Proof/Laws/Trace.lean ====
section
/-! SUPPORT. What the procedures put on the wire and into memory, each said once. -/

namespace Sys2Proof.Machine

@[simp] theorem idles_nil : idles [] = [] := rfl
@[simp] theorem idles_cons (b : Byte) (l : List Byte) : idles (b :: l) = .xchg 0xFF b :: idles l := rfl
@[simp] theorem idles_append (l l' : List Byte) : idles (l ++ l') = idles l ++ idles l' := by simp [idles]
@[simp] theorem exchanges_nil (l : List Byte) : exchanges [] l = [] := by simp [exchanges]
@[simp] theorem exchanges_cons (t : Byte) (ts : List Byte) (r : Byte) (rs : List Byte) :
    exchanges (t :: ts) (r :: rs) = .xchg t r :: exchanges ts rs := rfl

theorem exchanges_append {ts rs : List Byte} (h : ts.length = rs.length) (ts' rs' : List Byte) :
    exchanges (ts ++ ts') (rs ++ rs') = exchanges ts rs ++ exchanges ts' rs' := by
  simp [exchanges, List.zipWith_append h]

/-- The procedure leaves the payload's destination alone. -/
def SameExt (s t : State) : Prop := t.regs.extDest = s.regs.extDest ∧ t.regs.extOut = s.regs.extOut

section
variable {s t u : State}

theorem trace_waitReady : Partial waitReady s fun r t =>
    ∃ rxs, WaitRun r rxs ∧ t.wire = s.wire ++ idles rxs ∧ t.cfg = s.cfg ∧ SameExt s t := by
  refine (wire_waitReady.and (keeps_waitReady s)).mono fun r t h => ?_
  obtain ⟨⟨rxs, last, hw, hx, hr⟩, hk⟩ := h
  exact ⟨rxs ++ [last], ⟨rxs, last, rfl, hx, hr⟩, hw, hk.cfg,
    by rw [hk.wait_same], by rw [hk.wait_same]⟩

theorem trace_sendBytes (l : List Byte) : Partial (sendBytes l) s fun _ t =>
    ∃ rxs : List Byte, rxs.length = l.length ∧ t.wire = s.wire ++ exchanges l rxs ∧ t.regs = s.regs := by
  induction l generalizing s with
  | nil =>
    simp only [sendBytes, partial_pure]
    exact ⟨[], rfl, by simp, trivial⟩
  | cons b l ih =>
    simp only [sendBytes, partial_bind]
    refine partial_xchg (ih.mono fun _ t h => ?_)
    obtain ⟨rxs, hl, hw, hr⟩ := h
    exact ⟨s.env.answer :: rxs, by simp [hl], by simp [hw], hr⟩

theorem trace_receiveWord : Partial receiveWord s fun w t =>
    ∃ l : List Byte, l.length = 4 ∧ w = payloadWord l ∧ t.wire = s.wire ++ idles l ∧ t.regs = s.regs := by
  simp only [receiveWord, partial_bind, partial_pure]
  refine partial_rx (partial_rx (partial_rx (partial_rx ?_)))
  exact ⟨[_, _, _, _], rfl, rfl, by simp, rfl⟩

/-- The first poll loop (41_command.md R123). -/
theorem trace_pollResponse (done k : Nat) (hk : 1 ≤ k) : Partial (pollResponse done k) s fun _ t =>
    ∃ (pending : List Byte) (status : Byte), t.wire = s.wire ++ idles (pending ++ [status]) ∧
      (∀ b ∈ pending, unresolved b = true) ∧ pending.length < k ∧
      (unresolved status = true → pending.length + 1 = k) ∧
      t.regs = { s.regs with
        resp := some status
        tries := some (done + pending.length + 1) } := by
  induction k generalizing s done with
  | zero => omega
  | succ k ih =>
    simp only [pollResponse, partial_bind]
    refine partial_rx ?_
    simp only [partial_writeRegs, partial_ite, partial_pure]
    refine ⟨fun hu => ?_, fun hu => ?_⟩
    · rcases Nat.eq_zero_or_pos k with rfl | hk'
      · simp only [pollResponse, partial_pure]
        exact ⟨[], s.env.answer, rfl, by simp, by simp, by simp, rfl⟩
      · refine (ih (done + 1) hk').mono fun _ t h => ?_
        obtain ⟨pending, status, hw, hp, hl, hs, hr⟩ := h
        refine ⟨s.env.answer :: pending, status, by simp [hw], ?_, by simpa using hl, fun h => by simp [hs h], ?_⟩
        · exact fun b hb => (List.mem_cons.mp hb).elim (fun h => h ▸ hu) (hp b)
        · rw [hr]
          simp only [List.length_cons]
          congr 2
          omega
    · exact ⟨[], s.env.answer, rfl, by simp, by simp, fun h => absurd h hu, rfl⟩

theorem trace_firstPoll {n : Nat} (hn : 1 ≤ n) : Partial (firstPoll n) s fun _ t =>
    ∃ (pending : List Byte) (status : Byte), t.wire = s.wire ++ idles (pending ++ [status]) ∧
      (∀ b ∈ pending, unresolved b = true) ∧ pending.length < n ∧
      (unresolved status = true → pending.length + 1 = n) ∧
      t.regs = { s.regs with
        resp := some status
        tries := some (pending.length + 1) } := by
  simp only [firstPoll, partial_bind, partial_writeRegs]
  refine (trace_pollResponse 0 n hn).mono fun _ t h => ?_
  obtain ⟨pending, status, hw, hp, hl, hs, hr⟩ := h
  exact ⟨pending, status, hw, hp, hl, hs, by simp [hr]⟩

/-- CMD0's additional polls (R124). -/
theorem trace_extraPolls (r : Byte) (done k : Nat) (hr : s.regs.resp = some r) :
    Partial (extraPolls r done k) s fun _ t =>
      ∃ extra : List Byte, t.wire = s.wire ++ idles extra ∧ extra.length ≤ k ∧ (∀ b ∈ extra.dropLast, b ≠ 0x01) ∧
        (r ≠ 0x01 → extra.length < k → extra.getLast? = some 0x01) ∧ (r = 0x01 → extra = []) ∧
        t.regs.resp = some (extra.getLast?.getD r) ∧ SameExt s t := by
  induction k generalizing s r done with
  | zero =>
    simp only [extraPolls, partial_pure]
    exact ⟨[], by simp, by simp, by simp, by simp, fun _ => rfl, hr, rfl, rfl⟩
  | succ k ih =>
    simp only [extraPolls, partial_ite, partial_pure, partial_bind]
    refine ⟨fun h => ?_, fun h => partial_rx ?_⟩
    · have h1 : r = 0x01 := by simpa [idleAck] using h
      exact ⟨[], by simp, by simp, by simp, fun h' => absurd h1 h', fun _ => rfl, hr, rfl, rfl⟩
    have h1 : r ≠ 0x01 := by simpa [idleAck] using h
    simp only [partial_writeRegs]
    refine (ih s.env.answer (done + 1) rfl).mono fun _ t ht => ?_
    obtain ⟨extra, hw, hl, hd, hx, h0, hre, he⟩ := ht
    refine ⟨s.env.answer :: extra, by simp [hw], by simpa using hl, ?_, ?_, fun h' => absurd h' h1, ?_, he⟩
    · cases extra with
      | nil => simp
      | cons e es =>
        rw [List.dropLast_cons_cons]
        intro b hb
        rcases List.mem_cons.mp hb with rfl | hb
        · exact fun h' => by simpa using h0 h'
        · exact hd b hb
    · intro _ hlen
      by_cases ha : s.env.answer = 0x01
      · simp [h0 ha, ha]
      · have := hx ha (by simpa using hlen)
        simp [List.getLast?_cons, this]
    · rw [hre]
      simp [List.getLast?_cons]

/-- What is polled for CMD0 after the first loop (R124). -/
theorem trace_extraPhase (idx : BitVec 6) {status : Byte} (hr : s.regs.resp = some status) :
    Partial (extraPhase idx) s fun _ t =>
      ∃ extra : List Byte, t.wire = s.wire ++ idles extra ∧ ExtraRun s.cfg idx status extra ∧
        t.regs.resp = some (extra.getLast?.getD status) ∧ SameExt s t := by
  simp only [extraPhase, cmd0Polls, partial_ite, partial_bind, partial_readReg, partial_param, partial_pure,
    partial_writeRegs]
  refine ⟨fun h0 r hr' => ⟨fun hx => ?_, fun hx => ?_⟩, fun h0 => ?_⟩
  · have : r = status := by simpa [hr] using hr'.symm
    subst this
    refine (trace_extraPolls r 0 Config.cmd0Extra (by exact hr)).mono fun _ t ht => ?_
    obtain ⟨extra, hw, hl, hd, hg, _, hre, he⟩ := ht
    have hn : r ≠ 0x01 := by
      rintro rfl
      revert hx
      unfold cmd0Extra
      split <;> simp [unresolved]
    have hx : cmd0Extra s.cfg r = true := hx
    refine ⟨extra, hw, ?_, hre, he⟩
    simp only [ExtraRun, h0, hx, and_self, if_true]
    exact ⟨hl, hd, hg hn⟩
  · have : r = status := by simpa [hr] using hr'.symm
    subst this
    have hx : ¬(idx = 0 ∧ cmd0Extra s.cfg r = true) := fun h => hx h.2
    refine ⟨[], by simp, ?_, hr, rfl, rfl⟩
    simp only [ExtraRun, if_neg hx]
  · refine ⟨[], by simp, ?_, hr, rfl, rfl⟩
    simp only [ExtraRun, h0, false_and, if_false]

/-- The extended payload and the misuse guard (R125). -/
theorem trace_readPayload {r : Byte} {dest : Bool} (hr : s.regs.resp = some r) (hd : s.regs.extDest = some dest) :
    Partial readPayload s fun st t =>
      ∃ l : List Byte, l.length = 4 ∧ t.wire = s.wire ++ idles l ∧ st = (if dest = true then r else 0xFF) ∧
        t.regs.extOut = if dest = true then some (payloadWord l) else s.regs.extOut := by
  simp only [readPayload, partial_bind, partial_writeRegs, partial_readReg, partial_ite, partial_pure]
  refine trace_receiveWord.mono fun w t h => ?_
  obtain ⟨l, hl, hw, hwire, hregs⟩ := h
  rw [hregs, hd, hr]
  rintro d ⟨⟩
  refine ⟨fun h => ?_, fun h => ?_⟩
  · rintro b ⟨⟩
    exact ⟨l, hl, hwire, by simp [h], by simp [h, hw]⟩
  · exact ⟨l, hl, hwire, by simp [h], by simp [h]⟩

theorem trace_readyGate (idx : BitVec 6) : Partial (readyGate idx) s fun r t =>
    ∃ rxs, (if idx = 0 then rxs = [] ∧ r = true else WaitRun r rxs) ∧ t.wire = s.wire ++ idles rxs ∧ t.cfg = s.cfg := by
  simp only [readyGate, partial_ite, partial_pure]
  refine ⟨fun h => ⟨[], by simp [h], by simp, trivial⟩, fun h => trace_waitReady.mono fun r t ht => ?_⟩
  obtain ⟨rxs, hw, hwire, hc, _⟩ := ht
  exact ⟨rxs, by rwa [if_neg h], hwire, hc⟩

/-- A command: what it puts on the wire, its result, and what it leaves in its destination (R120 to R126). -/
theorem trace_sendCommand (idx : BitVec 6) (arg : Word) {n : Nat} (dest : Bool) (hn : 1 ≤ n) (hc : n = s.cfg.nResp) :
    Partial (sendCommand idx arg n dest) s fun st t =>
      ∃ l out, t.wire = s.wire ++ l ∧ CommandRun s.cfg idx arg dest l st out ∧
        t.regs.extOut = out.or s.regs.extOut := by
  simp only [sendCommand, latchCommand, partial_bind, partial_writeRegs, partial_ite, partial_pure]
  refine ((trace_readyGate idx).and (keeps_readyGate idx _)).mono fun ready t h => ?_
  obtain ⟨⟨gate, hgate, hgw, hgc⟩, hk⟩ := h
  have hcrc : t.regs.cmdCrc = some (crcByte idx) := by rw [hk.wait_same]
  have hdest : t.regs.extDest = some dest := by rw [hk.wait_same]
  have hout : t.regs.extOut = s.regs.extOut := by rw [hk.wait_same]
  refine ⟨fun hready => ?_, fun hready => ?_⟩
  · simp only [transact, sendFrame, partial_bind, partial_readReg, hcrc, Option.some.injEq]
    rintro crc rfl
    refine ((trace_sendBytes _).and (keeps_sendBytes restores_framer _ _)).mono fun _ u hu => ?_
    obtain ⟨⟨during, hdl, hdw, hdr⟩, hdk⟩ := hu
    refine ((trace_firstPoll hn).and (keeps_firstPoll _ _)).mono fun _ v hv => ?_
    obtain ⟨⟨pending, status, hpw, hp, hpl, hps, hpr⟩, hpk⟩ := hv
    have hcv : v.cfg = s.cfg := by rw [hpk.cfg, hdk.cfg, hgc]
    refine (trace_extraPhase idx (status := status) (by rw [hpr])).mono fun _ w hw => ?_
    obtain ⟨extra, hew, her, heresp, hed, heo⟩ := hw
    have hwd : w.regs.extDest = some dest := by rw [hed, hpr, hdr]; exact hdest
    have hwo : w.regs.extOut = s.regs.extOut := by rw [heo, hpr, hdr]; exact hout
    have hg : if idx = 0 then gate = [] else WaitRun true gate := by
      split
      · rename_i h0
        rw [if_pos h0] at hgate
        exact hgate.1
      · rename_i h0
        rw [if_neg h0] at hgate
        rwa [hready] at hgate
    have legal {payload : List Byte} (hpay : payload.length = if hasPayload idx then 4 else 0) :
        CommandBytes.Legal s.cfg idx ⟨gate, during, pending, status, extra, payload⟩ :=
      ⟨hg, by rw [hdl]; rfl, hp, by rw [← hc]; exact hpl, by rw [← hc]; exact hps, hcv ▸ her, hpay⟩
    refine partial_ite.mpr ⟨fun hpay => ?_, fun hpay => ?_⟩
    · refine (trace_readPayload heresp hwd).mono fun st x hx => ?_
      obtain ⟨payload, hyl, hyw, hyst, hyo⟩ := hx
      refine ⟨_, _, ?_, .inr ⟨⟨gate, during, pending, status, extra, payload⟩, legal (by simp [hyl, hpay]), rfl, ?_, rfl⟩, ?_⟩
      · simp [hyw, hew, hpw, hdw, hgw, CommandBytes.events]
      · cases dest <;> simp [hyst, CommandBytes.result, CommandBytes.last, hpay]
      · cases dest <;> simp [hyo, hpay, hwo]
    · rw [partial_readReg]
      intro st hst
      rw [heresp] at hst
      cases hst
      refine ⟨_, none, ?_, .inr ⟨⟨gate, during, pending, status, extra, []⟩, legal (by simp [hpay]), rfl, ?_, ?_⟩, ?_⟩
      · simp [hew, hpw, hdw, hgw, CommandBytes.events]
      · simp [CommandBytes.result, CommandBytes.last, hpay]
      · simp [hpay]
      · simp [hwo]
  · have h0 : idx ≠ 0 := by
      rintro rfl
      simp [hready] at hgate
    rw [if_neg h0] at hgate
    have : ready = false := by simpa using hready
    exact ⟨idles gate, none, hgw, .inl ⟨h0, rfl, rfl, gate, this ▸ hgate, rfl⟩, by simpa using hout⟩

theorem trace_command (idx : BitVec 6) (arg : Word) (dest : Bool) (hp : s.cfg.ok = true) :
    Partial (command idx arg dest) s fun st t =>
      ∃ l out, t.wire = s.wire ++ l ∧ CommandRun s.cfg idx arg dest l st out ∧
        t.regs.extOut = out.or s.regs.extOut ∧ t.cfg = s.cfg := by
  simp only [command, partial_bind, partial_param]
  refine ((trace_sendCommand idx arg dest (Params.one_le_nResp hp) rfl).and (keeps_sendCommand _ _ _ _ _)).mono
    fun st t h => ?_
  obtain ⟨⟨l, out, h1, h2, h3⟩, hk⟩ := h
  exact ⟨l, out, h1, h2, h3, hk.cfg⟩

/-! Blocks. -/

theorem Memory.store_append (m : Memory) (a : Nat) (l l' : List Byte) :
    m.store a (l ++ l') = (m.store a l).store (a + l.length) l' := by
  induction l generalizing m a with
  | nil => simp [Memory.store]
  | cons b l ih => simp [Memory.store, ih, Nat.add_assoc, Nat.add_comm 1]

theorem Memory.load_succ (m : Memory) (a k : Nat) : m.load a (k + 1) = m.read a :: m.load (a + 1) k := by
  simp [Memory.load, List.range_succ_eq_map, List.map_map, Function.comp_def, Nat.add_assoc, Nat.add_comm 1]

@[simp] theorem Memory.length_load (m : Memory) (a k : Nat) : (m.load a k).length = k := by simp [Memory.load]

theorem trace_streamIn (base i k : Nat) : Partial (streamIn base i k) s fun _ t =>
    ∃ data : List Byte, data.length = k ∧ t.wire = s.wire ++ idles data ∧ t.mem = s.mem.store (base + i) data := by
  induction k generalizing s i with
  | zero =>
    simp only [streamIn, partial_pure]
    exact ⟨[], rfl, by simp, rfl⟩
  | succ k ih =>
    simp only [streamIn, pointAt, partial_bind, partial_writeRegs, memWrite]
    refine partial_rx ?_
    rw [partial_act]
    refine (ih (i + 1)).mono fun _ t h => ?_
    obtain ⟨data, hl, hw, hm⟩ := h
    exact ⟨s.env.answer :: data, by simp [hl], by simp [hw], by simpa [Memory.store, Nat.add_assoc] using hm⟩

theorem trace_streamOut (base i k : Nat) : Partial (streamOut base i k) s fun _ t =>
    ∃ during : List Byte, during.length = k ∧ t.wire = s.wire ++ exchanges (s.mem.load (base + i) k) during := by
  induction k generalizing s i with
  | zero =>
    simp only [streamOut, partial_pure]
    exact ⟨[], rfl, by simp [Memory.load]⟩
  | succ k ih =>
    simp only [streamOut, pointAt, memRead, partial_bind, partial_writeRegs, partial_look]
    refine partial_xchg ((ih (i + 1)).mono fun _ t h => ?_)
    obtain ⟨during, hl, hw⟩ := h
    refine ⟨s.env.answer :: during, by simp [hl], ?_⟩
    rw [Memory.load_succ, exchanges_cons, hw]
    simp [Nat.add_assoc]

/-- The bytes of a token wait. -/
def TokenWire (p : Params) (s : State) (r : Bool) (t : State) : Prop :=
  ∃ skipped last, t.wire = s.wire ++ idles (skipped ++ [last]) ∧ (∀ x ∈ skipped, skips p x) ∧
    (r = true ↔ last = 0xFE)

theorem judgeToken_some {p : Params} {b : Byte} {r : Bool} (h : judgeToken p b = some r) : r = true ↔ b = 0xFE := by
  unfold judgeToken isStartToken at h
  by_cases hb : b = 0xFE
  · simp_all
  · simp only [beq_iff_eq, hb, if_false] at h
    split at h
    · cases h
    · split at h <;> simp_all

theorem trace_tokenOnce {p : Params} {goOn : M Bool}
    (hn : ∀ u : State, Partial goOn u fun r t => (r = false ∧ t.wire = u.wire) ∨ TokenWire p u r t) :
    Partial (pollOnce (fun b => do
      writeRegs fun x => { x with tok := some b }
      pure (judgeToken p b)) goOn) s fun r t => TokenWire p s r t := by
  simp only [pollOnce, partial_bind]
  refine partial_rx ?_
  simp only [partial_writeRegs, partial_pure]
  cases hj : judgeToken p s.env.answer with
  | some r =>
    simp only [partial_pure]
    exact ⟨[], s.env.answer, by simp, by simp, judgeToken_some hj⟩
  | none =>
    refine (hn _).mono fun r t ht => ?_
    have hb : s.env.answer ≠ 0xFE := by
      intro hb
      simp [judgeToken, isStartToken, hb] at hj
    rcases ht with ⟨hr, hw⟩ | ⟨skipped, last, hw, hx, hr⟩
    · exact ⟨[], s.env.answer, by simp [hw], by simp,
        fun h' => absurd (hr.symm.trans h') Bool.false_ne_true, fun h' => absurd h' hb⟩
    · refine ⟨s.env.answer :: skipped, last, by simp [hw], fun b hb => ?_, hr⟩
      rcases List.mem_cons.mp hb with rfl | hb
      · exact hj
      · exact hx b hb

theorem trace_afterToken {p : Params} {budget : Nat} {t0 : Tick} (n : Nat) (u : State) :
    Partial (afterPoll budget t0 (fun b => do
      writeRegs fun x => { x with tok := some b }
      pure (judgeToken p b)) n) u fun r t => (r = false ∧ t.wire = u.wire) ∨ TokenWire p u r t := by
  induction n generalizing u with
  | zero =>
    simp only [afterPoll, partial_bind, partial_pure]
    intro a t h
    unfold lastTick at h
    split at h
    · cases h
      exact .inl ⟨trivial, rfl⟩
    · cases h
  | succ n ih =>
    simp only [afterPoll, expired, partial_bind, partial_tickNow, partial_pure, partial_ite]
    exact ⟨fun _ => .inl ⟨trivial, trivial⟩, fun _ => (trace_tokenOnce ih).mono fun r t h => .inr h⟩

theorem trace_waitToken : Partial waitToken s fun r t => TokenWire s.cfg s r t := by
  simp only [waitToken, pollWait, partial_bind, partial_tickNow, partial_writeRegs, partial_param, partial_look]
  exact trace_tokenOnce (s := { s with
    env := s.env.afterTick
    regs := _ }) fun u => trace_afterToken _ u

/-- A block read: received whole and stored, or no start token and nothing stored (43_block_transfer.md R190). -/
theorem trace_readBlock (base : Nat) : Partial (readBlock base Config.blockBytes) s fun r t =>
    if r = true then ∃ b : BlockIn, b.Legal s.cfg ∧ t.wire = s.wire ++ b.events ∧ t.mem = s.mem.store base b.data
    else ∃ l, NoToken s.cfg l ∧ t.wire = s.wire ++ l ∧ t.mem = s.mem := by
  simp only [readBlock, partial_bind, partial_ite, partial_pure]
  refine (trace_waitToken.and (keeps_waitToken s)).mono fun seen t h => ?_
  obtain ⟨⟨skipped, last, hw, hx, hr⟩, hk⟩ := h
  refine ⟨fun hs => ?_, fun hs => ?_⟩
  · refine (trace_streamIn base 0 Config.blockBytes).mono fun _ u hu => partial_rx (partial_rx ?_)
    obtain ⟨data, hl, huw, hm⟩ := hu
    rw [if_pos trivial]
    refine ⟨⟨skipped, data, [u.env.answer, (u.exchanged 0xFF).env.answer]⟩, ⟨hx, hl, rfl⟩, ?_, ?_⟩
    · simp [huw, hw, hr.mp hs, BlockIn.events]
    · rw [← hk.mem]
      exact hm
  · rw [if_neg (by simp)]
    exact ⟨_, ⟨skipped, last, rfl, hx, fun h => hs (hr.mpr h)⟩, hw, hk.mem⟩

/-- A block write: sent and accepted, or not written (R191). -/
theorem trace_writeBlock (base : Nat) (token : Byte) : Partial (writeBlock base Config.blockBytes token) s fun r t =>
    if r = true then ∃ b : BlockOut, b.Legal ∧ dataAccepted b.response = true ∧
      t.wire = s.wire ++ b.events token (s.mem.load base Config.blockBytes)
    else ∃ l, NotWritten token (s.mem.load base Config.blockBytes) l ∧ t.wire = s.wire ++ l := by
  simp only [writeBlock, partial_bind, partial_ite, partial_pure]
  refine (trace_waitReady.and (keeps_waitReady s)).mono fun ready t h => ?_
  obtain ⟨⟨gate, hg, hgw, -, -⟩, hk⟩ := h
  refine ⟨fun hr => ?_, fun hr => ?_⟩
  · simp only [sendBlock, partial_bind, partial_writeRegs, partial_pure]
    refine partial_xchg ?_
    refine (trace_streamOut base 0 Config.blockBytes).mono fun _ u hu => ?_
    obtain ⟨during, hdl, hdw⟩ := hu
    refine (trace_sendBytes _).mono fun _ v hv => ?_
    obtain ⟨crc, hcl, hcw, -⟩ := hv
    simp only [readDataResponse, partial_bind, partial_writeRegs, partial_pure]
    refine partial_rx (trace_waitReady.mono fun r w hw => ?_)
    obtain ⟨trailing, htr, htw, -, -⟩ := hw
    have hmem : t.mem = s.mem := hk.mem
    have key : ∃ b : BlockOut, b.Legal ∧ b.response = v.env.answer ∧
        w.wire = s.wire ++ b.events token (s.mem.load base Config.blockBytes) := by
      refine ⟨⟨gate, t.env.answer :: (during ++ crc), v.env.answer, trailing⟩,
        ⟨hr ▸ hg, by simp [hdl, hcl], r, htr⟩, rfl, ?_⟩
      simp only [htw, State.exchanged_wire, hcw, hdw, hgw, BlockOut.events, exchanges_cons, List.append_assoc, hmem]
      rw [exchanges_append (by simp [hdl])]
      simp
    obtain ⟨b, hb, hbr, hbw⟩ := key
    rw [← hbr]
    cases hacc : dataAccepted b.response with
    | true => exact ⟨b, hb, hacc, hbw⟩
    | false => exact ⟨_, .inr ⟨b, hb, hacc, rfl⟩, hbw⟩
  · rw [if_neg (by simp)]
    have : ready = false := by simpa using hr
    exact ⟨_, .inl ⟨gate, this ▸ hg, rfl⟩, hgw⟩

theorem trace_stopTran : Partial stopTran s fun _ t => ∃ l, StopTranRun l ∧ t.wire = s.wire ++ l := by
  simp only [stopTran, partial_bind, partial_pure]
  refine partial_xchg (partial_rx (trace_waitReady.mono fun r t h => ?_))
  obtain ⟨rxs, hr, hw, -, -⟩ := h
  exact ⟨_, ⟨s.env.answer, (s.exchanged 0xFD).env.answer, rxs, r, hr, rfl⟩, by simp [hw]⟩

/-- A command without a payload writes no destination. -/
theorem CommandRun.out_eq_none {p : Params} {idx : BitVec 6} {arg : Word} {l : List Event} {st : Byte}
    {out : Option Word} (h : CommandRun p idx arg false l st out) : out = none := by
  rcases h with ⟨-, -, h, -⟩ | ⟨c, -, -, -, h⟩
  · exact h
  · simpa using h

theorem trace_stopRead (hp : s.cfg.ok = true) : Partial stopRead s fun _ t =>
    ∃ l, StopReadRun s.cfg l ∧ t.wire = s.wire ++ l := by
  simp only [stopRead, partial_bind, partial_pure]
  refine (trace_command 12 0 false hp).mono fun st t h => partial_rx (trace_waitReady.mono fun r u hu => ?_)
  obtain ⟨l, out, hw, hc, -, -⟩ := h
  obtain ⟨rxs, hr, huw, -, -⟩ := hu
  obtain rfl := hc.out_eq_none
  exact ⟨_, ⟨l, st, t.env.answer, rxs, r, hc, hr, rfl⟩, by simp [huw, hw]⟩

/-! Sector sequences. -/

/-- A stop sequence: what it puts on the wire; it leaves memory and the success flag alone. -/
structure StopTrace (run : Params → List Event → Prop) (stop : M Unit) : Prop where
  wire : ∀ s : State, s.cfg.ok = true → Partial stop s fun _ t => ∃ l, run s.cfg l ∧ t.wire = s.wire ++ l
  mem : Keeps (fun s t => t.mem = s.mem) stop
  ok : Keeps (fun s t => t.regs.ok = s.regs.ok) stop

theorem stopTrace_read : StopTrace StopReadRun stopRead where
  wire _ hp := trace_stopRead hp
  mem s a t h := (keeps_stopRead s a t h).mem
  ok := keeps_stopRead_ok

theorem stopTrace_tran : StopTrace (fun _ => StopTranRun) stopTran where
  wire _ _ := trace_stopTran
  mem s a t h := (keeps_stopTran s a t h).mem
  ok := keeps_stopTran_ok

theorem trace_stopPhase {run : Params → List Event → Prop} {stop : M Unit} (hs : StopTrace run stop) {good : Bool}
    (hok : s.regs.ok = some good) (hp : s.cfg.ok = true) : Partial (stopPhase stop) s fun _ t =>
      ∃ l, StopPhaseRun s.cfg good (run s.cfg) l ∧ t.wire = s.wire ++ l ∧ t.mem = s.mem ∧ t.regs.ok = some good := by
  simp only [stopPhase, partial_bind, partial_readReg, partial_param, partial_ite, partial_setSeq, partial_pure]
  rw [hok]
  rintro g ⟨⟩
  refine ⟨fun h => ?_, fun h => ?_⟩
  · refine ((hs.wire { s with seq := .xferStop } hp).and ((hs.mem _).and (hs.ok _))).mono fun _ t ht => ?_
    obtain ⟨⟨l, hl, hw⟩, hm, ho⟩ := ht
    refine ⟨l, ?_, hw, hm, by rw [ho]; exact hok⟩
    rw [StopPhaseRun, if_pos (by simpa using h)]
    exact hl
  · refine ⟨[], ?_, by simp, trivial, rfl⟩
    rw [StopPhaseRun, if_neg (by simpa using h)]

theorem blockBase_succ (base k : Nat) : blockBase base (k + 1) = blockBase base k + Config.blockBytes := by
  unfold blockBase
  rw [Nat.mul_succ, Nat.add_assoc]

/-- The blocks of a multi-block read from block `k` on. -/
theorem trace_readBlocks (base : Nat) (k n : Nat) : Partial
    (blocks (fun k => readBlock (blockBase base k) Config.blockBytes) k n) s fun _ t =>
      t.cfg = s.cfg ∧ ∃ (bs : List BlockIn) (lf : List Event),
        t.wire = s.wire ++ (bs.flatMap BlockIn.events ++ lf) ∧ (∀ b ∈ bs, b.Legal s.cfg) ∧
        t.mem = s.mem.store (blockBase base k) (bs.flatMap BlockIn.data) ∧
        ((t.regs.ok = s.regs.ok ∧ bs.length = n ∧ lf = []) ∨
          (t.regs.ok = some false ∧ bs.length < n ∧ NoToken s.cfg lf)) := by
  induction n generalizing s k with
  | zero =>
    simp only [blocks, partial_pure]
    exact ⟨trivial, [], [], by simp, by simp, rfl, .inl ⟨trivial, rfl, rfl⟩⟩
  | succ n ih =>
    simp only [blocks, partial_bind, partial_writeRegs, partial_ite]
    refine ((trace_readBlock (blockBase base k)).and (((endsBlock_read (F := False) _ _).ok _).and
      ((endsBlock_read (F := False) _ _).cfg _))).mono fun good t h => ?_
    obtain ⟨hb, ho, hc⟩ := h
    have ho : t.regs.ok = s.regs.ok := ho
    have hc : t.cfg = s.cfg := hc
    refine ⟨fun hg => ?_, fun hg => ?_⟩
    · rw [if_pos hg] at hb
      obtain ⟨b, hbl, hbw, hbm⟩ := hb
      refine (ih (k + 1)).mono fun _ u hu => ?_
      obtain ⟨huc, bs, lf, huw, hul, hum, hcase⟩ := hu
      refine ⟨huc.trans hc, b :: bs, lf, by simp [huw, hbw], ?_, ?_, ?_⟩
      · exact fun x hx => (List.mem_cons.mp hx).elim (fun h => h ▸ hbl) (fun h => hc ▸ hul x h)
      · rw [hum, hbm, List.flatMap_cons, Memory.store_append, hbl.data, blockBase_succ]
      · rcases hcase with ⟨h1, h2, h3⟩ | ⟨h1, h2, h3⟩
        · exact .inl ⟨h1.trans ho, by simp [h2], h3⟩
        · exact .inr ⟨h1, by simpa using h2, hc ▸ h3⟩
    · rw [if_neg hg] at hb
      obtain ⟨l, hl, hw, hm⟩ := hb
      exact ⟨hc, [], l, by simp [hw], by simp, hm, .inr ⟨trivial, by simp, hl⟩⟩

/-- The blocks of a multi-block write from block `k` on. -/
theorem trace_writeBlocks (base count : Nat) (hcount : count ≠ 1) (k n : Nat) : Partial
    (blocks (fun k => writeBlock (blockBase base k) Config.blockBytes 0xFC) k n) s fun _ t =>
      t.cfg = s.cfg ∧ t.mem = s.mem ∧ ∃ (bs : List BlockOut) (lf : List Event),
        t.wire = s.wire ++ (sentFrom s.mem base count k bs ++ lf) ∧
        (∀ b ∈ bs, b.Legal ∧ dataAccepted b.response = true) ∧
        ((t.regs.ok = s.regs.ok ∧ bs.length = n ∧ lf = []) ∨
          (t.regs.ok = some false ∧ bs.length < n ∧
            NotWritten 0xFC (s.mem.load (blockBase base (k + bs.length)) Config.blockBytes) lf)) := by
  induction n generalizing s k with
  | zero =>
    simp only [blocks, partial_pure]
    exact ⟨trivial, trivial, [], [], by simp [sentFrom], by simp, .inl ⟨trivial, rfl, rfl⟩⟩
  | succ n ih =>
    simp only [blocks, partial_bind, partial_writeRegs, partial_ite]
    refine ((trace_writeBlock (blockBase base k) 0xFC).and (((endsBlock_write (F := False) _ _ _).ok _).and
      (keeps_writeBlock _ _ _ _))).mono fun good t h => ?_
    obtain ⟨hb, ho, hk⟩ := h
    have ho : t.regs.ok = s.regs.ok := ho
    have hc : t.cfg = s.cfg := hk.cfg
    have hm : t.mem = s.mem := hk.mem
    refine ⟨fun hg => ?_, fun hg => ?_⟩
    · rw [if_pos hg] at hb
      obtain ⟨b, hbl, hacc, hbw⟩ := hb
      refine (ih (k + 1)).mono fun _ u hu => ?_
      obtain ⟨huc, hum, bs, lf, huw, hul, hcase⟩ := hu
      refine ⟨huc.trans hc, hum.trans hm, b :: bs, lf, ?_, ?_, ?_⟩
      · simp [huw, hbw, sentFrom, hm, writeToken, hcount]
      · exact fun x hx => (List.mem_cons.mp hx).elim (fun h => h ▸ ⟨hbl, hacc⟩) (hul x)
      · rcases hcase with ⟨h1, h2, h3⟩ | ⟨h1, h2, h3⟩
        · exact .inl ⟨h1.trans ho, by simp [h2], h3⟩
        · refine .inr ⟨h1, by simpa using h2, ?_⟩
          rw [hm] at h3
          simpa [Nat.add_assoc, Nat.add_comm 1] using h3
    · rw [if_neg hg] at hb
      obtain ⟨l, hl, hw⟩ := hb
      exact ⟨hc, hm, [], l, by simp [hw, sentFrom], by simp, .inr ⟨trivial, by simp, hl⟩⟩

/-- A sector read (R192, R193): its wire events, and what it stored. -/
theorem trace_chosenRead {q : ReqArgs} (hp : s.cfg.ok = true) : Partial (chosen q singleRead multiRead) s fun ok t =>
    ∃ l bs, ReadRun s.cfg q.sector q.count.toNat l bs ok ∧ t.wire = s.wire ++ l ∧
      t.mem = s.mem.store q.buf (bs.flatMap BlockIn.data) := by
  have one {c : Word} : c.toNat = 1 ↔ c = 1 := ⟨fun h => BitVec.eq_of_toNat_eq h, fun h => by simp [h]⟩
  by_cases hc : q.count = 1
  · simp only [chosen, if_pos hc, singleRead, sectorCommand, singleBlock, partial_bind, partial_setSeq, partial_ite,
      partial_pure]
    refine ((trace_command (s := { s with seq := .xferCmd }) 17 q.sector false hp).and (keeps_command _ _ _ _)).mono
      fun st t h => ?_
    obtain ⟨⟨lc, out, hw, hrun, -, -⟩, hk⟩ := h
    obtain rfl := hrun.out_eq_none
    have hcfg : t.cfg = s.cfg := hk.cfg
    have hmem : t.mem = s.mem := hk.mem
    have hwire : t.wire = s.wire ++ lc := hw
    have hrun : CommandRun s.cfg (if q.count.toNat = 1 then 17 else 18) q.sector false lc st none := by
      rw [if_pos (one.mpr hc)]
      exact hrun
    refine ⟨fun hst => ?_, fun hst => ?_⟩
    · have hst : st = 0x00 := by simpa [commandOk] using hst
      refine (trace_readBlock q.buf).mono fun ok u hu => ?_
      cases ok with
      | true =>
        obtain ⟨b, hb, hbw, hbm⟩ := hu
        refine ⟨lc ++ b.events, [b], ⟨lc, st, hrun, ?_⟩, ?_, ?_⟩
        rotate_left
        · rw [hbw, hwire, List.append_assoc]
        · simpa [hmem] using hbm
        rw [if_pos hst]
        exact ⟨[], [], by simp, by simpa [← hcfg] using hb, by simp [one.mpr hc], by simp [one.mpr hc]⟩
      | false =>
        obtain ⟨l, hl, hlw, hlm⟩ := hu
        refine ⟨lc ++ l, [], ⟨lc, st, hrun, ?_⟩, ?_, ?_⟩
        rotate_left
        · rw [hlw, hwire, List.append_assoc]
        · simpa [hmem, Memory.store] using hlm
        rw [if_pos hst]
        exact ⟨l, [], by simp, by simp, by simpa [one.mpr hc, ← hcfg] using hl, by simp [one.mpr hc]⟩
    · refine ⟨lc, [], ⟨lc, st, hrun, ?_⟩, hwire, hmem⟩
      rw [if_neg (by simpa [commandOk] using hst)]
      exact ⟨rfl, rfl, rfl⟩
  · have hn : q.count.toNat ≠ 1 := fun h => hc (one.mp h)
    simp only [chosen, if_neg hc, multiRead, sectorCommand, multiBlock, partial_bind, partial_setSeq, partial_ite,
      partial_pure, partial_writeRegs]
    refine ((trace_command (s := { s with seq := .xferCmd }) 18 q.sector false hp).and (keeps_command _ _ _ _)).mono
      fun st t h => ?_
    obtain ⟨⟨lc, out, hw, hrun, -, -⟩, hk⟩ := h
    obtain rfl := hrun.out_eq_none
    have hcfg : t.cfg = s.cfg := hk.cfg
    have hmem : t.mem = s.mem := hk.mem
    have hwire : t.wire = s.wire ++ lc := hw
    have hrun : CommandRun s.cfg (if q.count.toNat = 1 then 17 else 18) q.sector false lc st none := by
      rw [if_neg hn]
      exact hrun
    refine ⟨fun hst => ?_, fun hst => ?_⟩
    · have hst : st = 0x00 := by simpa [commandOk] using hst
      refine (trace_readBlocks q.buf 0 q.count.toNat).mono fun _ u hu => ?_
      obtain ⟨huc, bs, lf, huw, hul, hum, hcase⟩ := hu
      have huc : u.cfg = s.cfg := huc.trans hcfg
      have huw : u.wire = s.wire ++ (lc ++ (bs.flatMap BlockIn.events ++ lf)) := by
        rw [huw]
        show t.wire ++ _ = _
        rw [hwire, List.append_assoc]
      have hum : u.mem = s.mem.store q.buf (bs.flatMap BlockIn.data) := by
        rw [hum]
        show t.mem.store (blockBase q.buf 0) _ = _
        rw [hmem]
        rfl
      have hul : ∀ b ∈ bs, b.Legal s.cfg := fun b hb => hcfg ▸ hul b hb
      have fin (good : Bool) (hgood : u.regs.ok = some good)
          (hshape : if good = true then bs.length = q.count.toNat ∧ lf = []
            else bs.length < q.count.toNat ∧ NoToken s.cfg lf) :
          Partial (stopPhase stopRead) u fun _ v => Partial (readReg fun x => x.ok) v fun ok w =>
            ∃ l bs, ReadRun s.cfg q.sector q.count.toNat l bs ok ∧ w.wire = s.wire ++ l ∧
              w.mem = s.mem.store q.buf (bs.flatMap BlockIn.data) := by
        refine (trace_stopPhase stopTrace_read hgood (by rw [huc]; exact hp)).mono fun _ v hv => ?_
        obtain ⟨ls, hls, hvw, hvm, hvo⟩ := hv
        rw [partial_readReg, hvo]
        rintro ok ⟨⟩
        refine ⟨lc ++ (bs.flatMap BlockIn.events ++ lf) ++ ls, bs, ⟨lc, st, hrun, ?_⟩, ?_, hvm.trans hum⟩
        rotate_left
        · rw [hvw, huw, List.append_assoc]
        rw [if_pos hst]
        exact ⟨lf, ls, by simp, hul, hshape, by rw [if_neg hn]; exact huc ▸ hls⟩
      rcases hcase with ⟨h1, h2, h3⟩ | ⟨h1, h2, h3⟩
      · exact fin true h1 ⟨h2, h3⟩
      · exact fin false h1 ⟨h2, hcfg ▸ h3⟩
    · refine ⟨lc, [], ⟨lc, st, hrun, ?_⟩, hwire, hmem⟩
      rw [if_neg (by simpa [commandOk] using hst)]
      exact ⟨rfl, rfl, rfl⟩

/-- A sector write (R194, R195): its wire events. -/
theorem trace_chosenWrite {q : ReqArgs} (hp : s.cfg.ok = true) :
    Partial (chosen q singleWrite multiWrite) s fun ok t =>
      ∃ l bs, WriteRun s.cfg s.mem q.sector q.buf q.count.toNat l bs ok ∧ t.wire = s.wire ++ l := by
  have one {c : Word} : c.toNat = 1 ↔ c = 1 := ⟨fun h => BitVec.eq_of_toNat_eq h, fun h => by simp [h]⟩
  by_cases hc : q.count = 1
  · have h1 : q.count.toNat = 1 := one.mpr hc
    simp only [chosen, if_pos hc, singleWrite, sectorCommand, singleBlock, partial_bind, partial_setSeq, partial_ite,
      partial_pure]
    refine ((trace_command (s := { s with seq := .xferCmd }) 24 q.sector false hp).and (keeps_command _ _ _ _)).mono
      fun st t h => ?_
    obtain ⟨⟨lc, out, hw, hrun, -, -⟩, hk⟩ := h
    obtain rfl := hrun.out_eq_none
    have hmem : t.mem = s.mem := hk.mem
    have hwire : t.wire = s.wire ++ lc := hw
    have hrun : CommandRun s.cfg (if q.count.toNat = 1 then 24 else 25) q.sector false lc st none := by
      rw [if_pos h1]
      exact hrun
    refine ⟨fun hst => ?_, fun hst => ?_⟩
    · have hst : st = 0x00 := by simpa [commandOk] using hst
      refine (trace_writeBlock q.buf 0xFE).mono fun ok u hu => ?_
      cases ok with
      | true =>
        obtain ⟨b, hb, hacc, hbw⟩ := hu
        refine ⟨lc ++ b.events 0xFE (s.mem.load q.buf Config.blockBytes), [b], ⟨lc, st, hrun, ?_⟩, ?_⟩
        rotate_left
        · rw [hbw]
          show t.wire ++ b.events 0xFE (t.mem.load q.buf Config.blockBytes) = _
          rw [hwire, hmem, List.append_assoc]
        rw [if_pos hst]
        refine ⟨[], [], ?_, by simpa using ⟨hb, hacc⟩, by simp [h1], by simp [h1]⟩
        simp [sentFrom, writeToken, h1, blockBase]
      | false =>
        obtain ⟨l, hl, hlw⟩ := hu
        refine ⟨lc ++ l, [], ⟨lc, st, hrun, ?_⟩, ?_⟩
        rotate_left
        · rw [hlw]
          show t.wire ++ l = _
          rw [hwire, List.append_assoc]
        rw [if_pos hst]
        refine ⟨l, [], by simp [sentFrom], by simp, ?_, by simp [h1]⟩
        simpa [h1, writeToken, blockBase, hmem] using hl
    · refine ⟨lc, [], ⟨lc, st, hrun, ?_⟩, hwire⟩
      rw [if_neg (by simpa [commandOk] using hst)]
      exact ⟨rfl, rfl, rfl⟩
  · have hn : q.count.toNat ≠ 1 := fun h => hc (one.mp h)
    simp only [chosen, if_neg hc, multiWrite, sectorCommand, multiBlock, partial_bind, partial_setSeq, partial_ite,
      partial_pure, partial_writeRegs]
    refine ((trace_command (s := { s with seq := .xferCmd }) 25 q.sector false hp).and (keeps_command _ _ _ _)).mono
      fun st t h => ?_
    obtain ⟨⟨lc, out, hw, hrun, -, -⟩, hk⟩ := h
    obtain rfl := hrun.out_eq_none
    have hcfg : t.cfg = s.cfg := hk.cfg
    have hmem : t.mem = s.mem := hk.mem
    have hwire : t.wire = s.wire ++ lc := hw
    have hrun : CommandRun s.cfg (if q.count.toNat = 1 then 24 else 25) q.sector false lc st none := by
      rw [if_neg hn]
      exact hrun
    refine ⟨fun hst => ?_, fun hst => ?_⟩
    · have hst : st = 0x00 := by simpa [commandOk] using hst
      refine (trace_writeBlocks q.buf q.count.toNat hn 0 q.count.toNat).mono fun _ u hu => ?_
      obtain ⟨huc, -, bs, lf, huw, hul, hcase⟩ := hu
      have huc : u.cfg = s.cfg := huc.trans hcfg
      have huw : u.wire = s.wire ++ (lc ++ (sentFrom s.mem q.buf q.count.toNat 0 bs ++ lf)) := by
        rw [huw]
        show t.wire ++ (sentFrom t.mem _ _ _ _ ++ _) = _
        rw [hwire, hmem, List.append_assoc]
      have fin (good : Bool) (hgood : u.regs.ok = some good)
          (hshape : if good = true then bs.length = q.count.toNat ∧ lf = []
            else bs.length < q.count.toNat ∧ NotWritten (writeToken q.count.toNat)
              (s.mem.load (blockBase q.buf bs.length) Config.blockBytes) lf) :
          Partial (stopPhase stopTran) u fun _ v => Partial (readReg fun x => x.ok) v fun ok w =>
            ∃ l bs, WriteRun s.cfg s.mem q.sector q.buf q.count.toNat l bs ok ∧ w.wire = s.wire ++ l := by
        refine (trace_stopPhase stopTrace_tran hgood (by rw [huc]; exact hp)).mono fun _ v hv => ?_
        obtain ⟨ls, hls, hvw, -, hvo⟩ := hv
        rw [partial_readReg, hvo]
        rintro ok ⟨⟩
        refine ⟨lc ++ (sentFrom s.mem q.buf q.count.toNat 0 bs ++ lf) ++ ls, bs, ⟨lc, st, hrun, ?_⟩, ?_⟩
        rotate_left
        · rw [hvw, huw, List.append_assoc]
        rw [if_pos hst]
        exact ⟨lf, ls, by simp, hul, hshape, by rw [if_neg hn]; exact huc ▸ hls⟩
      rcases hcase with ⟨h1, h2, h3⟩ | ⟨h1, h2, h3⟩
      · exact fin true h1 ⟨h2, h3⟩
      · refine fin false h1 ⟨h2, ?_⟩
        have h3 : NotWritten 0xFC (t.mem.load (blockBase q.buf (0 + bs.length)) Config.blockBytes) lf := h3
        simpa [writeToken, hn, hmem] using h3
    · refine ⟨lc, [], ⟨lc, st, hrun, ?_⟩, hwire⟩
      rw [if_neg (by simpa [commandOk] using hst)]
      exact ⟨rfl, rfl, rfl⟩

/-! Negotiation. -/

/-- A procedure that puts a run of some kind on the wire and returns a status. -/
def Attempt (run : Params → List Event → Byte → Prop) (m : M Byte) : Prop :=
  ∀ s : State, s.cfg.ok = true → Partial m s fun st t =>
    ∃ l, run s.cfg l st ∧ t.wire = s.wire ++ l ∧ t.cfg = s.cfg

theorem attempt_command (idx : BitVec 6) (arg : Word) :
    Attempt (fun p l st => CommandRun p idx arg false l st none) (command idx arg false) := fun _ hp =>
  (trace_command idx arg false hp).mono fun _ _ h => by
    obtain ⟨l, out, hw, hrun, -, hc⟩ := h
    obtain rfl := hrun.out_eq_none
    exact ⟨l, hrun, hw, hc⟩

theorem attempt_appCommand {m : M Byte} {run : Params → List Event → Byte → Prop} (hm : Attempt run m) :
    Attempt (fun p l st => ∃ l55 l41 st55, CommandRun p 55 0 false l55 st55 none ∧ run p l41 st ∧ l = l55 ++ l41)
      (appCommand m) := fun s hp => by
  simp only [appCommand, partial_bind]
  refine (attempt_command 55 0 s hp).mono fun st55 t h => ?_
  obtain ⟨l55, h55, hw, hc⟩ := h
  refine (hm t (hc.symm ▸ hp)).mono fun st u hu => ?_
  obtain ⟨l41, h41, huw, huc⟩ := hu
  exact ⟨_, ⟨l55, l41, st55, h55, hc ▸ h41, rfl⟩, by rw [huw, hw, List.append_assoc], huc.trans hc⟩

theorem attempt_acmd41Hcs :
    Attempt (fun p l st => CommandRun p 41 p.hcsArg false l st none) acmd41Hcs := fun s hp => by
  simp only [acmd41Hcs, partial_bind, partial_param]
  exact attempt_command 41 s.cfg.hcsArg s hp

theorem trace_attempts {m : M Byte} {run : Params → List Event → Byte → Prop} (hm : Attempt run m) (done k : Nat)
    (hp : s.cfg.ok = true) : Partial (attempts m done k) s fun found t =>
      ∃ l, LoopRun (run s.cfg) k l found ∧ t.wire = s.wire ++ l ∧ t.cfg = s.cfg := by
  induction k generalizing s done with
  | zero =>
    simp only [attempts, partial_pure]
    exact ⟨[], .exhausted, by simp, trivial⟩
  | succ k ih =>
    simp only [attempts, partial_bind, partial_writeRegs, partial_ite, partial_pure]
    refine (hm { s with regs := { s.regs with iter := some (done + 1) } } hp).mono fun st t h => ?_
    obtain ⟨l, hl, hw, hc⟩ := h
    have hc : t.cfg = s.cfg := hc
    refine ⟨fun hst => ?_, fun hst => ?_⟩
    · have : st = 0x00 := by simpa [commandOk] using hst
      subst this
      exact ⟨l, .cleared hl, hw, hc⟩
    · refine (ih (done + 1) (hc.symm ▸ hp)).mono fun found u hu => ?_
      obtain ⟨l', hl', huw, huc⟩ := hu
      exact ⟨l ++ l', .again hl (by simpa [commandOk] using hst) (hc ▸ hl'),
        by rw [huw, hw, List.append_assoc], huc.trans hc⟩

/-- The rest of a negotiation: its wire events up to the release, and the family it committed, if any. -/
def Commits (run : Params → List Event → Option Version → Prop) (s t : State) : Prop :=
  ∃ l found, run s.cfg l found ∧ t.wire = s.wire ++ (l ++ [.deselect]) ∧
    match found with
    | some v => t.version = v ∧ t.status = .ready
    | none => t.version = s.version ∧ t.status = s.status

/-- Work before the rest of a negotiation. -/
theorem Commits.after {run run' : Params → List Event → Option Version → Prop} {l : List Event}
    (h : Commits run t u) (hq : Quiet s t) (hw : t.wire = s.wire ++ l)
    (hrun : ∀ l' found, run s.cfg l' found → run' s.cfg (l ++ l') found) : Commits run' s u := by
  obtain ⟨l', found, hr, huw, hf⟩ := h
  refine ⟨l ++ l', found, hrun l' found (hq.cfg ▸ hr), by rw [huw, hw]; simp, ?_⟩
  cases found with
  | some v => exact hf
  | none => rw [← hq.version, ← hq.status]; exact hf

theorem trace_negotiationFails : Partial negotiationFails s fun _ t => Commits (fun _ l found => l = [] ∧ found = none) s t := by
  simp only [negotiationFails, deselect, partial_bind, partial_setSeq, partial_act, partial_emit]
  exact ⟨[], none, ⟨rfl, rfl⟩, rfl, rfl, rfl⟩

theorem trace_negotiationReady {v : Version} (hv : s.regs.pendVer = some v) : Partial negotiationReady s fun _ t =>
    Commits (fun _ l found => l = [] ∧ found = some v) s t := by
  simp only [negotiationReady, deselect, partial_bind, partial_setSeq, partial_readReg, partial_act, partial_emit, hv]
  rintro w ⟨⟩
  exact ⟨[], some v, ⟨rfl, rfl⟩, rfl, rfl, rfl⟩

theorem trace_setBlockLength {v : Version} (hv : s.regs.pendVer = some v) (hp : s.cfg.ok = true) :
    Partial setBlockLength s fun _ t => Commits (fun p l found => BlockLengthRun p v l found) s t := by
  simp only [setBlockLength, partial_bind, partial_ite]
  refine ((attempt_command 16 0x00000200 s hp).and (keeps_command _ _ _ s)).mono fun st t h => ?_
  obtain ⟨⟨l, hrun, hw, hc⟩, hk⟩ := h
  have hq : Quiet s t := hk.quiet
  refine ⟨fun hst => ?_, fun hst => ?_⟩
  · have hv' : t.regs.pendVer = some v := (congrArg Regs.pendVer hk.regs).trans hv
    refine (trace_negotiationReady hv').mono fun _ u hu => hu.after hq hw ?_
    rintro l' found ⟨rfl, rfl⟩
    exact ⟨st, by simpa using hrun, by simp_all [commandOk]⟩
  · refine trace_negotiationFails.mono fun _ u hu => hu.after hq hw ?_
    rintro l' found ⟨rfl, rfl⟩
    exact ⟨st, by simpa using hrun, by simp_all [commandOk]⟩

theorem trace_configureV2 {o : Word} (ho : s.regs.ocr = some o) (hv : s.regs.pendVer = some .sdv2Plus)
    (hp : s.cfg.ok = true) : Partial configureV2 s fun _ t => Commits (fun p l found =>
      if highCapacity p o = true then l = [] ∧ found = some .sdv2Plus else BlockLengthRun p .sdv2Plus l found) s t := by
  simp only [configureV2, partial_bind, partial_setSeq, partial_readReg, partial_param, partial_ite]
  have hq : Quiet s { s with seq := .blockSizeConfig } := quiet_setSeq rfl
  rw [ho]
  rintro o' ⟨⟩
  refine ⟨fun hc => ?_, fun hc => ?_⟩
  · refine (trace_negotiationReady (s := { s with seq := .blockSizeConfig }) hv).mono fun _ u hu =>
      hu.after (l := []) hq (by simp) fun l' found h => ?_
    have hc : highCapacity s.cfg o = true := hc
    rw [if_pos hc]
    exact h
  · refine (trace_setBlockLength (s := { s with seq := .blockSizeConfig }) hv hp).mono fun _ u hu =>
      hu.after (l := []) hq (by simp) fun l' found h => ?_
    have hc : ¬highCapacity s.cfg o = true := hc
    rw [if_neg hc]
    exact h

/-- A command with a payload and a destination writes it unless its gate failed. -/
theorem CommandRun.out_of_ne {p : Params} {idx : BitVec 6} {arg : Word} {l : List Event} {st : Byte}
    {out : Option Word} (h : CommandRun p idx arg true l st out) (hp : hasPayload idx = true) (hst : st ≠ 0xFF) :
    ∃ o, out = some o := by
  rcases h with ⟨-, h, -⟩ | ⟨c, -, -, -, h⟩
  · exact absurd h hst
  · exact ⟨_, by rw [h, if_pos ⟨hp, rfl⟩]⟩

theorem trace_readOcr (hp : s.cfg.ok = true) : Partial readOcr s fun _ t => Commits OcrRun s t := by
  simp only [readOcr, partial_bind, partial_setSeq, partial_ite]
  have hq0 : Quiet s { s with seq := .v2ReadOcr } := quiet_setSeq rfl
  refine ((trace_command (s := { s with seq := .v2ReadOcr }) 58 0 true hp).and (keeps_command _ _ _ _)).mono
    fun st t h => ?_
  obtain ⟨⟨l, out, hw, hrun, hout, hc⟩, hk⟩ := h
  have hq : Quiet s t := hq0.trans hk.quiet
  have hc : t.cfg = s.cfg := hc
  have hw : t.wire = s.wire ++ l := hw
  have hrun : CommandRun s.cfg 58 0 true l st out := hrun
  refine ⟨fun hst => ?_, fun hst => ?_⟩
  · have hst : st = 0x00 := by simpa [commandOk] using hst
    subst hst
    obtain ⟨o, rfl⟩ := hrun.out_of_ne rfl (by decide)
    simp only [partial_readReg, partial_writeRegs]
    intro o' ho'
    obtain rfl : o = o' := Option.some.inj (hout.symm.trans ho')
    have hr : Quiet t { t with regs := { t.regs with ocr := some o, pendVer := some .sdv2Plus } } :=
      quiet_writeRegs _ rfl
    refine (trace_configureV2 (s := { t with regs := { t.regs with ocr := some o, pendVer := some .sdv2Plus } })
      rfl rfl (by rw [hr.cfg, hc]; exact hp)).mono fun _ u hu => hu.after (hq.trans hr) hw fun l' found h => ?_
    refine ⟨l, 0x00, some o, l', hrun, rfl, ?_⟩
    rw [if_pos rfl]
    exact ⟨o, rfl, h⟩
  · refine trace_negotiationFails.mono fun _ u hu => hu.after hq hw ?_
    rintro l' found ⟨rfl, rfl⟩
    refine ⟨l, st, out, [], hrun, rfl, ?_⟩
    rw [if_neg (by simpa [commandOk] using hst)]
    exact ⟨rfl, rfl⟩

theorem trace_voltageCheckPath {e : Word} (he : s.regs.extOut = some e) (hp : s.cfg.ok = true) :
    Partial voltageCheckPath s fun _ t => Commits (fun p l found => VoltageCheckRun p e l found) s t := by
  simp only [voltageCheckPath, partial_bind, partial_readReg, partial_writeRegs, partial_param, partial_ite,
    partial_setSeq]
  intro e' he'
  obtain rfl : e = e' := Option.some.inj (he.symm.trans he')
  have hr : Quiet s { s with regs := { s.regs with r7 := some e } } := quiet_writeRegs _ rfl
  refine ⟨fun hecho => ?_, fun hecho => ?_⟩
  · have hecho : echoMatches s.cfg e = true := hecho
    have hq : Quiet s { s with
        regs := { s.regs with r7 := some e }
        seq := .v2Acmd41 } := hr.trans (quiet_setSeq rfl)
    refine ((trace_attempts (attempt_appCommand attempt_acmd41Hcs) 0 Config.initIter (by exact hp)).and
      (ends_attempts (F := False) (commandLike_appCommand commandLike_acmd41Hcs) 0 Config.initIter (by nofun)
        (by exact hp)).partial).mono fun cleared t h => ?_
    obtain ⟨⟨l, hl, hw, hc⟩, ht⟩ := h
    have hqt : Quiet s t := hq.trans ht
    have hw : t.wire = s.wire ++ l := hw
    have hc : t.cfg = s.cfg := hc
    have hl : LoopRun (PairRun s.cfg s.cfg.hcsArg) Config.initIter l cleared := hl
    refine ⟨fun hcl => ?_, fun hcl => ?_⟩
    · refine (trace_readOcr (hc.symm ▸ hp)).mono fun _ u hu => hu.after hqt hw fun l' found h => ?_
      rw [VoltageCheckRun, if_pos hecho]
      refine ⟨l, cleared, l', hl, rfl, ?_⟩
      rw [if_pos hcl]
      exact h
    · refine trace_negotiationFails.mono fun _ u hu => hu.after hqt hw ?_
      rintro l' found ⟨rfl, rfl⟩
      rw [VoltageCheckRun, if_pos hecho]
      refine ⟨l, cleared, [], hl, rfl, ?_⟩
      rw [if_neg hcl]
      exact ⟨rfl, rfl⟩
  · have hecho : ¬echoMatches s.cfg e = true := hecho
    refine trace_negotiationFails.mono fun _ u hu => hu.after (l := []) hr (by simp) ?_
    rintro l' found ⟨rfl, rfl⟩
    rw [VoltageCheckRun, if_neg hecho]
    exact ⟨rfl, rfl⟩

theorem trace_configureLegacy {v : Version} (hp : s.cfg.ok = true) : Partial (configureLegacy v) s fun _ t =>
    Commits (fun p l found => BlockLengthRun p v l found) s t := by
  simp only [configureLegacy, partial_bind, partial_writeRegs, partial_setSeq]
  have hq : Quiet s { s with
      regs := { s.regs with pendVer := some v }
      seq := .blockSizeConfig } := (quiet_writeRegs { s.regs with pendVer := some v } rfl).trans (quiet_setSeq rfl)
  exact (trace_setBlockLength (s := { s with
    regs := { s.regs with pendVer := some v }
    seq := .blockSizeConfig }) rfl hp).mono fun _ u hu => hu.after (l := []) hq (by simp) fun _ _ h => h

theorem trace_mmcPath (hp : s.cfg.ok = true) : Partial mmcPath s fun _ t => Commits MmcRun s t := by
  simp only [mmcPath, partial_bind, partial_setSeq, partial_ite]
  have hq : Quiet s { s with seq := .legacyCmd1 } := quiet_setSeq rfl
  refine ((trace_attempts (attempt_command 1 0) 0 Config.initIter (by exact hp)).and
    (ends_attempts (F := False) (commandLike_command 1 0 false) 0 Config.initIter (by nofun) (by exact hp)).partial).mono
      fun mmc t h => ?_
  obtain ⟨⟨l, hl, hw, hc⟩, ht⟩ := h
  have hqt : Quiet s t := hq.trans ht
  have hw : t.wire = s.wire ++ l := hw
  have hc : t.cfg = s.cfg := hc
  have hl : LoopRun (fun l st => CommandRun s.cfg 1 0 false l st none) Config.initIter l mmc := hl
  refine ⟨fun hm => ?_, fun hm => ?_⟩
  · refine (trace_configureLegacy (hc.symm ▸ hp)).mono fun _ u hu => hu.after hqt hw fun l' found h => ?_
    refine ⟨l, mmc, l', hl, rfl, ?_⟩
    rw [if_pos hm]
    exact h
  · refine trace_negotiationFails.mono fun _ u hu => hu.after hqt hw ?_
    rintro l' found ⟨rfl, rfl⟩
    refine ⟨l, mmc, [], hl, rfl, ?_⟩
    rw [if_neg hm]
    exact ⟨rfl, rfl⟩

theorem trace_legacyPath (hp : s.cfg.ok = true) : Partial legacyPath s fun _ t => Commits LegacyRun s t := by
  simp only [legacyPath, partial_bind, partial_setSeq, partial_writeRegs, partial_ite]
  have hq : Quiet s { s with
      seq := .legacyAcmd41
      regs := { s.regs with pendVer := some .none } } :=
    (quiet_setSeq (s := s) (q := .legacyAcmd41) rfl).trans (quiet_writeRegs _ rfl)
  refine ((trace_attempts (attempt_appCommand (attempt_command 41 0)) 0 Config.initIter (by exact hp)).and
    (ends_attempts (F := False) (commandLike_appCommand (commandLike_command 41 0 false)) 0 Config.initIter (by nofun)
      (by exact hp)).partial).mono fun sd t h => ?_
  obtain ⟨⟨l, hl, hw, hc⟩, ht⟩ := h
  have hqt : Quiet s t := hq.trans ht
  have hw : t.wire = s.wire ++ l := hw
  have hc : t.cfg = s.cfg := hc
  have hl : LoopRun (PairRun s.cfg 0) Config.initIter l sd := hl
  refine ⟨fun hs => ?_, fun hs => ?_⟩
  · refine (trace_configureLegacy (hc.symm ▸ hp)).mono fun _ u hu => hu.after hqt hw fun l' found h => ?_
    refine ⟨l, sd, l', hl, rfl, ?_⟩
    rw [if_pos hs]
    exact h
  · refine (trace_mmcPath (hc.symm ▸ hp)).mono fun _ u hu => hu.after hqt hw fun l' found h => ?_
    refine ⟨l, sd, l', hl, rfl, ?_⟩
    rw [if_neg hs]
    exact h

theorem trace_interfaceCheck (hp : s.cfg.ok = true) : Partial interfaceCheck s fun _ t => Commits InterfaceRun s t := by
  simp only [interfaceCheck, cmd8, partial_bind, partial_setSeq, partial_param, partial_ite]
  have hq0 : Quiet s { s with seq := .ifCond } := quiet_setSeq rfl
  refine ((trace_command (s := { s with seq := .ifCond }) 8 s.cfg.r7Pattern true hp).and (keeps_command _ _ _ _)).mono
    fun st t h => ?_
  obtain ⟨⟨l, out, hw, hrun, hout, hc⟩, hk⟩ := h
  have hq : Quiet s t := hq0.trans hk.quiet
  have hc : t.cfg = s.cfg := hc
  have hw : t.wire = s.wire ++ l := hw
  have hrun : CommandRun s.cfg 8 s.cfg.r7Pattern true l st out := hrun
  refine ⟨fun hst => ?_, fun hst => ?_⟩
  · subst hst
    obtain ⟨e, rfl⟩ := hrun.out_of_ne rfl (by decide)
    refine (trace_voltageCheckPath hout (hc.symm ▸ hp)).mono fun _ u hu => hu.after hq hw fun l' found h => ?_
    refine ⟨l, Config.cmd8Accept, some e, l', hrun, rfl, ?_⟩
    rw [if_pos rfl]
    exact ⟨e, rfl, h⟩
  · refine (trace_legacyPath (hc.symm ▸ hp)).mono fun _ u hu => hu.after hq hw fun l' found h => ?_
    refine ⟨l, st, out, l', hrun, rfl, ?_⟩
    rw [if_neg hst]
    exact h

/-- A whole negotiation: its wire events and the family committed (R160). -/
theorem trace_negotiate (hp : s.cfg.ok = true) (hc : s.cs = .deselected) : Partial negotiate s fun _ t =>
    ∃ lp l found, PowerUpRun s.cfg lp ∧ NegotiationRun s.cfg l found ∧
      t.wire = s.wire ++ (lp ++ (l ++ [.deselect])) ∧
      match found with
      | some v => t.version = v ∧ t.status = .ready
      | none => t.version = s.version ∧ t.status = s.status := by
  simp only [negotiate, partial_bind, partial_setSeq, partial_ite]
  refine (ends_powerUp (F := False) (s := { s with seq := .native }) (by nofun) hc).partial.mono fun _ t h => ?_
  obtain ⟨rxs, hlen, hpw⟩ := h.wire
  have hcfg : t.cfg = s.cfg := by rw [h.same]
  have hver : t.version = s.version := by rw [h.same]
  have hstat : t.status = s.status := by rw [h.same]
  refine ((attempt_command 0 0 { t with seq := .idleReset } (by rw [← hp, ← hcfg])).and (keeps_command _ _ _ _)).mono
    fun st u hu => ?_
  obtain ⟨⟨l0, hrun, huw, huc⟩, hk⟩ := hu
  have hrun : CommandRun s.cfg 0 0 false l0 st none := hcfg ▸ hrun
  have huc : u.cfg = s.cfg := huc.trans hcfg
  have huw : u.wire = t.wire ++ l0 := huw
  have huv : u.version = s.version := by
    rw [← hver]
    exact hk.version
  have hus : u.status = s.status := by
    rw [← hstat]
    exact hk.status
  have fin {run : Params → List Event → Option Version → Prop} {v : State} (hv : Commits run u v)
      (hrun' : ∀ l' found, run s.cfg l' found → NegotiationRun s.cfg (l0 ++ l') found) :
      ∃ lp l found, PowerUpRun s.cfg lp ∧ NegotiationRun s.cfg l found ∧
        v.wire = s.wire ++ (lp ++ (l ++ [.deselect])) ∧
        match found with
        | some w => v.version = w ∧ v.status = .ready
        | none => v.version = s.version ∧ v.status = s.status := by
    obtain ⟨l, found, hl, hvw, hf⟩ := hv
    refine ⟨_, l0 ++ l, found, ⟨rxs, hlen, rfl⟩, hrun' l found (huc ▸ hl), ?_, ?_⟩
    · rw [hvw, huw, hpw]
      simp
    · cases found with
      | some w => exact hf
      | none => rw [← huv, ← hus]; exact hf
  refine ⟨fun hst => ?_, fun hst => ?_⟩
  · have hst : st = 0x01 := by simpa [idleAck] using hst
    refine (trace_interfaceCheck (huc.symm ▸ hp)).mono fun _ v hv => fin hv fun l' found h => ?_
    refine ⟨l0, st, l', hrun, rfl, ?_⟩
    rw [if_pos hst]
    exact h
  · have hst : st ≠ 0x01 := by simpa [idleAck] using hst
    refine trace_negotiationFails.mono fun _ v hv => fin hv ?_
    rintro l' found ⟨rfl, rfl⟩
    refine ⟨l0, st, [], hrun, rfl, ?_⟩
    rw [if_neg hst]
    exact ⟨rfl, rfl⟩

end

end Sys2Proof.Machine
end

