-- ==== Sys2Proof/Laws/Script.lean ====
section
/-! SUPPORT. What the procedures do with a card that keeps nobody waiting: its answers given, the value and the
memory they end with. -/

namespace Sys2Proof.Machine

/-- Given the answers `l`, the procedure takes just them, ends with `v` and changes memory as `W` says. -/
def Answers {α : Type} (m : M α) (l : List Byte) (v : α) (W : Memory → Memory) : Prop :=
  ∀ (s : State) (rest : List Byte), s.cfg.ok = true → s.env.transport = none → s.env.answers = l ++ rest →
    ∃ t, m s = .ok v t ∧ t.cfg = s.cfg ∧ t.env.transport = none ∧ t.env.answers = rest ∧ t.mem = W s.mem

section
variable {α β : Type} {m : M α} {f : α → M β} {l l' : List Byte} {a v : α} {b : β} {W W' : Memory → Memory}

theorem Answers.bind (h : Answers m l a W) (h' : ∀ x, x = a → Answers (f x) l' b W') :
    Answers (m >>= f) (l ++ l') b (W' ∘ W) := by
  intro s rest hp ht ha
  obtain ⟨t, h1, hc, ht1, ha1, hm⟩ := h s (l' ++ rest) hp ht (by rw [ha, List.append_assoc])
  obtain ⟨u, h2, hc2, ht2, ha2, hm2⟩ := h' a rfl t rest (hc ▸ hp) ht1 ha1
  exact ⟨u, bind_ok_iff.mpr ⟨a, t, h1, h2⟩, hc2.trans hc, ht2, ha2, by rw [hm2, hm]; rfl⟩

theorem Answers.of_eq (h : Answers m l a W) (hl : l = l') (hw : ∀ x, W x = W' x) : Answers m l' a W' := by
  have : W = W' := funext hw
  rwa [← hl, ← this]

/-- A step, then the rest, for goals whose answers and memory are given. -/
theorem Answers.next {L : List Byte} {V : Memory → Memory} (h : Answers m l a W) (l' : List Byte)
    (W' : Memory → Memory) (hl : L = l ++ l') (hw : ∀ x, V x = W' (W x)) (h' : Answers (f a) l' b W') :
    Answers (m >>= f) L b V :=
  (h.bind fun _ hx => hx ▸ h').of_eq hl.symm fun x => (hw x).symm

theorem answers_pure (a : α) : Answers (pure a : M α) [] a id := fun s _ _ ht ha => ⟨s, rfl, rfl, ht, ha, rfl⟩

theorem answers_xchg (tx b : Byte) : Answers (xchg tx) [b] b id := by
  intro s rest _ ht ha
  refine ⟨s.exchanged tx, ?_, rfl, by simp [ht], by simp [ha], rfl⟩
  simp [xchg, ht, Env.answer_cons _ ha]

theorem answers_rx (b : Byte) : Answers rx [b] b id := answers_xchg _ b

/-- A state write the script does not look at. -/
theorem answers_act {g : State → State}
    (h : ∀ s, (g s).cfg = s.cfg ∧ (g s).env.transport = s.env.transport ∧ (g s).env.answers = s.env.answers ∧
      (g s).mem = W s.mem) : Answers (act g) [] () W := by
  intro s rest _ ht ha
  exact ⟨g s, rfl, (h s).1, (h s).2.1.trans ht, (h s).2.2.1.trans ha, (h s).2.2.2⟩

theorem answers_writeRegs (g : Regs → Regs) : Answers (writeRegs g) [] () id :=
  answers_act fun _ => ⟨rfl, rfl, rfl, rfl⟩

theorem answers_setSeq (q : Seq) : Answers (setSeq q) [] () id := answers_act fun _ => ⟨rfl, rfl, rfl, rfl⟩

/-- The state looked at is the one the procedure begins in. -/
theorem answers_look_bind {g : State → α} {f : α → M β} (h : ∀ a, Answers (f a) l b W) :
    Answers (look g >>= f) l b W := by
  intro s rest hp ht ha
  obtain ⟨t, h1, h2⟩ := h (g s) s rest hp ht ha
  exact ⟨t, bind_ok_iff.mpr ⟨g s, s, rfl, h1⟩, h2⟩

theorem answers_waitReady : Answers waitReady [0xFF] true id := by
  intro s rest _ ht ha
  refine ⟨_, waitReady_at_once ht (Env.answer_cons _ ha), rfl, ?_, ?_, rfl⟩
  · simp [ht]
  · simp [ha]

theorem answers_sendBytes (tx : List Byte) {rx : List Byte} (h : rx.length = tx.length) :
    Answers (sendBytes tx) rx () id := by
  induction tx generalizing rx with
  | nil =>
    obtain rfl := List.length_eq_zero_iff.mp h
    exact answers_pure ()
  | cons b tx ih =>
    obtain ⟨c, rx, rfl⟩ := List.exists_cons_of_length_eq_add_one h
    exact (answers_xchg b c).bind fun _ _ => ih (by simpa using h)

/-! Commands. -/

/-- The first polled byte is the status (41_command.md R123). -/
theorem script_firstPoll {n : Nat} (hn : 1 ≤ n) {st : Byte} (hst : unresolved st = false) {rest : List Byte} (s : State)
    (ht : s.env.transport = none) (ha : s.env.answers = st :: rest) :
    firstPoll n s = .ok () { s with
      env := s.env.afterXchg
      wire := s.wire ++ [.xchg 0xFF st]
      regs := { s.regs with
        resp := some st
        tries := some 1 } } := by
  obtain ⟨k, rfl⟩ : ∃ k, n = k + 1 := ⟨n - 1, by omega⟩
  have ha := Env.answer_cons _ ha
  simp only [firstPoll, pollResponse, writeRegs, act, rx, xchg, bind, EStateM.bind, ht, ha, hst, State.exchanged,
    Config.idleByte, reduceCtorEq, if_false, Bool.false_eq_true]
  rfl

/-- A settled status needs no additional polls, but for a CMD0 status other than `0x01` (R124). -/
theorem script_extraPhase {idx : BitVec 6} {st : Byte} {s : State} (hr : s.regs.resp = some st)
    (h : idx = 0 → st = 0x01) : extraPhase idx s = .ok () s := by
  unfold extraPhase
  split
  · rename_i h0
    obtain rfl := h h0
    have hx : cmd0Extra s.cfg 0x01 = false := by
      unfold cmd0Extra
      split <;> decide
    simp only [cmd0Polls, param, look, bind, EStateM.bind, readReg, hr, id]
    rw [hx]
    rfl
  · rfl

/-- What a command leaves in its destination. -/
def destination (idx : BitVec 6) (dest : Bool) (payload : List Byte) (old : Option Word) : Option Word :=
  if hasPayload idx = true ∧ dest = true then some (payloadWord payload) else old

/-- A command answered at once. -/
theorem script_command {idx : BitVec 6} (arg : Word) {dest : Bool} {d payload : List Byte} {st : Byte}
    (hd : d.length = 6) (hst : unresolved st = false) (h0 : idx = 0 → st = 0x01)
    (hpay : payload.length = if hasPayload idx then 4 else 0) (hdest : hasPayload idx = true → dest = true) (s : State)
    (rest : List Byte) (hp : s.cfg.ok = true) (ht : s.env.transport = none)
    (ha : s.env.answers = (if idx = 0 then d ++ [st] else reply d st) ++ (payload ++ rest)) :
    ∃ t, command idx arg dest s = .ok st t ∧ t.env.transport = none ∧ t.env.answers = rest ∧
      t.regs.extOut = destination idx dest payload s.regs.extOut ∧ CardStep Regs.framerRestored s t := by
  obtain ⟨n, hn, hsend⟩ : ∃ n, 1 ≤ n ∧ command idx arg dest s = sendCommand idx arg n dest s :=
    ⟨s.cfg.nResp, Params.one_le_nResp hp, rfl⟩
  obtain ⟨s1, hl, hs1, hs1t, hs1a, hs1c, hs1d, hs1o⟩ : ∃ s1 : State,
      latchCommand idx arg dest s = .ok () s1 ∧ s1.cfg = s.cfg ∧ s1.env.transport = none ∧ s1.env.answers = s.env.answers ∧
      s1.regs.cmdCrc = some (crcByte idx) ∧ s1.regs.extDest = some dest ∧ s1.regs.extOut = s.regs.extOut :=
    ⟨_, rfl, rfl, ht, rfl, rfl, rfl, rfl⟩
  obtain ⟨s2, hg, hs2t, hs2a, hs2c, hs2d, hs2o⟩ : ∃ s2, readyGate idx s1 = .ok true s2 ∧ s2.env.transport = none ∧
      s2.env.answers = d ++ (st :: (payload ++ rest)) ∧ s2.regs.cmdCrc = some (crcByte idx) ∧
      s2.regs.extDest = some dest ∧ s2.regs.extOut = s.regs.extOut := by
    unfold readyGate
    split
    · rename_i hi
      rw [if_pos hi] at ha
      exact ⟨s1, rfl, hs1t, by rw [hs1a, ha]; simp, hs1c, hs1d, hs1o⟩
    · rename_i hi
      rw [if_neg hi] at ha
      refine ⟨_, waitReady_at_once hs1t (Env.answer_cons _ (l := d ++ (st :: (payload ++ rest))) ?_), ?_, ?_, hs1c, hs1d, hs1o⟩
      · rw [hs1a, ha]
        simp [reply]
      · simp [hs1t]
      · simp [hs1a, ha, reply]
  have hlen : d.length = (frameBytes idx arg (crcByte idx)).length := hd
  obtain ⟨s3, hb, hs3t, hs3a, hs3r⟩ : ∃ s3, sendBytes (frameBytes idx arg (crcByte idx)) s2 = .ok () s3 ∧
      s3.env.transport = none ∧ s3.env.answers = st :: (payload ++ rest) ∧ s3.regs = s2.regs := by
    have he := ends_sendBytes (F := True) (s := s2) (frameBytes idx arg (crcByte idx)) (fun _ => hs2t)
    obtain ⟨_, s3, h3, -, hr⟩ := he.exists trivial
    have hc2 : s2.cfg.ok = true := by
      have := keeps_readyGate idx s1 _ _ hg
      rw [this.cfg, hs1]
      exact hp
    obtain ⟨u, hu, -, hut, hua, -⟩ := answers_sendBytes _ hlen s2 _ hc2 hs2t hs2a
    rw [h3] at hu
    cases hu
    exact ⟨_, h3, hut, hua, hr⟩
  have hpoll := script_firstPoll hn hst s3 hs3t hs3a
  have hx := script_extraPhase (idx := idx) (s := { s3 with
      env := s3.env.afterXchg
      wire := s3.wire ++ [.xchg 0xFF st]
      regs := { s3.regs with
        resp := some st
        tries := some 1 } }) rfl h0
  have hcrc : readReg (fun x => x.cmdCrc) s2 = .ok (crcByte idx) s2 := by simp [readReg, hs2c]
  have hmain : ∃ t, command idx arg dest s = .ok st t ∧ t.env.transport = none ∧ t.env.answers = rest ∧
      t.regs.extOut = destination idx dest payload s.regs.extOut := by
    rw [hsend]
    simp only [sendCommand, transact, sendFrame, bind, EStateM.bind, hl, hg, if_true, hcrc, hb, hpoll, hx]
    by_cases hpl : hasPayload idx = true
    · obtain rfl := hdest hpl
      rw [if_pos hpl] at hpay ⊢
      obtain ⟨b0, payload, rfl⟩ := List.exists_cons_of_length_eq_add_one hpay
      obtain ⟨b1, payload, rfl⟩ := List.exists_cons_of_length_eq_add_one (Nat.succ.inj hpay)
      obtain ⟨b2, payload, rfl⟩ := List.exists_cons_of_length_eq_add_one (Nat.succ.inj (Nat.succ.inj hpay))
      obtain ⟨b3, payload, rfl⟩ := List.exists_cons_of_length_eq_add_one (Nat.succ.inj (Nat.succ.inj (Nat.succ.inj hpay)))
      obtain rfl : payload = [] := by simpa using hpay
      have hd3 : s3.regs.extDest = some true := by rw [hs3r, hs2d]
      simp [readPayload, receiveWord, rx, xchg, bind, EStateM.bind, hs3t, hs3a, writeRegs, act, readReg, hd3,
        State.exchanged, Env.answer, Env.afterXchg, destination, hpl, payloadWord, pure, EStateM.pure]
    · rw [if_neg hpl] at hpay ⊢
      obtain rfl := List.length_eq_zero_iff.mp hpay
      refine ⟨_, rfl, by simp [hs3t], by simp [hs3a], ?_⟩
      simp [destination, hpl, hs3r, hs2o]
  obtain ⟨t, h1, h2, h3, h4⟩ := hmain
  exact ⟨t, h1, h2, h3, h4, keeps_command idx arg dest s st t h1⟩

theorem answers_command {idx : BitVec 6} (arg : Word) {dest : Bool} {d payload : List Byte} {st : Byte}
    (hi : idx ≠ 0) (hd : d.length = 6) (hst : unresolved st = false)
    (hpay : payload.length = if hasPayload idx then 4 else 0) (hdest : hasPayload idx = true → dest = true) :
    Answers (command idx arg dest) (reply d st ++ payload) st id := by
  intro s rest hp ht ha
  obtain ⟨t, h1, h2, h3, -, h5⟩ := script_command (idx := idx) arg hd hst (fun h => absurd h hi) hpay hdest s rest hp ht
    (by rw [if_neg hi, ha, List.append_assoc])
  exact ⟨t, h1, h5.cfg, h2, h3, h5.mem⟩

/-! Blocks. -/

/-- A card that answers the start token at once ends a token wait after one exchange (R190). -/
theorem waitToken_at_once {s : State} (ht : s.env.transport = none) (ha : s.env.answer = 0xFE) :
    waitToken s = .ok true { s with
      env := s.env.afterTick.afterXchg
      wire := s.wire ++ [.xchg 0xFF 0xFE]
      regs := { s.regs with
        t0 := some s.env.tick
        tok := some 0xFE } } := by
  have h : Env.answer s.env.afterTick = 0xFE := ha
  have h0 : s.env.afterTick.transport = none := ht
  simp only [waitToken, pollWait, pollOnce, tickNow, writeRegs, act, param, look, rx, xchg, bind, EStateM.bind, h0, h,
    judgeToken, isStartToken, Config.idleByte, State.exchanged]
  rfl

theorem answers_waitToken : Answers waitToken [0xFE] true id := by
  intro s rest _ ht ha
  exact ⟨_, waitToken_at_once ht (Env.answer_cons _ ha), rfl, by simp [ht], by simp [ha], rfl⟩

theorem answers_memWrite (a : Nat) (b : Byte) : Answers (memWrite a b) [] () fun m => m.write a b :=
  answers_act fun _ => ⟨rfl, rfl, rfl, rfl⟩

theorem answers_streamIn (base : Nat) {data : List Byte} (i : Nat) :
    Answers (streamIn base i data.length) data () fun m => m.store (base + i) data := by
  induction data generalizing i with
  | nil => exact answers_pure ()
  | cons b data ih =>
    refine (answers_writeRegs _).next (b :: data) (fun m => m.store (base + i) (b :: data)) rfl (fun _ => rfl) ?_
    refine (answers_rx b).next data (fun m => m.store (base + i) (b :: data)) rfl (fun _ => rfl) ?_
    exact (answers_memWrite (base + i) b).next data (fun m => m.store (base + (i + 1)) data) rfl (fun _ => rfl) (ih (i + 1))

/-- A block received at once (43_block_transfer.md R190). -/
theorem answers_readBlock (base : Nat) {data crc : List Byte} (hd : data.length = Config.blockBytes) (hc : crc.length = 2) :
    Answers (readBlock base Config.blockBytes) (0xFE :: (data ++ crc)) true fun m => m.store base data := by
  obtain ⟨c0, crc, rfl⟩ := List.exists_cons_of_length_eq_add_one hc
  obtain ⟨c1, crc, rfl⟩ := List.exists_cons_of_length_eq_add_one (Nat.succ.inj hc)
  obtain rfl : crc = [] := by simpa using hc
  have h := answers_streamIn base (data := data) 0
  rw [hd] at h
  refine answers_waitToken.next (data ++ [c0, c1]) (fun m => m.store base data) rfl (fun _ => rfl) ?_
  refine h.next [c0, c1] id rfl (fun _ => rfl) ?_
  refine (answers_rx c0).next [c1] id rfl (fun _ => rfl) ?_
  exact (answers_rx c1).next [] id rfl (fun _ => rfl) (answers_pure true)

theorem answers_streamOut (base : Nat) {during : List Byte} (i : Nat) :
    Answers (streamOut base i during.length) during () id := by
  induction during generalizing i with
  | nil => exact answers_pure ()
  | cons b during ih =>
    exact (answers_writeRegs _).bind fun _ _ => answers_look_bind fun a =>
      (answers_xchg a b).bind fun _ _ => ih (i + 1)

/-- A block sent to a card that is ready at once (R191). -/
theorem answers_writeBlock (base : Nat) (token : Byte) {during : List Byte} {response : Byte}
    (hd : during.length = Config.blockBytes + 3) (hr : dataAccepted response = true) :
    Answers (writeBlock base Config.blockBytes token) (0xFF :: (during ++ [response, 0xFF])) true id := by
  obtain ⟨t, during, rfl⟩ := List.exists_cons_of_length_eq_add_one hd
  obtain ⟨data, crc, rfl, hdl⟩ : ∃ data crc, during = data ++ crc ∧ data.length = Config.blockBytes :=
    ⟨during.take Config.blockBytes, during.drop Config.blockBytes, by simp, by
      simp only [List.length_take, List.length_cons, Nat.add_right_cancel_iff] at hd ⊢
      omega⟩
  have hcl : crc.length = ([0x00, 0x00] : List Byte).length := by
    simp only [List.length_cons, List.length_append, List.length_nil] at hd ⊢
    omega
  have h := answers_streamOut base (during := data) 0
  rw [hdl] at h
  refine answers_waitReady.next (t :: (data ++ (crc ++ [response, 0xFF]))) id (by simp) (fun _ => rfl) ?_
  refine (answers_writeRegs _).next _ id rfl (fun _ => rfl) ?_
  refine (answers_xchg token t).next (data ++ (crc ++ [response, 0xFF])) id rfl (fun _ => rfl) ?_
  refine h.next (crc ++ [response, 0xFF]) id rfl (fun _ => rfl) ?_
  refine (answers_sendBytes _ hcl).next [response, 0xFF] id rfl (fun _ => rfl) ?_
  have hresp : Answers readDataResponse [response] true id := by
    refine (answers_rx response).next [] id rfl (fun _ => rfl) ?_
    refine (answers_writeRegs _).next [] id rfl (fun _ => rfl) ?_
    rw [hr]
    exact answers_pure true
  refine hresp.next [0xFF] id rfl (fun _ => rfl) ?_
  exact answers_waitReady.next [] id rfl (fun _ => rfl) (answers_pure true)

/-- Blocks that all succeed leave the success flag alone (R193, R195). -/
theorem script_blocks {γ : Type} {P : γ → Prop} {block : Nat → M Bool} {l : γ → List Byte} {W : Nat → γ → Memory → Memory}
    {Ws : Nat → List γ → Memory → Memory} (h : ∀ k b, P b → Answers (block k) (l b) true (W k b))
    (hok : ∀ k, Keeps (fun s t => t.regs.ok = s.regs.ok) (block k)) (hnil : ∀ k m, Ws k [] m = m)
    (hcons : ∀ k b bs m, P b → Ws (k + 1) bs (W k b m) = Ws k (b :: bs) m) (bs : List γ) (hbs : ∀ b ∈ bs, P b) (k : Nat)
    (s : State) (rest : List Byte) (hp : s.cfg.ok = true) (ht : s.env.transport = none)
    (ha : s.env.answers = bs.flatMap l ++ rest) :
    ∃ t, blocks block k bs.length s = .ok () t ∧ t.cfg = s.cfg ∧ t.env.transport = none ∧ t.env.answers = rest ∧
      t.mem = Ws k bs s.mem ∧ t.regs.ok = s.regs.ok := by
  induction bs generalizing k s with
  | nil => exact ⟨s, rfl, rfl, ht, ha, (hnil _ _).symm, rfl⟩
  | cons b bs ih =>
    have hb : P b := hbs b (by simp)
    rw [List.flatMap_cons, List.append_assoc] at ha
    obtain ⟨t, h1, hc, ht1, ha1, hm1⟩ := h k b hb { s with regs := { s.regs with blk := some k } } _ hp ht ha
    have ho := hok k _ _ _ h1
    obtain ⟨u, h2, hc2, ht2, ha2, hm2, ho2⟩ := ih (fun b hb => hbs b (by simp [hb])) (k + 1) t (hc ▸ hp) ht1 ha1
    refine ⟨u, ?_, hc2.trans hc, ht2, ha2, ?_, ho2.trans ho⟩
    · simp only [List.length_cons, blocks, writeRegs, act, bind, EStateM.bind, h1, if_true]
      exact h2
    · rw [hm2, hm1]
      exact hcons k b bs s.mem hb

/-- A multi-block transfer whose blocks all succeed (R193, R195). -/
theorem answers_multiBlock {γ : Type} {P : γ → Prop} {block : Nat → M Bool} {l : γ → List Byte}
    {W : Nat → γ → Memory → Memory} {Ws : Nat → List γ → Memory → Memory} {stop : M Unit} {ls : List Byte}
    (h : ∀ k b, P b → Answers (block k) (l b) true (W k b))
    (hok : ∀ k, Keeps (fun s t => t.regs.ok = s.regs.ok) (block k)) (hnil : ∀ k m, Ws k [] m = m)
    (hcons : ∀ k b bs m, P b → Ws (k + 1) bs (W k b m) = Ws k (b :: bs) m) (hs : Answers stop ls () id)
    (hsok : Keeps (fun s t => t.regs.ok = s.regs.ok) stop) (bs : List γ) (hbs : ∀ b ∈ bs, P b) :
    Answers (multiBlock block stop bs.length) (bs.flatMap l ++ ls) true (Ws 0 bs) := by
  intro s rest hp ht ha
  rw [List.append_assoc] at ha
  obtain ⟨t, h1, hc, ht1, ha1, hm1, ho1⟩ := script_blocks h hok hnil hcons bs hbs 0
    { s with
      seq := .xferData
      regs := { s.regs with ok := some true } } _ hp ht ha
  obtain ⟨u, h2, hc2, ht2, ha2, hm2⟩ := hs { t with seq := .xferStop } _ (hc ▸ hp) ht1 ha1
  have ho2 := hsok _ _ _ h2
  have hot : t.regs.ok = some true := ho1
  have hou : u.regs.ok = some true := ho2.trans hot
  refine ⟨u, ?_, hc2.trans hc, ht2, ha2, hm2.trans hm1⟩
  simp only [multiBlock, stopPhase, setSeq, writeRegs, act, bind, EStateM.bind, h1, readReg, hot, param, look,
    Bool.true_or, if_true, h2, hou]

theorem answers_stopRead {d : List Byte} {st stuff : Byte} (hd : d.length = 6) (hst : unresolved st = false) :
    Answers stopRead (reply d st ++ [stuff, 0xFF]) () id := by
  have h := answers_command (idx := 12) 0x00000000 (dest := false) (d := d) (payload := []) (st := st) (by decide) hd hst
    rfl (by decide)
  rw [List.append_nil] at h
  exact h.bind fun _ _ => (answers_rx stuff).bind fun _ _ => answers_waitReady.bind fun _ _ => answers_pure ()

theorem answers_stopTran (b0 b1 : Byte) : Answers stopTran [b0, b1, 0xFF] () id :=
  (answers_xchg _ b0).bind fun _ _ => (answers_rx b1).bind fun _ _ => answers_waitReady.bind fun _ _ => answers_pure ()

/-- A sector command answered `0x00` (R192 to R195). -/
theorem answers_sectorCommand {idx : BitVec 6} (sector : Word) {data : M Bool} {d ld : List Byte} {r : Bool}
    {W : Memory → Memory} (hi : idx ≠ 0) (hpay : hasPayload idx = false) (hd : d.length = 6) (h : Answers data ld r W) :
    Answers (sectorCommand idx sector data) (reply d 0x00 ++ ld) r W := by
  have hc := answers_command (idx := idx) sector (dest := false) (d := d) (payload := []) (st := 0x00) hi hd (by decide)
    (by simp [hpay]) (by simp [hpay])
  rw [List.append_nil] at hc
  exact (answers_setSeq _).bind fun _ _ => hc.bind fun _ hst => by
    subst hst
    exact h

/-- A read whose card keeps nobody waiting (R192, R193). -/
theorem answers_chosenRead {q : ReqArgs} {d d12 : List Byte} {st12 stuff : Byte} {bs : List (List Byte × List Byte)}
    (hn : bs.length = q.count.toNat) (hd : d.length = 6) (hd12 : d12.length = 6) (hst : unresolved st12 = false)
    (hbs : ∀ b ∈ bs, b.1.length = Config.blockBytes ∧ b.2.length = 2) :
    Answers (chosen q singleRead multiRead) (readAnswers q.count.toNat d d12 st12 stuff bs) true
      fun m => m.store q.buf (bs.flatMap (·.1)) := by
  unfold chosen readAnswers
  by_cases h1 : q.count = 1
  · rw [if_pos h1, if_pos (by rw [h1]; rfl)]
    rw [h1] at hn
    obtain ⟨b, rfl⟩ := List.length_eq_one_iff.mp hn
    have hb := hbs b (by simp)
    have hr := answers_readBlock q.buf hb.1 hb.2
    simp only [List.flatMap_cons, List.flatMap_nil, List.append_nil]
    exact answers_sectorCommand _ (by decide) rfl hd ((answers_setSeq _).bind fun _ _ => hr)
  · have h1' : ¬q.count.toNat = 1 := fun h => h1 (BitVec.eq_of_toNat_eq h)
    rw [if_neg h1, if_neg h1', ← hn]
    have hm := answers_multiBlock (γ := List Byte × List Byte)
      (P := fun b => b.1.length = Config.blockBytes ∧ b.2.length = 2)
      (block := fun k => readBlock (blockBase q.buf k) Config.blockBytes) (l := fun b => 0xFE :: (b.1 ++ b.2))
      (W := fun k b m => m.store (blockBase q.buf k) b.1)
      (Ws := fun k bs m => m.store (blockBase q.buf k) (bs.flatMap (·.1)))
      (fun k b hb => answers_readBlock _ hb.1 hb.2) (fun k => (endsBlock_read (F := True) _ _).ok) (fun _ _ => rfl)
      (fun k b bs m hb => by
        simp only [List.flatMap_cons, Memory.store_append, hb.1, blockBase_succ])
      (answers_stopRead (st := st12) (stuff := stuff) hd12 hst) keeps_stopRead_ok bs hbs
    exact answers_sectorCommand _ (by decide) rfl hd hm

/-- A write whose card keeps nobody waiting and accepts every block (R194, R195). -/
theorem answers_chosenWrite {q : ReqArgs} {d : List Byte} {b0 b1 : Byte} {bs : List (List Byte × Byte)}
    (hn : bs.length = q.count.toNat) (hd : d.length = 6)
    (hbs : ∀ b ∈ bs, b.1.length = Config.blockBytes + 3 ∧ dataAccepted b.2 = true) :
    Answers (chosen q singleWrite multiWrite) (writeAnswers q.count.toNat d b0 b1 bs) true id := by
  unfold chosen writeAnswers
  by_cases h1 : q.count = 1
  · rw [if_pos h1, if_pos (by rw [h1]; rfl)]
    rw [h1] at hn
    obtain ⟨b, rfl⟩ := List.length_eq_one_iff.mp hn
    have hb := hbs b (by simp)
    have hr := answers_writeBlock q.buf 0xFE hb.1 hb.2
    simp only [List.flatMap_cons, List.flatMap_nil, List.append_nil]
    exact answers_sectorCommand _ (by decide) rfl hd ((answers_setSeq _).bind fun _ _ => hr)
  · have h1' : ¬q.count.toNat = 1 := fun h => h1 (BitVec.eq_of_toNat_eq h)
    rw [if_neg h1, if_neg h1', ← hn]
    have hm := answers_multiBlock (γ := List Byte × Byte)
      (P := fun b => b.1.length = Config.blockBytes + 3 ∧ dataAccepted b.2 = true)
      (block := fun k => writeBlock (blockBase q.buf k) Config.blockBytes 0xFC) (l := fun b => 0xFF :: (b.1 ++ [b.2, 0xFF]))
      (W := fun _ _ m => m) (Ws := fun _ _ m => m)
      (fun k b hb => answers_writeBlock _ _ hb.1 hb.2) (fun k => (endsBlock_write (F := True) _ _ _).ok) (fun _ _ => rfl)
      (fun _ _ _ _ _ => rfl) (answers_stopTran b0 b1) keeps_stopTran_ok bs hbs
    exact answers_sectorCommand _ (by decide) rfl hd hm

/-! Negotiation. -/

/-- What is left of a negotiation commits `v` and leaves `rest` of the answers. -/
def Commit (m : M Unit) (s : State) (v : Version) (rest : List Byte) : Prop :=
  ∃ t, m s = .ok () t ∧ t.version = v ∧ t.status = .ready ∧ t.env.answers = rest

/-- The draws of a state, as a script needs them. -/
structure Fed (s : State) (l : List Byte) : Prop where
  cfg : s.cfg.ok = true
  transport : s.env.transport = none
  answers : s.env.answers = l

variable {s : State} {rest : List Byte}

theorem commit_negotiationReady {w : Version} (hv : s.regs.pendVer = some w) (hf : Fed s rest) :
    Commit negotiationReady s w rest := by
  refine ⟨{ s with
    seq := .negEnd
    version := w
    status := .ready
    cs := .deselected
    wire := s.wire ++ [.deselect] }, ?_, rfl, rfl, hf.answers⟩
  simp [negotiationReady, deselect, setSeq, emit, act, readReg, hv, bind, EStateM.bind]

/-- A command within the negotiation, answered at once. -/
theorem fed_command {idx : BitVec 6} (arg : Word) {dest : Bool} {d payload : List Byte} {st : Byte} (hi : idx ≠ 0)
    (hd : d.length = 6) (hst : unresolved st = false) (hpay : payload.length = if hasPayload idx then 4 else 0)
    (hdest : hasPayload idx = true → dest = true) (hf : Fed s (reply d st ++ (payload ++ rest))) :
    ∃ t, command idx arg dest s = .ok st t ∧ Fed t rest ∧
      t.regs.extOut = destination idx dest payload s.regs.extOut ∧ t.regs.pendVer = s.regs.pendVer ∧ t.cfg = s.cfg := by
  obtain ⟨t, h1, h2, h3, h4, h5⟩ := script_command (idx := idx) arg hd hst (fun h => absurd h hi) hpay hdest s rest hf.cfg
    hf.transport (by rw [if_neg hi, hf.answers])
  have hv : t.regs.pendVer = s.regs.pendVer := by
    have h' := congrArg Regs.pendVer h5.regs
    exact h'
  exact ⟨t, h1, ⟨by rw [h5.cfg]; exact hf.cfg, h2, h3⟩, h4, hv, h5.cfg⟩

theorem commit_setBlockLength {w : Version} {d : List Byte} (hd : d.length = 6) (hv : s.regs.pendVer = some w)
    (hf : Fed s (reply d 0x00 ++ rest)) : Commit setBlockLength s w rest := by
  obtain ⟨t, h1, h2, -, h4, -⟩ := fed_command (idx := 16) 0x00000200 (dest := false) (payload := []) (by decide) hd
    (by decide) rfl (by decide) hf
  obtain ⟨u, h5, h6⟩ := commit_negotiationReady (h4.trans hv) h2
  exact ⟨u, bind_ok_iff.mpr ⟨_, t, h1, h5⟩, h6⟩

theorem commit_configureV2 {o : Word} {d : List Byte} (hd : d.length = 6) (ho : s.regs.ocr = some o)
    (hv : s.regs.pendVer = some .sdv2Plus)
    (hf : Fed s ((if highCapacity s.cfg o = true then [] else reply d 0x00) ++ rest)) :
    Commit configureV2 s .sdv2Plus rest := by
  have hb : configureV2 s = (if highCapacity s.cfg o = true then negotiationReady else setBlockLength)
      { s with seq := .blockSizeConfig } := by
    simp [configureV2, setSeq, act, readReg, ho, param, look, bind, EStateM.bind]
  unfold Commit
  rw [hb]
  by_cases h : highCapacity s.cfg o = true
  · rw [if_pos h] at hf ⊢
    exact commit_negotiationReady (s := { s with seq := .blockSizeConfig }) hv ⟨hf.cfg, hf.transport, hf.answers⟩
  · rw [if_neg h] at hf ⊢
    exact commit_setBlockLength (s := { s with seq := .blockSizeConfig }) hd hv ⟨hf.cfg, hf.transport, hf.answers⟩

theorem commit_readOcr {d d' ocr : List Byte} (hd : d.length = 6) (hd' : d'.length = 6) (ho : ocr.length = 4)
    (hf : Fed s (reply d 0x00 ++ (ocr ++
      ((if highCapacity s.cfg (payloadWord ocr) = true then [] else reply d' 0x00) ++ rest)))) :
    Commit readOcr s .sdv2Plus rest := by
  have hf' : Fed { s with seq := .v2ReadOcr } _ := ⟨hf.cfg, hf.transport, hf.answers⟩
  obtain ⟨t, h1, h2, h3, -, hc⟩ := fed_command (idx := 58) 0x00000000 (dest := true) (payload := ocr) (by decide) hd
    (by decide) ho (fun _ => rfl) hf'
  have h3 : t.regs.extOut = some (payloadWord ocr) := h3
  have hc : t.cfg = s.cfg := hc
  obtain ⟨u, h5, h6⟩ := commit_configureV2 (s := { t with regs := { t.regs with
      ocr := some (payloadWord ocr)
      pendVer := some .sdv2Plus } }) (rest := rest) hd' rfl rfl ⟨h2.cfg, h2.transport, by
    simp only [hc]
    exact h2.answers⟩
  refine ⟨u, ?_, h6⟩
  have hx : readReg (fun x => x.extOut) t = .ok (payloadWord ocr) t := by simp [readReg, h3]
  exact bind_ok_iff.mpr ⟨_, _, rfl, bind_ok_iff.mpr ⟨_, t, h1, bind_ok_iff.mpr ⟨_, t, hx, bind_ok_iff.mpr ⟨_, _, rfl, h5⟩⟩⟩⟩

/-- A command-like procedure answered with `st` (and nothing left over). -/
def FedCall (m : M Byte) (l : List Byte) (st : Byte) : Prop :=
  ∀ (s : State) (rest : List Byte), Fed s (l ++ rest) → ∃ t, m s = .ok st t ∧ Fed t rest ∧ t.cfg = s.cfg

theorem fedCall_command {idx : BitVec 6} (arg : Word) {d : List Byte} {st : Byte} (hi : idx ≠ 0)
    (hp : hasPayload idx = false) (hd : d.length = 6) (hst : unresolved st = false) :
    FedCall (command idx arg false) (reply d st) st := fun s rest hf => by
  obtain ⟨t, h1, h2, -, -, h5⟩ := fed_command (idx := idx) arg (dest := false) (payload := []) hi hd hst (by simp [hp])
    (by simp [hp]) (rest := rest) hf
  exact ⟨t, h1, h2, h5⟩

theorem fedCall_acmd41Hcs {d : List Byte} {st : Byte} (hd : d.length = 6) (hst : unresolved st = false) :
    FedCall acmd41Hcs (reply d st) st := fun s rest hf =>
  fedCall_command s.cfg.hcsArg (by decide) rfl hd hst s rest hf

/-- A CMD55 pair (30_encoding.md R73). -/
theorem fedCall_pair {m : M Byte} {d d' : List Byte} {st55 st : Byte} (hd : d.length = 6) (h55 : unresolved st55 = false)
    (hm : FedCall m (reply d' st) st) : FedCall (appCommand m) (reply d st55 ++ reply d' st) st := fun s rest hf => by
  rw [List.append_assoc] at hf
  obtain ⟨t, h1, h2, h3⟩ := fedCall_command (idx := 55) 0x00000000 (by decide) rfl hd h55 s _ hf
  obtain ⟨u, g1, g2, g3⟩ := hm t rest h2
  exact ⟨u, bind_ok_iff.mpr ⟨_, t, h1, g1⟩, g2, g3.trans h3⟩

/-- The attempt that clears ends its loop (R165, R168, R169). -/
theorem fed_attempt {m : M Byte} {l : List Byte} (hm : FedCall m l 0x00) (done k : Nat) (hf : Fed s (l ++ rest)) :
    ∃ t, attempts m done (k + 1) s = .ok true t ∧ Fed t rest ∧ t.cfg = s.cfg := by
  obtain ⟨t, h1, h2, h3⟩ := hm { s with regs := { s.regs with iter := some (done + 1) } } rest
    ⟨hf.cfg, hf.transport, hf.answers⟩
  exact ⟨t, bind_ok_iff.mpr ⟨_, _, rfl, bind_ok_iff.mpr ⟨_, t, h1, rfl⟩⟩, h2, h3⟩

/-- Attempts that never clear exhaust their loop (R168). -/
theorem fed_exhausted {m : M Byte} {l : List Byte} {st : Byte} (hm : FedCall m l st) (hne : st ≠ 0x00) (done k : Nat)
    (hf : Fed s ((List.replicate k l).flatten ++ rest)) :
    ∃ t, attempts m done k s = .ok false t ∧ Fed t rest ∧ t.cfg = s.cfg := by
  induction k generalizing s done with
  | zero => exact ⟨s, rfl, hf, rfl⟩
  | succ k ih =>
    rw [List.replicate_succ, List.flatten_cons, List.append_assoc] at hf
    obtain ⟨t, h1, h2, h3⟩ := hm { s with regs := { s.regs with iter := some (done + 1) } } _
      ⟨hf.cfg, hf.transport, hf.answers⟩
    obtain ⟨u, g1, g2, g3⟩ := ih (done + 1) h2
    have hk : commandOk st = false := by simpa [commandOk] using hne
    refine ⟨u, bind_ok_iff.mpr ⟨_, _, rfl, bind_ok_iff.mpr ⟨_, t, h1, ?_⟩⟩, g2, g3.trans h3⟩
    simpa [hk] using g1

theorem commit_configureLegacy {w : Version} {d : List Byte} (hd : d.length = 6) (hf : Fed s (reply d 0x00 ++ rest)) :
    Commit (configureLegacy w) s w rest := by
  obtain ⟨u, h1, h2⟩ := commit_setBlockLength (s := { s with
    regs := { s.regs with pendVer := some w }
    seq := .blockSizeConfig }) (w := w) hd rfl ⟨hf.cfg, hf.transport, hf.answers⟩
  exact ⟨u, h1, h2⟩

/-- CMD8 accepted or not, its echo read (R163). -/
theorem fed_cmd8 {d echo : List Byte} {st : Byte} (hd : d.length = 6) (he : echo.length = 4)
    (hst : unresolved st = false) (hf : Fed s (reply d st ++ (echo ++ rest))) :
    ∃ t, cmd8 true s = .ok st t ∧ Fed t rest ∧ t.regs.extOut = some (payloadWord echo) ∧ t.cfg = s.cfg := by
  obtain ⟨t, h1, h2, h3, -, h5⟩ := fed_command (idx := 8) s.cfg.r7Pattern (dest := true) (payload := echo) (by decide) hd hst
    he (fun _ => rfl) hf
  exact ⟨t, h1, h2, h3, h5⟩

/-- The discarded bytes of each command. -/
def Discards (d : Nat → List Byte) : Prop := ∀ k, (d k).length = 6

/-- An SD v2 card (R163 to R167). -/
theorem commit_v2 {d : Nat → List Byte} {st55 : Byte} {echo ocr : List Byte} (hd : Discards d) (h55 : unresolved st55 = false)
    (he : echo.length = 4) (hm : echoMatches s.cfg (payloadWord echo) = true) (ho : ocr.length = 4)
    (hf : Fed s (v2Answers s.cfg d st55 echo ocr ++ rest)) : Commit interfaceCheck s .sdv2Plus rest := by
  unfold v2Answers at hf
  simp only [List.append_assoc] at hf
  obtain ⟨t, h1, h2, h3, h4⟩ := fed_cmd8 (s := { s with seq := .ifCond }) (hd 1) he (by decide)
    ⟨hf.cfg, hf.transport, hf.answers⟩
  have h4 : t.cfg = s.cfg := h4
  have hx : readReg (fun x => x.extOut) t = .ok (payloadWord echo) t := by simp [readReg, h3]
  have hpair := fedCall_pair (d := d 2) (d' := d 3) (hd 2) h55 (fedCall_acmd41Hcs (hd 3) (by decide : unresolved 0x00 = false))
  obtain ⟨u, g1, g2, g3⟩ := fed_attempt (s := { t with
      regs := { t.regs with r7 := some (payloadWord echo) }
      seq := .v2Acmd41 }) hpair 0 (Config.initIter - 1) (by
    rw [List.append_assoc]
    exact ⟨h2.cfg, h2.transport, h2.answers⟩)
  have g3 : u.cfg = s.cfg := Eq.trans g3 h4
  obtain ⟨v, k1, k2⟩ := commit_readOcr (s := u) (rest := rest) (hd 4) (hd 5) ho (by rw [g3]; exact g2)
  refine ⟨v, bind_ok_iff.mpr ⟨_, _, rfl, bind_ok_iff.mpr ⟨_, t, h1, ?_⟩⟩, k2⟩
  rw [if_pos (by rfl)]
  refine bind_ok_iff.mpr ⟨_, t, hx, bind_ok_iff.mpr ⟨_, _, rfl, bind_ok_iff.mpr ⟨_, _, rfl, ?_⟩⟩⟩
  have hm' : echoMatches t.cfg (payloadWord echo) = true := by rw [h4]; exact hm
  refine Eq.trans (congrFun (if_pos hm') _) ?_
  exact bind_ok_iff.mpr ⟨_, _, rfl, bind_ok_iff.mpr ⟨_, u, g1, k1⟩⟩

/-- CMD8 turned down, then what the legacy path commits (R163, R168). -/
theorem commit_legacy {d : Nat → List Byte} {st8 : Byte} {echo l : List Byte} {w : Version} (hd : Discards d)
    (h8 : unresolved st8 = false) (h8' : st8 ≠ 0x01) (he : echo.length = 4) (hf : Fed s (reply (d 1) st8 ++ (echo ++ l)))
    (h : ∀ t : State, Fed t l → Commit legacyPath t w rest) : Commit interfaceCheck s w rest := by
  obtain ⟨t, h1, h2, -, -⟩ := fed_cmd8 (s := { s with seq := .ifCond }) (rest := l) (hd 1) he h8
    ⟨hf.cfg, hf.transport, hf.answers⟩
  obtain ⟨u, g1, g2⟩ := h t h2
  refine ⟨u, bind_ok_iff.mpr ⟨_, _, rfl, bind_ok_iff.mpr ⟨_, t, h1, ?_⟩⟩, g2⟩
  rw [if_neg (by simpa [Config.cmd8Accept] using h8')]
  exact g1

/-- An SD v1 card (R168, R170). -/
theorem commit_v1 {d : Nat → List Byte} {st8 st55 : Byte} {echo : List Byte} (hd : Discards d)
    (h8 : unresolved st8 = false) (h8' : st8 ≠ 0x01) (h55 : unresolved st55 = false) (he : echo.length = 4)
    (hf : Fed s (v1Answers d st8 st55 echo ++ rest)) : Commit interfaceCheck s .sdv1 rest := by
  unfold v1Answers at hf
  rw [List.append_assoc, List.append_assoc] at hf
  refine commit_legacy hd h8 h8' he hf fun t ht => ?_
  have hpair := fedCall_pair (d := d 2) (d' := d 3) (hd 2) h55
    (fedCall_command (idx := 41) 0x00000000 (by decide) rfl (hd 3) (by decide : unresolved 0x00 = false))
  obtain ⟨u, g1, g2, -⟩ := fed_attempt (s := { t with
      seq := .legacyAcmd41
      regs := { t.regs with pendVer := some .none } }) hpair 0 (Config.initIter - 1) (rest := reply (d 5) 0x00 ++ rest) (by
    rw [List.append_assoc]
    rw [List.append_assoc, List.append_assoc] at ht
    exact ⟨ht.cfg, ht.transport, ht.answers⟩)
  obtain ⟨v, k1, k2⟩ := commit_configureLegacy (w := .sdv1) (hd 5) g2
  exact ⟨v, bind_ok_iff.mpr ⟨_, _, rfl, bind_ok_iff.mpr ⟨_, _, rfl, bind_ok_iff.mpr ⟨_, u, g1, k1⟩⟩⟩, k2⟩

/-- An MMC card (R168 to R170). -/
theorem commit_mmc {d : Nat → List Byte} {st8 st55 st41 : Byte} {echo : List Byte} (hd : Discards d)
    (h8 : unresolved st8 = false) (h8' : st8 ≠ 0x01) (h55 : unresolved st55 = false) (h41 : unresolved st41 = false)
    (h41' : st41 ≠ 0x00) (he : echo.length = 4)
    (hf : Fed s (mmcAnswers d st8 st55 st41 echo ++ rest)) : Commit interfaceCheck s .mmcv3 rest := by
  unfold mmcAnswers at hf
  rw [List.append_assoc, List.append_assoc] at hf
  refine commit_legacy hd h8 h8' he hf fun t ht => ?_
  have hpair := fedCall_pair (d := d 2) (d' := d 3) (hd 2) h55
    (fedCall_command (idx := 41) 0x00000000 (by decide) rfl (hd 3) h41)
  obtain ⟨u, g1, g2, -⟩ := fed_exhausted (s := { t with
      seq := .legacyAcmd41
      regs := { t.regs with pendVer := some .none } }) hpair h41' 0 Config.initIter
      (rest := reply (d 4) 0x00 ++ (reply (d 5) 0x00 ++ rest)) (by
    rw [List.append_assoc, List.append_assoc] at ht
    exact ⟨ht.cfg, ht.transport, ht.answers⟩)
  obtain ⟨v, k1, k2, -⟩ := fed_attempt (s := { u with seq := .legacyCmd1 })
    (fedCall_command (idx := 1) 0x00000000 (by decide) rfl (hd 4) (by decide : unresolved 0x00 = false)) 0
    (Config.initIter - 1) (rest := reply (d 5) 0x00 ++ rest) ⟨g2.cfg, g2.transport, g2.answers⟩
  obtain ⟨w, j1, j2⟩ := commit_configureLegacy (w := .mmcv3) (hd 5) k2
  refine ⟨w, bind_ok_iff.mpr ⟨_, _, rfl, bind_ok_iff.mpr ⟨_, _, rfl, bind_ok_iff.mpr ⟨_, u, g1, ?_⟩⟩⟩, j2⟩
  exact bind_ok_iff.mpr ⟨_, _, rfl, bind_ok_iff.mpr ⟨_, v, k1, j1⟩⟩

theorem answers_dummyBytes {pu : List Byte} (done : Nat) : Answers (dummyBytes done pu.length) pu () id := by
  induction pu generalizing done with
  | nil => exact answers_pure ()
  | cons b pu ih =>
    refine (answers_writeRegs _).next (b :: pu) id rfl (fun _ => rfl) ?_
    exact (answers_xchg _ b).next pu id rfl (fun _ => rfl) (ih (done + 1))

/-- A negotiation whose power-up and CMD0 are answered at once, then what the rest commits (R160 to R162). -/
theorem commit_negotiate {pu d0 l : List Byte} {w : Version} (hpu : pu.length = s.cfg.powerupBytes) (hd0 : d0.length = 6)
    (hc : s.cs = .deselected) (hf : Fed s (resetAnswers pu d0 ++ l))
    (h : ∀ t : State, t.cfg = s.cfg → Fed t l → Commit interfaceCheck t w rest) : Commit negotiate s w rest := by
  unfold resetAnswers at hf
  rw [List.append_assoc] at hf
  obtain ⟨_, t, h1, hp⟩ := (ends_powerUp (F := True) (s := { s with seq := .native }) (fun _ => hf.transport) hc).exists trivial
  have hcfg : t.cfg = s.cfg := by rw [hp.same]
  have hans : t.env.answers = d0 ++ [0x01] ++ l := by
    obtain ⟨u, g1, -, -, g4, -⟩ := answers_dummyBytes (pu := pu) 0 { s with
      seq := .native
      speed := .slow
      wire := s.wire ++ [.setSpeed .slow] } _ hf.cfg hf.transport hf.answers
    rw [hpu] at g1
    obtain ⟨_, _, e, h1⟩ := bind_ok_iff.mp h1
    cases e
    obtain ⟨_, _, e, h1⟩ := bind_ok_iff.mp h1
    cases e
    obtain ⟨_, _, e, h1⟩ := bind_ok_iff.mp h1
    have e := e.symm.trans g1
    cases e
    obtain ⟨_, _, e, h1⟩ := bind_ok_iff.mp h1
    cases e
    have hsel : Keeps (fun s t => t.env = s.env) select := fun s => by
      simp only [select, partial_bind, partial_look, partial_ite, partial_act, partial_emit, partial_faultWith]
      exact ⟨fun _ => trivial, fun _ => trivial⟩
    rw [hsel _ _ _ h1]
    exact g4
  obtain ⟨u, g1, g2, g3, -, g5⟩ := script_command (idx := 0) 0x00000000 (dest := false) (payload := []) (st := 0x01) hd0
    (by decide) (fun _ => rfl) rfl (by decide) { t with seq := .idleReset } l (hcfg ▸ hf.cfg) (hp.transport hf.transport)
    hans
  have hcu : u.cfg = s.cfg := g5.cfg.trans hcfg
  obtain ⟨v, k1, k2⟩ := h u hcu ⟨hcu ▸ hf.cfg, g2, g3⟩
  exact ⟨v, bind_ok_iff.mpr ⟨_, _, rfl, bind_ok_iff.mpr ⟨_, t, h1, bind_ok_iff.mpr ⟨_, _, rfl,
    bind_ok_iff.mpr ⟨_, u, g1, k1⟩⟩⟩⟩, k2⟩

end

end Sys2Proof.Machine
end

