-- ==== Sys2Proof/Laws/Exec.lean ====
section
/-! SUPPORT. What one instruction can do: a procedure called by itself, and each request. -/

namespace Sys2Proof.Machine

section
variable {s t : State} {F : Prop}

/-! Procedures called by themselves. -/

theorem enter_next {u : Unit} (h : enter s = .ok u t) : s.Legal ∧ t = s := by
  unfold enter at h
  split at h
  · cases h
  · split at h
    · rename_i h1 h2
      cases h
      exact ⟨⟨by simpa using h1, h2⟩, rfl⟩
    · cases h

theorem call_next {m : M (Option Ret)} (h : run (call m) s = .next t) :
    s.Legal ∧ ∃ r u, m s = .ok r u ∧ t = u.returned r := by
  obtain ⟨_, s1, h1, h⟩ := bind_ok_iff.mp (run_eq_next_iff.mp h)
  obtain ⟨hl, e⟩ := enter_next h1
  rw [e] at h
  obtain ⟨r, u, h2, h3⟩ := bind_ok_iff.mp h
  cases h3
  exact ⟨hl, r, u, h2, rfl⟩

theorem callByte_next {m : M Byte} (h : run (callByte m) s = .next t) :
    s.Legal ∧ ∃ b u, m s = .ok b u ∧ t = u.returned (some (.byte b)) := by
  obtain ⟨hl, r, u, h1, rfl⟩ := call_next h
  obtain ⟨b, v, h2, h3⟩ := bind_ok_iff.mp h1
  cases h3
  exact ⟨hl, b, _, h2, rfl⟩

theorem callBool_next {m : M Bool} (h : run (callBool m) s = .next t) :
    s.Legal ∧ ∃ b u, m s = .ok b u ∧ t = u.returned (some (.bool b)) := by
  obtain ⟨hl, r, u, h1, rfl⟩ := call_next h
  obtain ⟨b, v, h2, h3⟩ := bind_ok_iff.mp h1
  cases h3
  exact ⟨hl, b, _, h2, rfl⟩

theorem callUnit_next {m : M Unit} (h : run (callUnit m) s = .next t) :
    s.Legal ∧ ∃ u, m s = .ok () u ∧ t = u.returned none := by
  obtain ⟨hl, r, u, h1, rfl⟩ := call_next h
  obtain ⟨b, v, h2, h3⟩ := bind_ok_iff.mp h1
  cases h3
  exact ⟨hl, _, h2, rfl⟩

theorem call_of_ok {m : M (Option Ret)} {r : Option Ret} (hl : s.Legal) (h : m s = .ok r t) :
    run (call m) s = .next (t.returned r) :=
  run_eq_next_iff.mpr (bind_ok_iff.mpr ⟨_, s, enter_of_legal hl, bind_ok_iff.mpr ⟨_, t, h, rfl⟩⟩)

theorem callByte_of_ok {m : M Byte} {b : Byte} (hl : s.Legal) (h : m s = .ok b t) :
    run (callByte m) s = .next (t.returned (some (.byte b))) :=
  call_of_ok hl (bind_ok_iff.mpr ⟨b, t, h, rfl⟩)

theorem callBool_of_ok {m : M Bool} {b : Bool} (hl : s.Legal) (h : m s = .ok b t) :
    run (callBool m) s = .next (t.returned (some (.bool b))) :=
  call_of_ok hl (bind_ok_iff.mpr ⟨b, t, h, rfl⟩)

theorem callUnit_of_ok {m : M Unit} (hl : s.Legal) (h : m s = .ok () t) :
    run (callUnit m) s = .next (t.returned none) :=
  call_of_ok hl (bind_ok_iff.mpr ⟨(), t, h, rfl⟩)

/-- A lent buffer is claimed with no effect. -/
theorem claimBuffer_of_lends {acc : Access} {base n : Nat} (h : s.Lends acc base n) :
    claimBuffer acc base n s = .ok () s :=
  bind_ok_iff.mpr ⟨_, s, bufferUntouched_of h.untouched, bufferAccessible_of h.ok⟩

theorem claimBuffer_next {acc : Access} {base n : Nat} {u : Unit} (h : claimBuffer acc base n s = .ok u t) :
    s.Lends acc base n ∧ t = s := by
  obtain ⟨_, u, h1, h2⟩ := bind_ok_iff.mp h
  cases hu : s.intrusions.any (HostAct.touches base n) with
  | true =>
    rw [bufferUntouched_refuses hu] at h1
    cases h1
  | false =>
    rw [bufferUntouched_of hu] at h1
    cases h1
    cases hok : s.bufferOk acc base n with
    | true =>
      rw [bufferAccessible_of hok] at h2
      cases h2
      exact ⟨⟨hok, hu⟩, rfl⟩
    | false =>
      rw [bufferAccessible_refuses hok] at h2
      cases h2

/-- A buffer a procedure cannot use is refused (60_exceptions.md R245): the touched one first (log 21). -/
theorem claimBuffer_refuses {acc : Access} {base n : Nat} (h : ¬s.Lends acc base n) :
    claimBuffer acc base n s = .error (.refuse
      (if s.intrusions.any (HostAct.touches base n) = true then .bufferTouched else .badBuffer)) s := by
  cases hu : s.intrusions.any (HostAct.touches base n) with
  | true => simp [claimBuffer, bind, EStateM.bind, bufferUntouched_refuses hu]
  | false =>
    have hok : s.bufferOk acc base n = false := by
      by_contra hok
      exact h ⟨by simpa using hok, hu⟩
    simp [claimBuffer, bind, EStateM.bind, bufferUntouched_of hu, bufferAccessible_refuses hok]

/-- A procedure called by itself that is refused. -/
theorem call_refuses {m : M (Option Ret)} {r : Refusal} (hl : s.Legal) (h : ∃ u, m s = .error (.refuse r) u) :
    run (call m) s = .refused r := by
  obtain ⟨u, h⟩ := h
  simp [run, call, bind, EStateM.bind, enter_of_legal hl, h]

/-- A procedure that refuses its buffer, called by itself. -/
theorem claimed_refuses {acc : Access} {base n : Nat} {m : M Bool} (hl : s.Legal) (h : ¬s.Lends acc base n) :
    run (callBool (claimBuffer acc base n >>= fun _ => m)) s = .refused
      (if s.intrusions.any (HostAct.touches base n) = true then .bufferTouched else .badBuffer) := by
  refine call_refuses hl ⟨s, ?_⟩
  simp only [bind, EStateM.bind, claimBuffer_refuses h]

/-- What a procedure called by itself can do (log 15). -/
structure CallStep (s t : State) : Prop where
  same : t = { s with
    cs := t.cs
    speed := t.speed
    regs := t.regs
    mem := t.mem
    env := t.env
    wire := t.wire
    ret := t.ret }
  wire : s.wire <+: t.wire
  op : t.regs.reqOp = s.regs.reqOp
  unit : t.regs.reqUnit = s.regs.reqUnit
  buf : t.regs.reqBuf = s.regs.reqBuf
  sector : t.regs.reqSector = s.regs.reqSector
  count : t.regs.reqCount = s.regs.reqCount
  result : t.regs.result = s.regs.result

theorem BlockStep.call {R : Memory → Memory → Prop} {g : Regs → Regs → Regs} (h : BlockStep g R s t)
    (hg : ∀ a b : Regs, g a b = a → a.sectorRestored b = a) (r : Option Ret) : CallStep s (t.returned r) := by
  have hr := hg _ _ h.regs
  obtain ⟨l, hl, -⟩ := h.wire
  refine ⟨?_, ⟨l, hl.symm⟩, ?_, ?_, ?_, ?_, ?_, ?_⟩
  · show State.returned t r = _
    rw [h.same]
    rfl
  · exact (congrArg Regs.reqOp hr :)
  · exact (congrArg Regs.reqUnit hr :)
  · exact (congrArg Regs.reqBuf hr :)
  · exact (congrArg Regs.reqSector hr :)
  · exact (congrArg Regs.reqCount hr :)
  · exact (congrArg Regs.result hr :)

theorem CardStep.call {g : Regs → Regs → Regs} (h : CardStep g s t)
    (hg : ∀ a b : Regs, g a b = a → a.sectorRestored b = a) (r : Option Ret) : CallStep s (t.returned r) :=
  (h.block memRel_eq).call hg r

/-- A command row runs one command (41_command.md R127). -/
theorem exec_command {i : Instr} {idx : BitVec 6} {arg : Word} (h : frameOf s.cfg i = some (idx, arg)) :
    exec i s = run (callByte (command idx arg (destOf i))) s := by
  have hread {f : Params → Word} {m : Word → M Byte} : run (callByte (param f >>= m)) s = run (callByte (m (f s.cfg))) s := by
    simp only [run, callByte, call, bind, EStateM.bind, param, look]
    cases he : enter s with
    | error e u => rfl
    | ok a u => rw [(enter_next he).2]
  cases i
  case cmd8 dest =>
    cases h
    exact hread (f := (·.r7Pattern)) (m := fun p => command 8 p dest)
  case acmd41Hcs1 =>
    cases h
    exact hread (f := (·.hcsArg)) (m := fun p => command 41 p false)
  case cmd0 | cmd1 | cmd12 | cmd16 | cmd17 | cmd18 | cmd24 | cmd25 | cmd55 | acmd41Hcs0 | cmd58 =>
    cases h
    rfl
  all_goals cases h

/-- The block received after a scripted start token writes its buffer only. -/
theorem block_startBlockRx (base : Nat) : Keeps (BlockStep Regs.blockRestored (StoresOnly base Config.blockBytes)) (do
    answerNext 0xFE
    readBlock base Config.blockBytes) :=
  have hR := memRel_storesOnly base Config.blockBytes
  block_bind restores_block hR ((keeps_answerNext restores_block _).block hR) fun _ =>
    block_readBlock base Config.blockBytes fun _ => ⟨le_rfl, le_rfl⟩

/-- What the rows no host can submit do. -/
theorem exec_call {i : Instr} (hi : requestOf i = none) (h : exec i s = .next t) : CallStep s t := by
  have hcmd {idx : BitVec 6} {arg : Word} (hf : frameOf s.cfg i = some (idx, arg)) : CallStep s t := by
    rw [exec_command hf] at h
    obtain ⟨-, b, u, h1, rfl⟩ := callByte_next h
    exact (keeps_command _ _ _ _ _ _ h1).call framer_sector _
  have hbyte {m : M Byte} (hk : Keeps (CardStep Regs.framerRestored) m) (hr : run (callByte m) s = .next t) :
      CallStep s t := by
    obtain ⟨-, b, u, h1, rfl⟩ := callByte_next hr
    exact (hk _ _ _ h1).call framer_sector _
  have hblock {m : M Bool} {R : Memory → Memory → Prop} (hk : Keeps (BlockStep Regs.blockRestored R) m)
      (hr : run (callBool m) s = .next t) : CallStep s t := by
    obtain ⟨-, b, u, h1, rfl⟩ := callBool_next hr
    exact (hk _ _ _ h1).call block_sector _
  have hclaimed {acc : Access} {base n : Nat} {m : M Bool} {R : Memory → Memory → Prop}
      (hk : Keeps (BlockStep Regs.blockRestored R) m)
      (hr : run (callBool (claimBuffer acc base n >>= fun _ => m)) s = .next t) : CallStep s t := by
    obtain ⟨-, b, u, h1, rfl⟩ := callBool_next hr
    obtain ⟨_, v, h2, h3⟩ := bind_ok_iff.mp h1
    obtain ⟨-, rfl⟩ := claimBuffer_next h2
    exact (hk _ _ _ h3).call block_sector _
  have hg := restores_framer
  have hb := restores_block
  cases i
  case status | init | read | write | ioctl => simp [requestOf] at hi
  case r1Valid | r1Unresolved => exact hbyte (keeps_pollAnswered _) h
  case idleFiller | xchg => exact hbyte (keeps_xchg hg _) h
  case rx => exact hbyte (keeps_rx hg) h
  case waitReady => exact hblock ((keeps_waitReady.weaken wait_block).block memRel_eq) h
  case cardReady =>
    exact hblock ((keeps_bind hb (keeps_answerNext hb _) fun _ => keeps_waitReady.weaken wait_block).block memRel_eq) h
  case dataRespAccepted =>
    exact hblock ((keeps_bind hb (keeps_answerNext hb _) fun _ => keeps_readDataResponse).block memRel_eq) h
  case startBlockRx base => exact hclaimed (block_startBlockRx base) h
  case startBlockTx base => exact hclaimed ((keeps_writeBlock _ _ _).block memRel_eq) h
  case startMultiTx base => exact hclaimed ((keeps_writeBlock _ _ _).block memRel_eq) h
  case stopTran =>
    obtain ⟨-, u, h1, rfl⟩ := callUnit_next h
    exact (keeps_stopTran _ _ _ h1).call wait_sector _
  case select =>
    obtain ⟨-, u, h1, rfl⟩ := callUnit_next h
    have : Partial select s fun _ u => CallStep s (u.returned none) := by
      simp only [select, partial_bind, partial_look, partial_ite, partial_act, partial_emit, partial_faultWith]
      exact ⟨fun _ => trivial, fun _ => ⟨rfl, ⟨_, rfl⟩, rfl, rfl, rfl, rfl, rfl, rfl⟩⟩
    exact this _ _ h1
  case deselect | setSpeed =>
    obtain ⟨-, u, h1, rfl⟩ := callUnit_next h
    cases h1
    exact ⟨rfl, ⟨_, rfl⟩, rfl, rfl, rfl, rfl, rfl, rfl⟩
  all_goals exact hcmd rfl

/-! Requests. -/

theorem exec_status_next {q : ReqArgs} (h : exec (.status q) s = .next t) :
    s.Legal ∧ s.busy = false ∧ t = (s.accepted 0 q).concluded (statusWord s.status) := by
  obtain ⟨hl, hb, -, r, u, h1, rfl⟩ := request_next h
  cases h1
  exact ⟨hl, hb, rfl⟩

theorem exec_ioctl_next {q : ReqArgs} (h : exec (.ioctl q) s = .next t) :
    s.Legal ∧ s.busy = false ∧ t = (s.accepted 4 q).concluded resultError := by
  obtain ⟨hl, hb, -, r, u, h1, rfl⟩ := request_next h
  cases h1
  exact ⟨hl, hb, rfl⟩

/-- `Select` needs a released bus (40_transport.md R103). -/
theorem select_next {u : Unit} (h : select s = .ok u t) :
    s.cs = .deselected ∧ t = s.claimed := by
  have : Partial select s fun _ u => s.cs = .deselected ∧ u = s.claimed := by
    simp only [select, partial_bind, partial_look, partial_ite, partial_act, partial_emit, partial_faultWith]
    refine ⟨fun _ => trivial, fun hc => ⟨?_, rfl⟩⟩
    cases hs : s.cs with
    | deselected => rfl
    | selected => exact absurd hs hc
  exact this _ _ h

theorem partial_powerUp : Partial powerUp s fun _ _ => s.cs = .deselected := by
  simp only [powerUp, setSpeed, partial_bind, partial_act, partial_emit, partial_param]
  refine (ends_dummyBytes (F := False) 0 _ (by nofun)).partial.mono fun _ u hu => ?_
  intro a v hv
  have hc : u.cs = s.cs := hu.1.cs
  rw [← hc]
  exact (select_next hv).1

/-- A negotiation that ends began with the bus released. -/
theorem negotiate_next {u : Unit} (h : negotiate s = .ok u t) : s.cs = .deselected := by
  obtain ⟨_, v, h1, h2⟩ := bind_ok_iff.mp h
  cases h1
  obtain ⟨_, w, h3, -⟩ := bind_ok_iff.mp h2
  exact partial_powerUp (s := { s with seq := .native }) _ _ h3

theorem exec_init_next {q : ReqArgs} (h : exec (.init q) s = .next t) :
    s.Legal ∧ s.busy = false ∧ ((s.status = .ready ∧ t = (s.accepted 1 q).concluded 0x00) ∨
      (s.status ≠ .ready ∧ s.cs = .deselected ∧ ∃ u, negotiate (s.accepted 1 q) = .ok () u ∧
        Initialized (s.accepted 1 q) u ∧ t = u.concluded (statusWord u.status))) := by
  obtain ⟨hl, hb, -, r, u, h1, rfl⟩ := request_next h
  refine ⟨hl, hb, ?_⟩
  by_cases hr : s.status = .ready
  · rw [initSession_ready (s := s.accepted 1 q) hr] at h1
    cases h1
    exact .inl ⟨hr, rfl⟩
  · rw [initSession_uninitialized (s := s.accepted 1 q) hr] at h1
    obtain ⟨_, v, h2, h3⟩ := bind_ok_iff.mp h1
    cases h3
    have hc : s.cs = .deselected := negotiate_next (s := s.accepted 1 q) h2
    exact .inr ⟨hr, hc, _, h2, (ends_negotiate (F := False) (s := s.accepted 1 q) (by nofun) hl.cfg hc).partial _ _ h2, rfl⟩

theorem claimedTransfer_next {m : M Bool} {r : Byte} (h : claimedTransfer m s = .ok r t) : s.cs = .deselected := by
  obtain ⟨_, u, h1, -⟩ := bind_ok_iff.mp h
  exact (select_next h1).1

/-- The precondition that decides (44_facade.md R221). -/
theorem precondition_cases (st : Status) (unit : Byte) (count : Word) :
    (unit ≠ 0 ∧ precondition st unit count = some resultParamError) ∨
    (unit = 0 ∧ st ≠ .ready ∧ precondition st unit count = some resultNotReady) ∨
    (unit = 0 ∧ st = .ready ∧ count = 0 ∧ precondition st unit count = some resultParamError) ∨
    (unit = 0 ∧ st = .ready ∧ count ≠ 0 ∧ precondition st unit count = none) := by
  unfold precondition
  by_cases hu : unit = 0
  · rw [if_neg (not_not.mpr hu)]
    by_cases hs : st = .ready
    · rw [if_neg (not_not.mpr hs)]
      by_cases hc : count = 0
      · rw [if_pos hc]
        exact .inr (.inr (.inl ⟨hu, hs, hc, rfl⟩))
      · rw [if_neg hc]
        exact .inr (.inr (.inr ⟨hu, hs, hc, rfl⟩))
    · rw [if_pos hs]
      exact .inr (.inl ⟨hu, hs, rfl⟩)
  · rw [if_pos hu]
    exact .inl ⟨hu, rfl⟩

/-- A transfer that passes its preconditions. -/
theorem precondition_pass {st : Status} {unit : Byte} {count : Word} :
    precondition st unit count = none ↔ unit = 0 ∧ st = .ready ∧ count ≠ 0 := by
  rcases precondition_cases st unit count with ⟨h, e⟩ | ⟨h, h', e⟩ | ⟨h, h', h'', e⟩ | ⟨h, h', h'', e⟩ <;> rw [e]
  · exact ⟨nofun, fun h' => absurd h'.1 h⟩
  · exact ⟨nofun, fun h'' => absurd h''.2.1 h'⟩
  · exact ⟨nofun, fun h3 => absurd h'' h3.2.2⟩
  · exact ⟨fun _ => ⟨h, h', h''⟩, fun _ => rfl⟩

/-- What a transfer that ends has done. -/
def TransferStep (op : Byte) (q : ReqArgs) (acc : Access) (m : M Bool) (R : Memory → Memory → Prop) (s t : State) : Prop :=
  (∃ r, precondition s.status q.unit q.count = some r ∧ t = (s.accepted op q).concluded r) ∨
  (precondition s.status q.unit q.count = none ∧ s.Lends acc q.buf (requestBytes q.count) ∧ s.cs = .deselected ∧
    ∃ r u, claimedTransfer m (s.accepted op q) = .ok r u ∧ (r = resultOk ∨ r = resultError) ∧
      Transferred R (s.accepted op q) u ∧ t = u.concluded r)

theorem exec_read_next {q : ReqArgs} (h : exec (.read q) s = .next t) :
    s.Legal ∧ s.busy = false ∧
      TransferStep 2 q .store (chosen q singleRead multiRead) (StoresOnly q.buf (requestBytes q.count)) s t := by
  obtain ⟨hl, hb, -, r, u, h1, rfl⟩ := request_next h
  refine ⟨hl, hb, ?_⟩
  obtain ⟨-, ⟨hp, rfl⟩ | ⟨hp, hlend, h2⟩⟩ := transfer_ok h1
  · exact .inl ⟨r, hp, rfl⟩
  · have hc : s.cs = .deselected := claimedTransfer_next (s := s.accepted 2 q) h2
    have := (ends_claimedRead (F := False) (by nofun) hl.cfg (s := s.accepted 2 q) hc).partial _ _ h2
    exact .inr ⟨hp, hlend, hc, r, u, h2, this.1, this.2, rfl⟩

theorem exec_write_next {q : ReqArgs} (h : exec (.write q) s = .next t) :
    s.Legal ∧ s.busy = false ∧
      TransferStep 3 q .load (chosen q singleWrite multiWrite) (fun a b => b = a) s t := by
  obtain ⟨hl, hb, -, r, u, h1, rfl⟩ := request_next h
  refine ⟨hl, hb, ?_⟩
  obtain ⟨-, ⟨hp, rfl⟩ | ⟨hp, hlend, h2⟩⟩ := transfer_ok h1
  · exact .inl ⟨r, hp, rfl⟩
  · have hc : s.cs = .deselected := claimedTransfer_next (s := s.accepted 3 q) h2
    have := (ends_claimedWrite (F := False) (by nofun) hl.cfg (s := s.accepted 3 q) hc).partial _ _ h2
    exact .inr ⟨hp, hlend, hc, r, u, h2, this.1, this.2, rfl⟩

end

end Sys2Proof.Machine
end

