-- ==== Sys2Proof/Laws/PerInstr.lean ====
section
/-! SUPPORT. Laws about the syntax of each instruction, one lemma per constructor. -/

namespace Sys2Proof.Laws

/-- The bits spec/opcode_table.json gives a row: 48 for a frame, 8 for a token, a response, a request and a call that
names a byte, none for `SELECT` and `DESELECT` (30_encoding.md R84; log 17). -/
def tableBits : Instr → Nat
  | .cmd0 | .cmd1 | .cmd8 _ | .cmd12 | .cmd16 | .cmd17 _ | .cmd18 _ | .cmd24 _ | .cmd25 _ | .cmd55
  | .acmd41Hcs0 | .acmd41Hcs1 | .cmd58 _ => 48
  | .startBlockRx _ | .startBlockTx _ | .startMultiTx _ | .stopTran | .dataRespAccepted _ | .r1Valid _
  | .r1Unresolved _ | .idleFiller | .cardReady => 8
  | .status _ | .init _ | .read _ | .write _ | .ioctl _ => 8
  | .xchg _ | .rx | .waitReady | .setSpeed _ => 8
  | .select | .deselect => 0

/-- The word of an instruction has the bits of its row. -/
def EncodedLength.Statement (i : Instr) : Prop := 8 * (encode i).bits.length = tableBits i

theorem EncodedLength.cmd0 : EncodedLength.Statement .cmd0 := rfl
theorem EncodedLength.cmd1 : EncodedLength.Statement .cmd1 := rfl
theorem EncodedLength.cmd8 (dest : Bool) : EncodedLength.Statement (.cmd8 dest) := rfl
theorem EncodedLength.cmd12 : EncodedLength.Statement .cmd12 := rfl
theorem EncodedLength.cmd16 : EncodedLength.Statement .cmd16 := rfl
theorem EncodedLength.cmd17 (sector : Word) : EncodedLength.Statement (.cmd17 sector) := rfl
theorem EncodedLength.cmd18 (sector : Word) : EncodedLength.Statement (.cmd18 sector) := rfl
theorem EncodedLength.cmd24 (sector : Word) : EncodedLength.Statement (.cmd24 sector) := rfl
theorem EncodedLength.cmd25 (sector : Word) : EncodedLength.Statement (.cmd25 sector) := rfl
theorem EncodedLength.cmd55 : EncodedLength.Statement .cmd55 := rfl
theorem EncodedLength.acmd41Hcs0 : EncodedLength.Statement .acmd41Hcs0 := rfl
theorem EncodedLength.acmd41Hcs1 : EncodedLength.Statement .acmd41Hcs1 := rfl
theorem EncodedLength.cmd58 (dest : Bool) : EncodedLength.Statement (.cmd58 dest) := rfl
theorem EncodedLength.startBlockRx (base : Nat) : EncodedLength.Statement (.startBlockRx base) := rfl
theorem EncodedLength.startBlockTx (base : Nat) : EncodedLength.Statement (.startBlockTx base) := rfl
theorem EncodedLength.startMultiTx (base : Nat) : EncodedLength.Statement (.startMultiTx base) := rfl
theorem EncodedLength.stopTran : EncodedLength.Statement .stopTran := rfl
theorem EncodedLength.dataRespAccepted (ignored : BitVec 4) : EncodedLength.Statement (.dataRespAccepted ignored) := rfl
theorem EncodedLength.r1Valid (flags : BitVec 7) : EncodedLength.Statement (.r1Valid flags) := rfl
theorem EncodedLength.r1Unresolved (rest : BitVec 7) : EncodedLength.Statement (.r1Unresolved rest) := rfl
theorem EncodedLength.idleFiller : EncodedLength.Statement .idleFiller := rfl
theorem EncodedLength.cardReady : EncodedLength.Statement .cardReady := rfl
theorem EncodedLength.status (q : ReqArgs) : EncodedLength.Statement (.status q) := rfl
theorem EncodedLength.init (q : ReqArgs) : EncodedLength.Statement (.init q) := rfl
theorem EncodedLength.read (q : ReqArgs) : EncodedLength.Statement (.read q) := rfl
theorem EncodedLength.write (q : ReqArgs) : EncodedLength.Statement (.write q) := rfl
theorem EncodedLength.ioctl (q : ReqArgs) : EncodedLength.Statement (.ioctl q) := rfl
theorem EncodedLength.xchg (t : Byte) : EncodedLength.Statement (.xchg t) := rfl
theorem EncodedLength.rx : EncodedLength.Statement .rx := rfl
theorem EncodedLength.waitReady : EncodedLength.Statement .waitReady := rfl
theorem EncodedLength.select : EncodedLength.Statement .select := rfl
theorem EncodedLength.deselect : EncodedLength.Statement .deselect := rfl
theorem EncodedLength.setSpeed (v : Speed) : EncodedLength.Statement (.setSpeed v) := by
  cases v <;> rfl

end Sys2Proof.Laws
end

