-- ==== Sys2Proof/Laws/Words.lean ====
section
/-! SUPPORT. The bit fields of the encodings (30_encoding.md R54, R71, R79, R83) and what a decoded word had
to be. -/

namespace Sys2Proof

theorem be32_wordByte (w : Word) : be32 (wordByte w 3) (wordByte w 2) (wordByte w 1) (wordByte w 0) = w := by
  unfold be32 wordByte
  ext i hi
  simp only [BitVec.getElem_append, BitVec.getElem_extractLsb']
  split
  · simp [BitVec.getLsbD_eq_getElem hi]
  · split
    · rw [show 8 * 1 + (i - 8) = i by omega]
      simp [BitVec.getLsbD_eq_getElem hi]
    · split
      · rw [show 8 * 2 + (i - 8 - 8) = i by omega]
        simp [BitVec.getLsbD_eq_getElem hi]
      · rw [show 8 * 3 + (i - 8 - 8 - 8) = i by omega]
        simp [BitVec.getLsbD_eq_getElem hi]

theorem bigEndian_be32 (a b c d : Byte) : bigEndian (be32 a b c d) = [a, b, c, d] := by
  unfold bigEndian be32 wordByte
  simp only [List.cons.injEq, and_true]
  refine ⟨?_, ?_, ?_, ?_⟩ <;> ext i hi <;> simp only [BitVec.getElem_extractLsb', BitVec.getLsbD_append] <;>
    rw [← BitVec.getLsbD_eq_getElem]
  · rw [if_neg (by omega), if_neg (by omega), if_neg (by omega)]
    congr 1
    omega
  · rw [if_neg (by omega), if_neg (by omega), if_pos (by omega)]
    congr 1
    omega
  · rw [if_neg (by omega), if_pos (by omega)]
    congr 1
    omega
  · rw [if_pos (by omega)]
    congr 1
    omega

/-- A status byte is its top bit and its flags (R74). -/
theorem status_of_flags (f : BitVec 7) :
    (0b0#1 ++ f : BitVec (1 + 7)).extractLsb' 0 7 = f ∧ (0b0#1 ++ f : BitVec (1 + 7)).getLsbD 7 = false := by
  revert f
  decide

theorem unresolved_of_rest (f : BitVec 7) :
    (0b1#1 ++ f : BitVec (1 + 7)).extractLsb' 0 7 = f ∧ (0b1#1 ++ f : BitVec (1 + 7)).getLsbD 7 = true := by
  revert f
  decide

theorem flags_of_status (b : Byte) (h : b.getLsbD 7 = false) : (0b0#1 ++ b.extractLsb' 0 7 : BitVec (1 + 7)) = b := by
  revert b
  decide +kernel

theorem rest_of_unresolved (b : Byte) (h : b.getLsbD 7 = true) : (0b1#1 ++ b.extractLsb' 0 7 : BitVec (1 + 7)) = b := by
  revert b
  decide +kernel

/-- A data response is its ignored bits and its code (R79). -/
theorem response_of_ignored (f : BitVec 4) : (f ++ 0b0101#4 : BitVec (4 + 4)).extractLsb' 0 4 = 0b0101#4 ∧
    (f ++ 0b0101#4 : BitVec (4 + 4)).extractLsb' 4 4 = f := by
  revert f
  decide

theorem ignored_of_response (b : Byte) (h : b.extractLsb' 0 4 = 0b0101#4) :
    (b.extractLsb' 4 4 ++ 0b0101#4 : BitVec (4 + 4)) = b := by
  revert b
  decide +kernel

section
variable {bits : List Byte} {i j : Instr}

theorem rowIf_ok {fits : Bool} {why : Reject} (h : rowIf fits why i = .ok j) : fits = true ∧ i = j := by
  unfold rowIf at h
  split at h
  · cases h
    exact ⟨‹_›, rfl⟩
  · cases h

theorem noByte_ok (h : noByte bits i = .ok j) : bits = [] ∧ i = j := by
  cases bits <;> cases h
  exact ⟨rfl, rfl⟩

theorem oneByte_ok {f : Byte → Except Reject Instr} (h : oneByte bits f = Except.ok i) :
    ∃ b, bits = [b] ∧ f b = .ok i := by
  rcases bits with _ | ⟨b, _ | ⟨c, l⟩⟩
  · cases h
  · exact ⟨b, rfl, h⟩
  · cases h

theorem theByte_ok {b : Byte} {why : Reject} (h : theByte bits b why i = .ok j) : bits = [b] ∧ i = j := by
  obtain ⟨c, rfl, h⟩ := oneByte_ok h
  obtain ⟨h1, rfl⟩ := rowIf_ok h
  rw [beq_iff_eq] at h1
  exact ⟨by rw [h1], rfl⟩

theorem sixBytes_ok {f : Byte → Word → Byte → Except Reject Instr} (h : sixBytes bits f = Except.ok i) :
    ∃ b0 b1 b2 b3 b4 b5, bits = [b0, b1, b2, b3, b4, b5] ∧ f b0 (be32 b1 b2 b3 b4) b5 = .ok i := by
  unfold sixBytes at h
  split at h
  · exact ⟨_, _, _, _, _, _, rfl, h⟩
  · cases h

/-- A frame that decodes fits the row of R72's table it decodes by. -/
theorem decodeFrame_ok {rows : List FrameRow} {cmd crc : Byte} {arg : Word} (h : decodeFrame rows cmd arg crc = .ok i) :
    ∃ r ∈ rows, cmd = r.cmd ∧ crc = r.crc ∧ r.arg.all (arg == ·) = true ∧ i = r.instr arg := by
  unfold decodeFrame at h
  split at h
  · rename_i r hr
    cases h
    have hf := List.find?_some hr
    simp only [FrameRow.fits, Bool.and_eq_true, beq_iff_eq] at hf
    exact ⟨r, List.mem_of_find?_eq_some hr, hf.1.1, hf.1.2, hf.2, rfl⟩
  · cases h

/-- Only a word at the host port has a reserved operation code (30_encoding.md R86). -/
theorem decode_reservedOp {c : Code} {op : Byte} (h : decode c = .error (.reservedOp op)) : c.slot = .host := by
  by_contra hs
  unfold decode at h
  split at h <;> simp_all [sixBytes, oneByte, theByte, noByte, decodeFrame, decodeTokenTx, decodeDataResponse, decodeSpeed, rowIf]
  all_goals repeat' (first | contradiction | cases h | split at h)

end

end Sys2Proof
end

