-- ==== Sys2Proof/Laws/Step.lean ====
section
/-! SUPPORT. What a step can do, and what a request that is served whole does. -/

namespace Sys2Proof.Machine

section
variable {s t u : State}

/-- An instruction is a procedure called by itself or one of the five requests (30_encoding.md R85). -/
theorem request_cases (i : Instr) : requestOf i = none ∨ (∃ q, i = .status q) ∨ (∃ q, i = .ioctl q) ∨
    (∃ q, i = .init q) ∨ (∃ q, i = .read q) ∨ ∃ q, i = .write q := by
  cases i <;> simp [requestOf]

theorem rejected_next {c : Code} {why : Reject} : rejected s c why ≠ .next t := by
  unfold rejected
  cases why <;> simp <;> split <;> simp

theorem understand_ok {c : Code} {i : Instr} (h : understand s c = .ok i) :
    decode c = .ok i ∧ i.wellFormed s.cfg.addrWidth = true := by
  unfold understand at h
  split at h
  · rename_i j hj
    split at h
    · cases h
      exact ⟨hj, ‹_›⟩
    · cases h
  · cases h

/-- What a step does with a word that spells no instruction (R86, R85). -/
theorem step_rejected {c : Code} {rest : List HostAct} {why : Reject}
    (hi : s.inbox = .submit c :: rest ∨ s.inbox = .overlap c :: rest) (h : understand s c = .error why) :
    step s = rejected { s with inbox := rest } c why := by
  have h' : understand { s with inbox := rest } c = .error why := h
  rcases hi with hi | hi <;> simp [step, fetch, hi, h']

/-- A step that ends waited, let the host act on its memory, or ran one instruction. -/
theorem step_cases (h : step s = .next t) :
    t = s ∨
    (∃ a b rest, t = { s with
      inbox := rest
      mem := s.mem.write a b }) ∨
    (∃ rest, t = { s with inbox := rest }) ∨
    ∃ i rest, i.wellFormed s.cfg.addrWidth = true ∧ exec i { s with inbox := rest } = .next t := by
  have hw : ∀ (c : Code) (rest : List HostAct), (match understand { s with inbox := rest } c with
      | .ok i => exec i { s with inbox := rest }
      | .error why => rejected { s with inbox := rest } c why) = .next t →
      ∃ i rest, i.wellFormed s.cfg.addrWidth = true ∧ exec i { s with inbox := rest } = .next t := by
    intro c rest h
    split at h
    · rename_i i hi
      exact ⟨i, rest, (understand_ok hi).2, h⟩
    · exact absurd h rejected_next
  unfold step fetch at h
  split at h
  · cases h
    exact .inl rfl
  · rename_i u hu
    cases h
    split at hu <;> cases hu
    · exact .inr (.inr (.inl ⟨_, rfl⟩))
    · exact .inr (.inl ⟨_, _, _, rfl⟩)
  · rename_i c u hu
    split at hu <;> cases hu
    · exact .inr (.inr (.inr (hw _ _ h)))
    · exact .inr (.inr (.inr (hw _ _ h)))

/-- A request served with a result ends so (44_facade.md R220). -/
theorem request_of_ok {op : Byte} {q : ReqArgs} {serve : M Byte} {r : Byte} (hl : s.Legal) (hf : s.Free)
    (h : serve (s.accepted op q) = .ok r u) : run (request op q serve) s = .next (u.concluded r) := by
  rw [run_eq_next_iff, request_of_free hl hf]
  exact bind_ok_iff.mpr ⟨_, _, h, rfl⟩

/-- A request whose service is refused is refused. -/
theorem request_refuses {op : Byte} {q : ReqArgs} {serve : M Byte} {r : Refusal} (hl : s.Legal) (hb : s.busy = false)
    (ho : s.intrusions.any HostAct.isOverlap = false) (h : ∃ u, serve (s.accepted op q) = .error (.refuse r) u) :
    run (request op q serve) s = .refused r := by
  obtain ⟨u, h⟩ := h
  have ha : accept op q s = .ok () (s.accepted op q) := by simp [accept, hb, ho, State.accepted]
  simp [run, request, bind, EStateM.bind, enter_of_legal hl, ha, h]

/-- A request that ends was served with no other one arriving before its result (44_facade.md R220, R228 (a)). -/
theorem request_alone {i : Instr} {f : Byte × ReqArgs} (hf : requestOf i = some f) (h : exec i s = .next t) :
    s.busy = false ∧ s.intrusions.any HostAct.isOverlap = false := by
  have key : ∀ op q (serve : M Byte), run (request op q serve) s = .next t →
      s.busy = false ∧ s.intrusions.any HostAct.isOverlap = false := fun _ _ _ h =>
    ⟨(request_next h).2.1, (request_next h).2.2.1⟩
  cases i
  case status | init | read | write | ioctl => exact key _ _ _ h
  all_goals simp [requestOf] at hf

/-- A request that only the arbiter sees. -/
theorem accepted_concluded (hf : s.Free) {op : Byte} {q : ReqArgs} {r : Byte} :
    (s.accepted op q).concluded r = s.answered op q r := by
  have := hf.busy
  unfold State.accepted State.concluded State.answered
  simp [this]

/-- A transfer with its bus claimed and released (44_facade.md R224, R225). -/
theorem claimedTransfer_ok {m : M Bool} {r : Byte} (h : claimedTransfer m s = .ok r t) :
    ∃ ok u, m s.claimed = .ok ok u ∧ r = (if ok = true then 0 else 1) ∧ t = { u with
      seq := .result
      cs := .deselected
      wire := u.wire ++ [.deselect] } := by
  obtain ⟨_, v, h1, h2⟩ := bind_ok_iff.mp h
  obtain ⟨-, rfl⟩ := select_next h1
  obtain ⟨ok, u, h3, h4⟩ := bind_ok_iff.mp h2
  cases h4
  exact ⟨ok, _, h3, rfl, rfl⟩

theorem claimedTransfer_of_ok {m : M Bool} {ok : Bool} (hc : s.cs = .deselected) (h : m s.claimed = .ok ok u) :
    claimedTransfer m s = .ok (if ok = true then 0 else 1) { u with
      seq := .result
      cs := .deselected
      wire := u.wire ++ [.deselect] } := by
  refine bind_ok_iff.mpr ⟨(), s.claimed, ?_, bind_ok_iff.mpr ⟨_, _, h, rfl⟩⟩
  simp only [select, look, bind, EStateM.bind, hc, reduceCtorEq, if_false]
  rfl

/-! Every counter stays in its range. -/

theorem Regs.latched_narrow {p : Params} {op : Byte} {q : ReqArgs} (h : addrFits p.addrWidth q.buf = true) :
    (Regs.latched op q).InWidth p := by
  constructor <;> intro n hn <;> cases hn
  simp only [addrFits, Bool.or_eq_true, beq_iff_eq, decide_eq_true_eq] at h
  rcases h with h | h
  · rw [h]
    exact Nat.two_pow_pos _
  · exact h

theorem Regs.result_narrow {p : Params} {r : Regs} {x : Option Byte} (h : r.InWidth p) :
    ({ r with result := x } : Regs).InWidth p :=
  ⟨h.tries, h.xtries, h.iter, h.pu, h.bcnt, h.blk, h.ptr, h.reqBuf⟩

/-- An instruction keeps every counter in its range (10_state.md R28 to R30; log 22). -/
theorem exec_narrow {i : Instr} (hw : i.wellFormed s.cfg.addrWidth = true) (h : exec i s = .next t)
    (hr : s.regs.InWidth s.cfg) : t.regs.InWidth s.cfg := by
  have hbyte {m : M Byte} (hk : Narrow m s) (hx : run (callByte m) s = .next t) : t.regs.InWidth s.cfg := by
    obtain ⟨-, b, u, h1, rfl⟩ := callByte_next hx
    exact (hk _ _ h1).2 hr
  have hbool {m : M Bool} (hk : Narrow m s) (hx : run (callBool m) s = .next t) : t.regs.InWidth s.cfg := by
    obtain ⟨-, b, u, h1, rfl⟩ := callBool_next hx
    exact (hk _ _ h1).2 hr
  have hcmd {idx : BitVec 6} {arg : Word} (hf : frameOf s.cfg i = some (idx, arg)) : t.regs.InWidth s.cfg := by
    rw [exec_command hf] at h
    exact hbyte (narrow_command _ _ _) h
  have hans : ∀ b, Narrow (answerNext b) s := fun b => narrow_act rfl rfl
  have hlend : ∀ {acc : Access} {base : Nat}, s.Lends acc base Config.blockBytes → base + Config.blockBytes ≤ 2 ^ s.cfg.addrWidth := by
    intro acc base hl
    have := hl.ok
    simp only [State.bufferOk, spanFits, addrFits, Bool.and_eq_true, Bool.or_eq_true, beq_iff_eq,
      decide_eq_true_eq] at this
    have := Nat.two_pow_pos s.cfg.addrWidth
    unfold Config.blockBytes at *
    omega
  rcases request_cases i with hi | ⟨q, rfl⟩ | ⟨q, rfl⟩ | ⟨q, rfl⟩ | ⟨q, rfl⟩ | ⟨q, rfl⟩
  · cases i
    case status | init | read | write | ioctl => simp [requestOf] at hi
    case r1Valid | r1Unresolved => exact hbyte (narrow_pollAnswered _) h
    case idleFiller | xchg => exact hbyte (narrow_xchg _) h
    case rx => exact hbyte narrow_rx h
    case waitReady => exact hbool narrow_waitReady h
    case cardReady => exact hbool (narrow_bind (hans _) fun _ _ _ => narrow_waitReady) h
    case dataRespAccepted => exact hbool (narrow_bind (hans _) fun _ _ _ => narrow_readDataResponse) h
    case startBlockRx base =>
      obtain ⟨-, b, u, h1, rfl⟩ := callBool_next h
      obtain ⟨_, v, h2, h3⟩ := bind_ok_iff.mp h1
      obtain ⟨hl, rfl⟩ := claimBuffer_next h2
      exact ((narrow_bind (hans _) fun _ t' ht => narrow_readBlock (by
        rw [ht]
        exact hlend hl)) _ _ h3).2 hr
    case startBlockTx base =>
      obtain ⟨-, b, u, h1, rfl⟩ := callBool_next h
      obtain ⟨_, v, h2, h3⟩ := bind_ok_iff.mp h1
      obtain ⟨hl, rfl⟩ := claimBuffer_next h2
      exact (narrow_writeBlock _ (hlend hl) _ _ h3).2 hr
    case startMultiTx base =>
      obtain ⟨-, b, u, h1, rfl⟩ := callBool_next h
      obtain ⟨_, v, h2, h3⟩ := bind_ok_iff.mp h1
      obtain ⟨hl, rfl⟩ := claimBuffer_next h2
      exact (narrow_writeBlock _ (hlend hl) _ _ h3).2 hr
    case stopTran =>
      obtain ⟨-, u, h1, rfl⟩ := callUnit_next h
      exact (narrow_stopTran _ _ h1).2 hr
    case select =>
      obtain ⟨-, u, h1, rfl⟩ := callUnit_next h
      rw [(select_next h1).2]
      exact hr
    case deselect | setSpeed =>
      obtain ⟨-, u, h1, rfl⟩ := callUnit_next h
      cases h1
      exact hr
    all_goals exact hcmd rfl
  · obtain ⟨-, -, rfl⟩ := exec_status_next h
    exact Regs.result_narrow (Regs.latched_narrow hw)
  · obtain ⟨-, -, rfl⟩ := exec_ioctl_next h
    exact Regs.result_narrow (Regs.latched_narrow hw)
  · obtain ⟨-, -, ⟨-, rfl⟩ | ⟨hn, -, u, hu, -, rfl⟩⟩ := exec_init_next h
    · exact Regs.result_narrow (Regs.latched_narrow hw)
    · exact Regs.result_narrow ((narrow_negotiate _ _ hu).2 (Regs.latched_narrow hw))
  · obtain ⟨-, -, ⟨r, -, rfl⟩ | ⟨-, hl, -, r, u, hu, -, -, rfl⟩⟩ := exec_read_next h
    · exact Regs.result_narrow (Regs.latched_narrow hw)
    · refine Regs.result_narrow ?_
      have hn : Narrow (claimedTransfer (chosen q singleRead multiRead)) (s.accepted 2 q) :=
        narrow_bind narrow_select fun _ v hv =>
          narrow_bind (narrow_chosenRead ⟨by rw [hv]; exact hl.fits.addr, hl.fits.count⟩) fun _ _ _ =>
            narrow_bind (narrow_setSeq _) fun _ _ _ => narrow_bind narrow_deselect fun _ _ _ => narrow_pure _
      exact (hn _ _ hu).2 (Regs.latched_narrow hw)
  · obtain ⟨-, -, ⟨r, -, rfl⟩ | ⟨-, hl, -, r, u, hu, -, -, rfl⟩⟩ := exec_write_next h
    · exact Regs.result_narrow (Regs.latched_narrow hw)
    · refine Regs.result_narrow ?_
      have hn : Narrow (claimedTransfer (chosen q singleWrite multiWrite)) (s.accepted 3 q) :=
        narrow_bind narrow_select fun _ v hv =>
          narrow_bind (narrow_chosenWrite ⟨by rw [hv]; exact hl.fits.addr, hl.fits.count⟩) fun _ _ _ =>
            narrow_bind (narrow_setSeq _) fun _ _ _ => narrow_bind narrow_deselect fun _ _ _ => narrow_pure _
      exact (hn _ _ hu).2 (Regs.latched_narrow hw)

end

end Sys2Proof.Machine
end

