-- ==== Sys2Proof/Laws/Waits.lean ====
section
/-! SUPPORT. The bounded waits with every answer and tick read given, and where the block hangs. -/

namespace Sys2Proof.Machine

/-- The environment after `k` exchanges and `k` tick reads. -/
def Env.polled (e : Env) (k : Nat) : Env :=
  { e with
    answers := e.answers.drop k
    ticks := e.ticks.drop k
    nAnswer := e.nAnswer + k
    nTick := e.nTick + k }

section
variable {e : Env} {s t : State} {n : Nat}

@[simp] theorem Env.polled_zero : e.polled 0 = e := rfl
@[simp] theorem Env.polled_transport : (e.polled n).transport = e.transport := rfl
@[simp] theorem Env.polled_tickFair : (e.polled n).tickFair = e.tickFair := rfl
@[simp] theorem Env.polled_answers : (e.polled n).answers = e.answers.drop n := rfl
@[simp] theorem Env.polled_ticks : (e.polled n).ticks = e.ticks.drop n := rfl

theorem Env.polled_succ (ht : e.transport = none) : e.afterXchg.afterTick.polled n = e.polled (n + 1) := by
  simp [Env.polled, Env.afterXchg, Env.afterTick, ht, Nat.add_comm, Nat.add_left_comm]

theorem Env.answer_polled : (e.polled n).answer = e.answerAt n := by
  unfold Env.answer Env.answerAt Env.polled
  cases h : e.answers.drop n with
  | nil => simp [List.getElem?_eq_none (List.drop_eq_nil_iff.mp h)]
  | cons b l =>
    have : e.answers[n]? = some b := by
      have := congrArg (·[0]?) h
      simpa using this
    simp [this]

theorem Env.tick_polled : (e.polled n).tick = e.tickAt n := by
  unfold Env.tick Env.tickAt Env.polled
  cases h : e.ticks.drop n with
  | nil => simp [List.getElem?_eq_none (List.drop_eq_nil_iff.mp h)]
  | cons b l =>
    have : e.ticks[n]? = some b := by
      have := congrArg (·[0]?) h
      simpa using this
    simp [this]

theorem Env.answerAt_succ : e.afterXchg.afterTick.answerAt n = e.answerAt (n + 1) := by
  simp [Env.answerAt, Env.afterXchg, Env.afterTick, Nat.add_comm, Nat.add_left_comm]

theorem Env.tickAt_succ : e.afterTick.tickAt n = e.tickAt (n + 1) := by
  simp [Env.tickAt, Env.afterTick, Nat.add_comm, Nat.add_left_comm]

theorem Env.tickAt_xchg : e.afterXchg.tickAt n = e.tickAt n := rfl

/-! One poll, for a judge that writes one register and gives its verdict. -/

/-- What a poll rule does with a byte: a register write and a verdict (40_transport.md R102, 43_block_transfer.md R190). -/
def judging (w : Byte → Regs → Regs) (v : Byte → Option Bool) (b : Byte) : M (Option Bool) := do
  writeRegs (w b)
  pure (v b)

variable {w : Byte → Regs → Regs} {v : Byte → Option Bool} {goOn : M Bool} {budget : Nat} {t0 : Tick}

/-- The state after one poll. -/
def State.pollOf (s : State) (w : Byte → Regs → Regs) : State :=
  { s.exchanged 0xFF with regs := w s.env.answer s.regs }

theorem pollOnce_judging (ht : s.env.transport = none) : pollOnce (judging w v) goOn s =
    match v s.env.answer with
    | some r => .ok r (s.pollOf w)
    | none => goOn (s.pollOf w) := by
  simp only [pollOnce, judging, rx, xchg, bind, EStateM.bind, writeRegs, act, ht, Config.idleByte, reduceCtorEq, if_false]
  show (match v s.env.answer with
    | some r => (pure r : M Bool)
    | none => goOn) (s.pollOf w) = _
  cases v s.env.answer <;> rfl

theorem afterPoll_tick {judge : Byte → M (Option Bool)} : afterPoll budget t0 judge (n + 1) s =
    if budget ≤ (s.env.tick - t0).toNat then .ok false { s with env := s.env.afterTick }
    else pollOnce judge (afterPoll budget t0 judge n) { s with env := s.env.afterTick } := by
  simp only [afterPoll, expired, tickNow, bind, EStateM.bind, pure, EStateM.pure, budgetExpired, decide_eq_true_eq]
  split <;> rfl

/-- Polls that end nothing, each with an expiry test that finds the budget not reached: the wait goes on behind them
(R102, R107, R190). -/
theorem poll_goes_on (k m : Nat) : ∀ s : State, s.env.transport = none → (∀ j < k, v (s.env.answerAt j) = none) →
    (∀ j < k, (s.env.tickAt j - t0).toNat < budget) →
    ∃ u, pollOnce (judging w v) (afterPoll budget t0 (judging w v) (k + m)) s =
        pollOnce (judging w v) (afterPoll budget t0 (judging w v) m) u ∧
      u.env = s.env.polled k ∧ u.mem = s.mem ∧ u.cfg = s.cfg ∧
      u.wire = s.wire ++ idles ((List.range k).map s.env.answerAt) := by
  induction k with
  | zero => exact fun s _ _ _ => ⟨s, by rw [Nat.zero_add], rfl, rfl, rfl, by simp⟩
  | succ k ih =>
    intro s ht hv hb
    have h0 : v s.env.answer = none := by
      have := hv 0 (Nat.zero_lt_succ k)
      rwa [← Env.answer_polled, Env.polled_zero] at this
    have hb0 : ¬budget ≤ (s.env.afterXchg.tick - t0).toNat := by
      have := hb 0 (Nat.zero_lt_succ k)
      rw [← Env.tick_polled, Env.polled_zero] at this
      exact Nat.not_le.mpr this
    obtain ⟨u, hu, he, hm, hc, hw⟩ := ih { s.pollOf w with env := s.env.afterXchg.afterTick }
      (by simp [Env.afterXchg, Env.afterTick, ht])
      (fun j hj => by rw [Env.answerAt_succ]; exact hv _ (Nat.succ_lt_succ hj))
      (fun j hj => by rw [Env.tickAt_succ]; exact hb _ (Nat.succ_lt_succ hj))
    refine ⟨u, ?_, he.trans (Env.polled_succ ht), hm, hc, ?_⟩
    · rw [pollOnce_judging ht, h0, Nat.add_right_comm]
      refine Eq.trans ?_ hu
      show afterPoll budget t0 (judging w v) (k + m + 1) (s.pollOf w) = _
      rw [afterPoll_tick, if_neg (show ¬budget ≤ ((s.pollOf w).env.tick - t0).toNat from hb0)]
      rfl
    · have h1 : s.env.answer = s.env.answerAt 0 := by rw [← Env.answer_polled, Env.polled_zero]
      have h2 : ∀ j, Env.answerAt s.env.afterXchg.afterTick j = s.env.answerAt (j + 1) := fun j => Env.answerAt_succ
      rw [hw, List.range_succ_eq_map]
      simp [State.pollOf, h1, h2, idles, Function.comp_def]

/-- The wait ends at poll `k`, judged so. -/
theorem pollOnce_ends {k : Nat} {r : Bool} (hk : k ≤ n) (ht : s.env.transport = none)
    (hv : ∀ j < k, v (s.env.answerAt j) = none) (hb : ∀ j < k, (s.env.tickAt j - t0).toNat < budget)
    (hr : v (s.env.answerAt k) = some r) :
    ∃ u, pollOnce (judging w v) (afterPoll budget t0 (judging w v) n) s = .ok r u ∧
      u.env = (s.env.polled k).afterXchg ∧ u.mem = s.mem ∧ u.cfg = s.cfg ∧
      u.wire = s.wire ++ idles ((List.range (k + 1)).map s.env.answerAt) := by
  obtain ⟨m, rfl⟩ := Nat.exists_eq_add_of_le hk
  obtain ⟨u, hu, he, hm, hc, hw⟩ := poll_goes_on (w := w) k m s ht hv hb
  have ha : u.env.answer = s.env.answerAt k := by rw [he, Env.answer_polled]
  refine ⟨u.pollOf w, ?_, congrArg Env.afterXchg he, hm, hc, ?_⟩
  · rw [hu, pollOnce_judging (by rw [he]; exact ht), ha, hr]
  · rw [List.range_succ]
    simp [State.pollOf, hw, ha, idles]

/-- The wait ends at the first tick read that reaches the budget, behind `k` polls before the last (R107). -/
theorem pollOnce_expires {k : Nat} (hk : k < n) (ht : s.env.transport = none)
    (hv : ∀ j ≤ k, v (s.env.answerAt j) = none) (hb : ∀ j < k, (s.env.tickAt j - t0).toNat < budget)
    (he : budget ≤ (s.env.tickAt k - t0).toNat) :
    ∃ u, pollOnce (judging w v) (afterPoll budget t0 (judging w v) n) s = .ok false u ∧
      u.env = s.env.polled (k + 1) ∧ u.mem = s.mem ∧ u.cfg = s.cfg ∧
      u.wire = s.wire ++ idles ((List.range (k + 1)).map s.env.answerAt) := by
  obtain ⟨m, rfl⟩ : ∃ m, n = k + (m + 1) := ⟨n - k - 1, by omega⟩
  obtain ⟨u, hu, hen, hm, hc, hw⟩ := poll_goes_on (w := w) k (m + 1) s ht (fun j hj => hv j (Nat.le_of_lt hj)) hb
  have ha : u.env.answer = s.env.answerAt k := by rw [hen, Env.answer_polled]
  have htick : Env.tick u.env.afterXchg = s.env.tickAt k := by
    rw [← Env.tick_polled, ← hen]
    rfl
  refine ⟨{ u.pollOf w with env := u.env.afterXchg.afterTick }, ?_, ?_, hm, hc, ?_⟩
  · rw [hu, pollOnce_judging (by rw [hen]; exact ht), ha, hv k le_rfl]
    show afterPoll budget t0 (judging w v) (m + 1) (u.pollOf w) = _
    rw [afterPoll_tick, if_pos]
    · rfl
    · show budget ≤ (Env.tick u.env.afterXchg - t0).toNat
      rw [htick]
      exact he
  · show u.env.afterXchg.afterTick = _
    rw [hen]
    simp [Env.polled, Env.afterXchg, Env.afterTick, ht, Nat.add_assoc]
  · rw [List.range_succ]
    simp [State.pollOf, hw, ha, idles]

/-- Where nothing will show the expiry, a wait that is not ended by a byte hangs (R108 (a); log 4). -/
theorem pollOnce_hangs (ht : s.env.transport = none) (hf : s.env.tickFair = false ∨ 2 ^ 32 ≤ budget)
    (hv : ∀ j ≤ n, v (s.env.answerAt j) = none) (hb : ∀ j < n, (s.env.tickAt j - t0).toNat < budget) :
    ∃ u, pollOnce (judging w v) (afterPoll budget t0 (judging w v) n) s = .error (.fault .waitNeverEnds) u := by
  obtain ⟨u, hu, he, -, -, -⟩ := poll_goes_on (w := w) n 0 s ht (fun j hj => hv j (Nat.le_of_lt hj)) hb
  have ha : u.env.answer = s.env.answerAt n := by rw [he, Env.answer_polled]
  refine ⟨u.pollOf w, ?_⟩
  rw [Nat.add_zero] at hu
  rw [hu, pollOnce_judging (by rw [he]; exact ht), ha, hv n le_rfl]
  have hfu : (u.pollOf w).env.tickFair = s.env.tickFair := by
    show u.env.tickFair = _
    rw [he]
    rfl
  have : ¬((u.pollOf w).env.tickFair = true ∧ budget < 2 ^ 32) := by
    rw [hfu]
    rintro ⟨h1, h2⟩
    rcases hf with h | h
    · simp [h] at h1
    · omega
  show (lastTick budget >>= fun _ => pure false) (u.pollOf w) = _
  simp only [lastTick, bind, EStateM.bind, if_neg this]

/-! The two waits. -/

/-- A ready wait is its first tick read and the polls (40_transport.md R102). -/
theorem waitReady_eq : waitReady s =
    pollOnce (judging (fun _ x => x) judgeReady)
      (afterPoll s.cfg.readyBudget s.env.tick (judging (fun _ x => x) judgeReady) s.env.afterTick.pollsLeft)
      { s with
        env := s.env.afterTick
        regs := { s.regs with t0 := some s.env.tick } } := rfl

/-- So is a token wait (43_block_transfer.md R190). -/
theorem waitToken_eq : waitToken s =
    pollOnce (judging (fun b x => { x with tok := some b }) (judgeToken s.cfg))
      (afterPoll s.cfg.tokenBudget s.env.tick (judging (fun b x => { x with tok := some b }) (judgeToken s.cfg))
        s.env.afterTick.pollsLeft)
      { s with
        env := s.env.afterTick
        regs := { s.regs with t0 := some s.env.tick } } := rfl

/-! What exchanges bytes reads no tick. -/

/-- Reads no tick. -/
def TickFree {α : Type} (m : M α) : Prop := Keeps (fun s t => t.env.ticks = s.env.ticks) m

variable {α β : Type} {m : M α} {f : α → M β}

theorem TickFree.bind (h : TickFree m) (h' : ∀ a, TickFree (f a)) : TickFree (m >>= f) :=
  Keeps.bind (fun h1 h2 => Eq.trans h2 h1) h h'

theorem tickFree_ite {c : Prop} [Decidable c] {m' : M α} (h : TickFree m) (h' : TickFree m') :
    TickFree (if c then m else m') := keeps_ite h h'

theorem tickFree_pure (a : α) : TickFree (pure a : M α) := fun _ _ _ h => by
  cases h
  rfl

theorem tickFree_act {g : State → State} (h : ∀ s, (g s).env.ticks = s.env.ticks) : TickFree (act g) := fun s _ _ h' => by
  cases h'
  exact h s

theorem tickFree_look (g : State → α) : TickFree (look g) := fun _ _ _ h => by
  cases h
  rfl

theorem tickFree_writeRegs (g : Regs → Regs) : TickFree (writeRegs g) := tickFree_act fun _ => rfl

theorem tickFree_readReg (g : Regs → Option α) : TickFree (readReg g) := fun s _ _ h => by
  unfold readReg at h
  split at h <;> cases h
  rfl

theorem tickFree_xchg (tx : Byte) : TickFree (xchg tx) := fun s _ _ h => by
  unfold xchg at h
  split at h <;> cases h
  rfl

theorem tickFree_memWrite (a : Nat) (b : Byte) : TickFree (memWrite a b) := tickFree_act fun _ => rfl

theorem tickFree_sendBytes (l : List Byte) : TickFree (sendBytes l) := by
  induction l with
  | nil => exact tickFree_pure ()
  | cons b l ih => exact (tickFree_xchg b).bind fun _ => ih

theorem tickFree_receiveWord : TickFree receiveWord :=
  (tickFree_xchg _).bind fun _ => (tickFree_xchg _).bind fun _ => (tickFree_xchg _).bind fun _ =>
    (tickFree_xchg _).bind fun _ => tickFree_pure _

theorem tickFree_pollResponse (done k : Nat) : TickFree (pollResponse done k) := by
  induction k generalizing done with
  | zero => exact tickFree_pure ()
  | succ k ih =>
    exact (tickFree_xchg _).bind fun _ => (tickFree_writeRegs _).bind fun _ => tickFree_ite (ih _) (tickFree_pure ())

theorem tickFree_extraPolls (resp : Byte) (done k : Nat) : TickFree (extraPolls resp done k) := by
  induction k generalizing resp done with
  | zero => exact tickFree_pure ()
  | succ k ih =>
    exact tickFree_ite (tickFree_pure ())
      ((tickFree_xchg _).bind fun _ => (tickFree_writeRegs _).bind fun _ => ih _ _)

/-- What follows the ready gate of a command (41_command.md R122 to R126). -/
theorem tickFree_transact (idx : BitVec 6) (arg : Word) (k : Nat) : TickFree (transact idx arg k) :=
  ((tickFree_readReg _).bind fun _ => tickFree_sendBytes _).bind fun _ =>
    ((tickFree_writeRegs _).bind fun _ => tickFree_pollResponse _ _).bind fun _ =>
      (tickFree_ite ((tickFree_readReg _).bind fun _ => (tickFree_look _).bind fun _ =>
        tickFree_ite ((tickFree_writeRegs _).bind fun _ => tickFree_extraPolls _ _ _) (tickFree_pure ()))
        (tickFree_pure ())).bind fun _ =>
        tickFree_ite (tickFree_receiveWord.bind fun _ => (tickFree_writeRegs _).bind fun _ => (tickFree_readReg _).bind fun _ =>
          tickFree_ite ((tickFree_writeRegs _).bind fun _ => tickFree_readReg _) (tickFree_pure _))
          (tickFree_readReg _)

theorem tickFree_streamIn (base i k : Nat) : TickFree (streamIn base i k) := by
  induction k generalizing i with
  | zero => exact tickFree_pure ()
  | succ k ih =>
    exact (tickFree_writeRegs _).bind fun _ => (tickFree_xchg _).bind fun _ => (tickFree_memWrite _ _).bind fun _ => ih _

/-! Procedures with their answers and tick reads given. -/

/-- On a block with the parameters `p`, given the tick reads `tk` and the answers `l`, the procedure takes just them,
ends with `r` and changes memory as `W` says. -/
def Timed (p : Params) (m : M α) (tk : List Tick) (l : List Byte) (r : α) (W : Memory → Memory) : Prop :=
  ∀ (s : State) (ticks : List Tick) (rest : List Byte), s.cfg = p → s.env.transport = none → s.env.ticks = tk ++ ticks →
    s.env.answers = l ++ rest →
    ∃ t, m s = .ok r t ∧ t.cfg = p ∧ t.env.transport = none ∧ t.env.ticks = ticks ∧ t.env.answers = rest ∧ t.mem = W s.mem

variable {p : Params} {tk tk' : List Tick} {l l' : List Byte} {a : α} {b : β} {W W' : Memory → Memory}

/-- A step, then the rest, for goals whose draws and memory are given. -/
theorem Timed.next {T : List Tick} {L : List Byte} {V : Memory → Memory} (h : Timed p m tk l a W) (tk' : List Tick)
    (l' : List Byte) (W' : Memory → Memory) (ht : T = tk ++ tk') (hl : L = l ++ l') (hw : ∀ x, V x = W' (W x))
    (h' : Timed p (f a) tk' l' b W') : Timed p (m >>= f) T L b V := by
  intro s ticks rest hp htr hti han
  obtain ⟨t, h1, hc, htr1, hti1, han1, hm⟩ :=
    h s (tk' ++ ticks) (l' ++ rest) hp htr (by rw [hti, ht, List.append_assoc]) (by rw [han, hl, List.append_assoc])
  obtain ⟨u, h2, hc2, htr2, hti2, han2, hm2⟩ := h' t ticks rest hc htr1 hti1 han1
  exact ⟨u, bind_ok_iff.mpr ⟨a, t, h1, h2⟩, hc2, htr2, hti2, han2, by rw [hm2, hm, hw]⟩

/-- A scripted procedure that reads no tick. -/
theorem Answers.timed (h : Answers m l a W) (hp : p.ok = true) (hm : TickFree m) : Timed p m [] l a W := by
  intro s ticks rest hc htr hti han
  obtain ⟨t, h1, hc1, htr1, han1, hm1⟩ := h s rest (by rw [hc]; exact hp) htr han
  exact ⟨t, h1, hc1.trans hc, htr1, (hm s a t h1).trans hti, han1, hm1⟩

/-- A command whose card is ready at once reads one tick (R121). -/
theorem timed_command {idx : BitVec 6} {arg : Word} {dest : Bool} {d : List Byte} {st : Byte} (hi : idx ≠ 0)
    (h : Answers (command idx arg dest) (reply d st) st id) (hp : p.ok = true) (gate : Tick) :
    Timed p (command idx arg dest) [gate] (reply d st) st id := by
  intro s ticks rest hc htr hti han
  obtain ⟨t, h1, hc1, htr1, han1, hm1⟩ := h s rest (by rw [hc]; exact hp) htr han
  refine ⟨t, h1, hc1.trans hc, htr1, ?_, han1, hm1⟩
  obtain ⟨u, hu, he⟩ : ∃ u : State, latchCommand idx arg dest s = .ok () u ∧ u.env = s.env := ⟨_, rfl, rfl⟩
  have hcmd : command idx arg dest s =
      (waitReady >>= fun ready => if ready then transact idx arg s.cfg.nResp else pure 0xFF) u := by
    simp only [command, sendCommand, param, look, bind, EStateM.bind, hu, readyGate, if_neg hi]
  rw [hcmd] at h1
  obtain ⟨ready, v, h2, h3⟩ := bind_ok_iff.mp h1
  rw [waitReady_at_once (by rw [he, htr]) (by rw [he]; simp [Env.answer, han, reply])] at h2
  cases h2
  rw [if_pos rfl] at h3
  rw [tickFree_transact idx arg _ _ _ _ h3]
  show u.env.ticks.tail = ticks
  rw [he, hti]
  rfl

/-- What a token poll passes over (43_block_transfer.md R190). -/
theorem judgeToken_skips {x : Byte} (hx : x ≠ 0xFE) (h : p.tokenPollStop = .onNonIdle → x = 0xFF) :
    judgeToken p x = none := by
  unfold judgeToken isStartToken
  rw [if_neg (by simpa using hx)]
  split
  · rfl
  · rw [if_pos (h ‹_›)]

/-- What ends a token poll at once under `ON_NON_IDLE` (R190). -/
theorem judgeToken_stops {x : Byte} (h : p.tokenPollStop = .onNonIdle) (h1 : x ≠ 0xFF) (h2 : x ≠ 0xFE) :
    judgeToken p x = some false := by
  unfold judgeToken isStartToken
  rw [if_neg (by simpa using h2), h]
  exact if_neg h1

section
variable {bs : List Byte} {ts : List Tick}

/-- The script of a token wait, read by index. -/
theorem script_at {e : Env} {rest : List Byte} {ticks : List Tick} (ha : e.answers = bs ++ rest) (ht : e.ticks = ts ++ ticks) :
    (∀ j x, bs[j]? = some x → e.answerAt j = x) ∧ (∀ x l, rest = x :: l → e.answerAt bs.length = x) ∧
    (∀ j x, ts[j]? = some x → e.tickAt j = x) ∧ ∀ x l, ticks = x :: l → e.tickAt ts.length = x := by
  refine ⟨fun j x h => ?_, fun x l h => ?_, fun j x h => ?_, fun x l h => ?_⟩
  · have := (List.getElem?_eq_some_iff.mp h).1
    simp [Env.answerAt, ha, List.getElem?_append_left this, h]
  · simp [Env.answerAt, ha, h]
  · have := (List.getElem?_eq_some_iff.mp h).1
    simp [Env.tickAt, ht, List.getElem?_append_left this, h]
  · simp [Env.tickAt, ht, h]

variable {t0 : Tick} (hb : ∀ x ∈ bs, judgeToken p x = none) (ht : ∀ x ∈ ts, (x - t0).toNat < p.tokenBudget)

include hb ht

/-- A token wait ended by a byte (R190). -/
theorem timed_waitToken_ended (hlen : bs.length = ts.length) {x : Byte} {r : Bool} (hr : judgeToken p x = some r) :
    Timed p waitToken (t0 :: ts) (bs ++ [x]) r id := by
  intro s ticks rest hc htr hti han
  subst hc
  rw [waitToken_eq]
  have htick : s.env.tick = t0 := by simp [Env.tick, hti]
  rw [htick]
  have h1 : s.env.afterTick.ticks = ts ++ ticks := by simp [Env.afterTick, hti]
  have h2 : s.env.afterTick.answers = bs ++ (x :: rest) := by simp [Env.afterTick, han]
  obtain ⟨ha, hax, hk, -⟩ := script_at h2 h1
  have hn : bs.length ≤ s.env.afterTick.pollsLeft := by
    simp only [Env.pollsLeft, h1, List.length_append]
    omega
  obtain ⟨u, hu, he, hm, hcu, -⟩ := pollOnce_ends (w := fun b x => { x with tok := some b }) (v := judgeToken s.cfg)
    (budget := s.cfg.tokenBudget) (t0 := t0) (r := r) (k := bs.length)
    (s := { s with
      env := s.env.afterTick
      regs := { s.regs with t0 := some t0 } }) hn htr
    (fun j hj => by
      show judgeToken s.cfg (Env.answerAt s.env.afterTick j) = none
      rw [ha j _ (List.getElem?_eq_getElem hj)]
      exact hb _ (List.getElem_mem hj))
    (fun j hj => by
      have hj : j < ts.length := hlen ▸ hj
      show (Env.tickAt s.env.afterTick j - t0).toNat < _
      rw [hk j _ (List.getElem?_eq_getElem hj)]
      exact ht _ (List.getElem_mem hj))
    (by
      show judgeToken s.cfg (Env.answerAt s.env.afterTick bs.length) = some r
      rw [hax x rest rfl, hr])
  refine ⟨u, hu, hcu, by rw [he]; simp [Env.afterXchg, Env.afterTick, htr], ?_, ?_, hm⟩
  · rw [he]
    simp [Env.afterXchg, Env.afterTick, hti, hlen]
  · rw [he]
    simp [Env.afterXchg, Env.afterTick, han]

/-- A token wait ended by a tick read that reaches the budget: the byte before it is the last (R190, 40_transport.md
R107). -/
theorem timed_waitToken_expired {last : Tick} (hlen : bs.length = ts.length + 1) (he : p.tokenBudget ≤ (last - t0).toNat) :
    Timed p waitToken (t0 :: (ts ++ [last])) bs false id := by
  intro s ticks rest hc htr hti han
  subst hc
  rw [waitToken_eq]
  have htick : s.env.tick = t0 := by simp [Env.tick, hti]
  rw [htick]
  have h1 : s.env.afterTick.ticks = ts ++ (last :: ticks) := by simp [Env.afterTick, hti]
  have h2 : s.env.afterTick.answers = bs ++ rest := by simp [Env.afterTick, han]
  obtain ⟨ha, -, hk, hlast⟩ := script_at h2 h1
  have hn : ts.length < s.env.afterTick.pollsLeft := by
    simp only [Env.pollsLeft, h1, List.length_append, List.length_cons]
    omega
  obtain ⟨u, hu, hen, hm, hcu, -⟩ := pollOnce_expires (w := fun b x => { x with tok := some b }) (v := judgeToken s.cfg)
    (budget := s.cfg.tokenBudget) (t0 := t0) (k := ts.length)
    (s := { s with
      env := s.env.afterTick
      regs := { s.regs with t0 := some t0 } }) hn htr
    (fun j hj => by
      have hj : j < bs.length := by omega
      show judgeToken s.cfg (Env.answerAt s.env.afterTick j) = none
      rw [ha j _ (List.getElem?_eq_getElem hj)]
      exact hb _ (List.getElem_mem hj))
    (fun j hj => by
      show (Env.tickAt s.env.afterTick j - t0).toNat < _
      rw [hk j _ (List.getElem?_eq_getElem hj)]
      exact ht _ (List.getElem_mem hj))
    (by
      show s.cfg.tokenBudget ≤ (Env.tickAt s.env.afterTick ts.length - t0).toNat
      rw [hlast last ticks rfl]
      exact he)
  refine ⟨u, hu, hcu, by rw [hen]; exact htr, ?_, ?_, hm⟩
  · rw [hen]
    simp [Env.afterTick, hti]
  · rw [hen]
    simp [Env.afterTick, han, ← hlen]

/-- A block whose start token comes, bytes passed over before it (R190). -/
theorem timed_readBlock (hp : p.ok = true) (base : Nat) (hlen : bs.length = ts.length) {data crc : List Byte}
    (hd : data.length = Config.blockBytes) (hc : crc.length = 2) :
    Timed p (readBlock base Config.blockBytes) (t0 :: ts) (bs ++ 0xFE :: (data ++ crc)) true fun m => m.store base data := by
  obtain ⟨c0, crc, rfl⟩ := List.exists_cons_of_length_eq_add_one hc
  obtain ⟨c1, crc, rfl⟩ := List.exists_cons_of_length_eq_add_one (Nat.succ.inj hc)
  obtain rfl : crc = [] := by simpa using hc
  have h := answers_streamIn base (data := data) 0
  rw [hd] at h
  refine (timed_waitToken_ended hb ht hlen (x := 0xFE) (r := true) rfl).next [] (data ++ [c0, c1])
    (fun m => m.store base data) (by simp) (by simp) (fun _ => rfl) ?_
  refine (h.timed hp (tickFree_streamIn _ _ _)).next [] [c0, c1] id rfl rfl (fun _ => rfl) ?_
  refine ((answers_rx c0).timed hp (tickFree_xchg _)).next [] [c1] id rfl rfl (fun _ => rfl) ?_
  exact ((answers_rx c1).timed hp (tickFree_xchg _)).next [] [] id rfl rfl (fun _ => rfl)
    ((answers_pure true).timed hp (tickFree_pure true))

end

/-- A block whose token wait fails consumes nothing more and leaves the buffer alone (R190). -/
theorem timed_readBlock_fails (hp : p.ok = true) (base size : Nat) (h : Timed p waitToken tk l false id) :
    Timed p (readBlock base size) tk l false id :=
  h.next [] [] id (by simp) (by simp) (fun _ => rfl) ((answers_pure false).timed hp (tickFree_pure false))

/-- A single-block read whose command is accepted at once ends as its block does (R192). -/
theorem timed_singleRead (hp : p.ok = true) (sector : Word) (base : Nat) {d : List Byte} (hd : d.length = 6) (gate : Tick)
    {r : Bool} (h : Timed p (readBlock base Config.blockBytes) tk l r W) :
    Timed p (singleRead sector base) (gate :: tk) (reply d 0x00 ++ l) r W := by
  have hc := answers_command (idx := 17) sector (dest := false) (payload := []) (by decide) hd (st := 0x00) rfl rfl nofun
  rw [List.append_nil] at hc
  refine ((answers_setSeq _).timed hp (tickFree_act fun _ => rfl)).next (gate :: tk) (reply d 0x00 ++ l) W rfl rfl
    (fun _ => rfl) ?_
  refine (timed_command (by decide) hc hp gate).next tk l W rfl rfl (fun _ => rfl) ?_
  exact ((answers_setSeq _).timed hp (tickFree_act fun _ => rfl)).next tk l W rfl rfl (fun _ => rfl) h

/-! A transport that runs out. -/

theorem bind_hangs {α β : Type} {m : M α} {f : α → M β} {x : Fault} (h : ∃ u, m s = .error (.fault x) u) :
    ∃ u, (m >>= f) s = .error (.fault x) u := by
  obtain ⟨u, h⟩ := h
  exact ⟨u, by simp [bind, EStateM.bind, h]⟩

theorem xchg_hangs {tx : Byte} (h : s.env.transport = some 0) :
    xchg tx s = .error (.fault .transportNeverIdle) s := by simp [xchg, h]

theorem exchanged_transport {tx : Byte} (h : s.env.transport = some (n + 1)) :
    (s.exchanged tx).env.transport = some n := by simp [State.exchanged, Env.afterXchg, h]

theorem sendBytes_hangs {l : List Byte} (h : s.env.transport = some n) (hn : n < l.length) :
    ∃ u, sendBytes l s = .error (.fault .transportNeverIdle) u := by
  induction l generalizing s n with
  | nil => simp at hn
  | cons b l ih =>
    cases n with
    | zero => exact ⟨s, by simp [sendBytes, bind, EStateM.bind, xchg_hangs h]⟩
    | succ n =>
      obtain ⟨u, hu⟩ := ih (exchanged_transport (tx := b) h) (Nat.lt_of_succ_lt_succ hn)
      exact ⟨u, by simp [sendBytes, bind, EStateM.bind, xchg, h, hu]⟩

theorem dummyBytes_hangs {done k : Nat} (h : s.env.transport = some n) (hn : n < k) :
    ∃ u, dummyBytes done k s = .error (.fault .transportNeverIdle) u := by
  induction k generalizing s n done with
  | zero => simp at hn
  | succ k ih =>
    obtain ⟨u, hu⟩ : ∃ u : State, u = { s with regs := { s.regs with pu := some (done + 1) } } := ⟨_, rfl⟩
    have hd : dummyBytes done (k + 1) s = (xchg Config.powerupTx >>= fun _ => dummyBytes (done + 1) k) u := by
      rw [hu]
      rfl
    have h : u.env.transport = some n := by rw [hu, ← h]
    rw [hd]
    cases n with
    | zero => exact bind_hangs ⟨u, xchg_hangs h⟩
    | succ n =>
      obtain ⟨v, hv⟩ := ih (done := done + 1) (exchanged_transport (tx := Config.powerupTx) h) (Nat.lt_of_succ_lt_succ hn)
      refine ⟨v, ?_⟩
      simp only [bind, EStateM.bind]
      rw [show xchg Config.powerupTx u = .ok u.env.answer (u.exchanged Config.powerupTx) by simp [xchg, h]]
      exact hv

theorem waitReady_hangs (h : s.env.transport = some 0) :
    ∃ u, waitReady s = .error (.fault .transportNeverIdle) u := by
  rw [waitReady_eq]
  exact bind_hangs ⟨_, xchg_hangs h⟩

/-- A command whose ready gate is passed at once hangs in its frame (41_command.md R121, R122). -/
theorem command_hangs {idx : BitVec 6} {arg : Word} {dest : Bool} (h : s.env.transport = some n)
    (ha : idx ≠ 0 → s.env.answers.head? = some 0xFF) (hn : n < if idx = 0 then 6 else 7) :
    ∃ u, command idx arg dest s = .error (.fault .transportNeverIdle) u := by
  have hsend : ∀ (u : State) (k : Nat), u.regs.cmdCrc = some (crcByte idx) → u.env.transport = some k → k < 6 →
      ∃ v, transact idx arg s.cfg.nResp u = .error (.fault .transportNeverIdle) v := by
    intro u k hu hk hlt
    obtain ⟨v, hv⟩ := sendBytes_hangs (l := frameBytes idx arg (crcByte idx)) hk hlt
    exact bind_hangs ⟨v, by simp [sendFrame, bind, EStateM.bind, readReg, hu, hv]⟩
  obtain ⟨u, hu, he, hr⟩ : ∃ u : State, latchCommand idx arg dest s = .ok () u ∧ u.env = s.env ∧
      u.regs.cmdCrc = some (crcByte idx) := ⟨_, rfl, rfl, rfl⟩
  have hc : command idx arg dest s =
      (readyGate idx >>= fun ready => if ready then transact idx arg s.cfg.nResp else pure 0xFF) u := by
    simp only [command, sendCommand, param, look, bind, EStateM.bind, hu]
  rw [← he] at h ha
  rw [hc]
  unfold readyGate
  split at hn <;> rename_i hi
  · rw [if_pos hi]
    exact hsend u n hr h hn
  · rw [if_neg hi]
    cases n with
    | zero => exact bind_hangs (waitReady_hangs h)
    | succ n =>
      have hb : u.env.answer = 0xFF := by
        unfold Env.answer
        split <;> rename_i hl <;> simpa [hl] using ha hi
      obtain ⟨v, hv, hvt, hvr⟩ : ∃ v, waitReady u = .ok true v ∧ v.env.transport = some n ∧
          v.regs.cmdCrc = some (crcByte idx) := by
        refine ⟨(State.exchanged { u with env := u.env.afterTick, regs := { u.regs with t0 := some u.env.tick } } 0xFF),
          ?_, exchanged_transport h, hr⟩
        rw [waitReady_eq]
        have h' : Env.answer u.env.afterTick = 0xFF := hb
        have h0 : u.env.afterTick.transport = some (n + 1) := h
        simp only [pollOnce, rx, xchg, bind, EStateM.bind, h0, h', judging, writeRegs, act, judgeReady, isReady,
          Config.idleByte, Option.some.injEq, Nat.add_eq_zero_iff, one_ne_zero, and_false, if_false]
        rfl
      obtain ⟨w, hw⟩ := hsend v n hvr hvt (by omega)
      exact ⟨w, by simp only [bind, EStateM.bind, hv, if_true, hw]⟩

/-- The stop token sequence needs two exchanges before its wait (R196). -/
theorem stopTran_hangs (h : s.env.transport = some n) (hn : n < 2) :
    ∃ u, stopTran s = .error (.fault .transportNeverIdle) u := by
  obtain rfl | rfl : n = 0 ∨ n = 1 := by omega
  · exact bind_hangs ⟨_, xchg_hangs h⟩
  · have hx : xchg 0xFD s = .ok s.env.answer (s.exchanged 0xFD) := by simp [xchg, h]
    have : stopTran s = (rx >>= fun _ => waitReady >>= fun _ => pure ()) (s.exchanged 0xFD) := by
      simp only [stopTran, bind, EStateM.bind, hx]
    rw [this]
    exact bind_hangs ⟨_, xchg_hangs (exchanged_transport h)⟩

/-- A negotiation needs the exchanges of its power-up (42_negotiation.md R161). -/
theorem negotiate_hangs (h : s.env.transport = some n) (hn : n < s.cfg.powerupBytes) :
    ∃ u, negotiate s = .error (.fault .transportNeverIdle) u := by
  obtain ⟨u, hu, ht, hc⟩ : ∃ u : State, (setSeq .native >>= fun _ => setSpeed .slow) s = .ok () u ∧
      u.env.transport = some n ∧ u.cfg = s.cfg := ⟨_, rfl, h, rfl⟩
  have hp : powerUp { s with seq := .native } =
      (dummyBytes 0 s.cfg.powerupBytes >>= fun _ => setSpeed .fast >>= fun _ => select) u := by
    cases hu
    rfl
  obtain ⟨v, hv⟩ : ∃ v, powerUp { s with seq := .native } = .error (.fault .transportNeverIdle) v := by
    rw [hp]
    exact bind_hangs (dummyBytes_hangs ht hn)
  exact ⟨v, by simp only [negotiate, setSeq, act, bind, EStateM.bind, hv]⟩

/-- A procedure called by itself that hangs (R108). -/
theorem call_hangs {m : M (Option Ret)} {x : Fault} (hl : s.Legal) (h : ∃ u, m s = .error (.fault x) u) :
    run (call m) s = .fault x := by
  obtain ⟨u, h⟩ := h
  simp [run, call, bind, EStateM.bind, enter_of_legal hl, h]

end

end Sys2Proof.Machine
end

