-- ==== Sys2Proof/Tests/Slice0.lean ====
section
/-! SUPPORT. Tests whose expected values stand in the spec (30_encoding.md R70 to R86, 95_test_vectors.md), and for each
statement with hypotheses a state and operands that meet them. -/

namespace Sys2Proof.Tests

open Sys2Proof.Machine

/-- A block with 32-bit addresses, right after reset, whose card and tick port answer this. -/
def bench (answers : List Byte) (ticks : List Tick) : State :=
  { State.reset with
    cfg := Params.standard 32 400000 25000000
    speed := .slow
    regions := [⟨0, 2 ^ 32, true, true⟩]
    env := { Env.initial with answers := answers, ticks := ticks } }

/-- The same with a `Ready` session of an SD v2 card. -/
def session (answers : List Byte) (ticks : List Tick) : State :=
  { bench answers ticks with
    version := .sdv2Plus
    status := .ready }

/-- The fields of a request. -/
def fields (unit : Byte) (buf : Nat) (sector count : Word) : ReqArgs := ⟨unit, buf, sector, count, 0⟩

/-- The instruction ends in a next state that this is true of. -/
def did (o : Host.Outcome State Fault Refusal) (f : State → Bool) : Bool :=
  match o with
  | .next t => f t
  | .fault _ | .refused _ => false

/-- The instruction is refused, or faults, with this name. -/
def refused (o : Host.Outcome State Fault Refusal) (r : Refusal) : Bool :=
  match o with
  | .refused r' => r' == r
  | .next _ | .fault _ => false

def faulted (o : Host.Outcome State Fault Refusal) (f : Fault) : Bool :=
  match o with
  | .fault f' => f' == f
  | .next _ | .refused _ => false

/-! Well-formedness: a term each check refuses (00_scope.md R12, R16; 44_facade.md R228 (b)). -/

theorem test_wide_request_address : (Instr.read (fields 0 0x100000000 0 1)).wellFormed 32 = false := by decide
theorem test_widest_request_address : (Instr.read (fields 0 0xFFFFFFFF 0 1)).wellFormed 32 = true := by decide
theorem test_wide_block_address : (Instr.startBlockRx 0x10000).wellFormed 16 = false ∧
    (Instr.startBlockTx 0x10000).wellFormed 16 = false ∧ (Instr.startMultiTx 0x10000).wellFormed 16 = false := by decide
theorem test_wrapping_span : spanFits 16 0xFE00 512 = false ∧ spanFits 16 0xFDFF 512 = true := by decide
theorem test_no_polls : Params.ok { Params.standard 32 0 0 with nResp := 0 } = false := by decide
theorem test_short_powerup : Params.ok { Params.standard 32 0 0 with powerupBytes := 99 } = false := by decide
theorem test_wide_address_refused :
    refused (step { bench [] [] with inbox := [.submit ⟨.host, [2], fields 0 0x100000000 0 1⟩] })
      (.noSuchWord .badAddress) = true := by rfl

/-! Decoding: the words of R70 to R85, bit by bit. -/

/-- A frame in its place. -/
def frame (b0 b1 b2 b3 b4 b5 : Byte) : Code := ⟨.frame, [b0, b1, b2, b3, b4, b5], ReqArgs.zero⟩

theorem test_decode_cmd0 : decode (frame 0b01000000 0b00000000 0b00000000 0b00000000 0b00000000 0b10010101) = .ok .cmd0 :=
  by rfl
theorem test_decode_cmd1 : decode (frame 0x41 0x00 0x00 0x00 0x00 0x00) = .ok .cmd1 := by rfl
theorem test_decode_cmd8 :
    decode (frame 0b01001000 0b00000000 0b00000000 0b00000001 0b10101010 0b10000111) = .ok (.cmd8 true) := by rfl
theorem test_decode_cmd8_no_destination :
    decode ⟨.frameNoDest, [0x48, 0x00, 0x00, 0x01, 0xAA, 0x87], ReqArgs.zero⟩ = .ok (.cmd8 false) := by rfl
theorem test_decode_cmd12 : decode (frame 0x4C 0x00 0x00 0x00 0x00 0x00) = .ok .cmd12 := by rfl
theorem test_decode_cmd16 : decode (frame 0x50 0x00 0x00 0x02 0x00 0x00) = .ok .cmd16 := by rfl
theorem test_decode_cmd17 :
    decode (frame 0b01010001 0b00010010 0b00110100 0b01010110 0b01111000 0b00000000) = .ok (.cmd17 0x12345678) := by rfl
theorem test_decode_cmd18 : decode (frame 0x52 0x00 0x00 0x00 0x64 0x00) = .ok (.cmd18 100) := by rfl
theorem test_decode_cmd24 : decode (frame 0x58 0xFF 0xFF 0xFF 0xFF 0x00) = .ok (.cmd24 0xFFFFFFFF) := by rfl
theorem test_decode_cmd25 : decode (frame 0x59 0x00 0x00 0x00 0x07 0x00) = .ok (.cmd25 7) := by rfl
theorem test_decode_cmd55 : decode (frame 0x77 0x00 0x00 0x00 0x00 0x00) = .ok .cmd55 := by rfl
theorem test_decode_acmd41 : decode (frame 0x69 0x00 0x00 0x00 0x00 0x00) = .ok .acmd41Hcs0 ∧
    decode (frame 0x69 0b01000000 0x00 0x00 0x00 0x00) = .ok .acmd41Hcs1 := ⟨by rfl, by rfl⟩
theorem test_decode_cmd58 : decode (frame 0x7A 0x00 0x00 0x00 0x00 0x00) = .ok (.cmd58 true) := by rfl
theorem test_decode_wrong_crc : decode (frame 0x40 0x00 0x00 0x00 0x00 0x00) = .error .notAFrame ∧
    decode (frame 0x69 0x00 0x00 0x00 0x01 0x00) = .error .notAFrame := ⟨by rfl, by rfl⟩
theorem test_decode_tokens (q : ReqArgs) : decode ⟨.tokenRx, [0b11111110], q⟩ = .ok (.startBlockRx q.buf) ∧
    decode ⟨.tokenTx, [0b11111110], q⟩ = .ok (.startBlockTx q.buf) ∧
    decode ⟨.tokenTx, [0b11111100], q⟩ = .ok (.startMultiTx q.buf) ∧
    decode ⟨.tokenTx, [0b11111101], q⟩ = .ok .stopTran := ⟨by rfl, by rfl, by rfl, by rfl⟩
theorem test_decode_data_response (q : ReqArgs) : decode ⟨.dataResponse, [0b11100101], q⟩ = .ok (.dataRespAccepted 0b1110) ∧
    decode ⟨.dataResponse, [0b00001110], q⟩ = .error .notAccepted := ⟨by rfl, by rfl⟩
theorem test_decode_r1 (q : ReqArgs) : decode ⟨.response, [0b00000101], q⟩ = .ok (.r1Valid 0b0000101) ∧
    decode ⟨.response, [0b11000001], q⟩ = .ok (.r1Unresolved 0b1000001) := ⟨by rfl, by rfl⟩
theorem test_decode_idle (q : ReqArgs) : decode ⟨.filler, [0b11111111], q⟩ = .ok .idleFiller ∧
    decode ⟨.readyPoll, [0b11111111], q⟩ = .ok .cardReady := ⟨by rfl, by rfl⟩
theorem test_decode_requests (q : ReqArgs) : decode ⟨.host, [0b00000000], q⟩ = .ok (.status q) ∧
    decode ⟨.host, [0b00000001], q⟩ = .ok (.init q) ∧ decode ⟨.host, [0b00000010], q⟩ = .ok (.read q) ∧
    decode ⟨.host, [0b00000011], q⟩ = .ok (.write q) ∧ decode ⟨.host, [0b00000100], q⟩ = .ok (.ioctl q) ∧
    decode ⟨.host, [0b00000101], q⟩ = .error (.reservedOp 5) := ⟨by rfl, by rfl, by rfl, by rfl, by rfl, by rfl⟩
theorem test_decode_primitives (q : ReqArgs) : decode ⟨.xchg, [0b01011010], q⟩ = .ok (.xchg 0x5A) ∧
    decode ⟨.rx, [0b11111111], q⟩ = .ok .rx ∧ decode ⟨.waitReady, [0b11111111], q⟩ = .ok .waitReady ∧
    decode ⟨.select, [], q⟩ = .ok .select ∧ decode ⟨.deselect, [], q⟩ = .ok .deselect ∧
    decode ⟨.setSpeed, [0], q⟩ = .ok (.setSpeed .slow) ∧ decode ⟨.setSpeed, [1], q⟩ = .ok (.setSpeed .fast) :=
  ⟨by rfl, by rfl, by rfl, by rfl, by rfl, by rfl, by rfl⟩
theorem test_table_words : decodeTableWord 48 0x510000000A00 = some (.cmd17 10) ∧
    decodeTableWord 8 0x04 = some (.ioctl ReqArgs.zero) ∧ decodeTableWord 8 0xFD = some .stopTran ∧
    decodeTableWord 8 0x80 = some (.r1Unresolved 0) :=
  ⟨by rfl, by rfl, by rfl, by rfl⟩

/-! The byte transport (V40). -/

theorem test_rx : did (exec .rx (bench [0x5A] [])) (fun t =>
    decide (t.ret = some (.byte 0x5A) ∧ t.wire = [.xchg 0xFF 0x5A])) = true := by rfl
theorem test_xchg : did (exec (.xchg 0x40) (bench [0x00] [])) (fun t =>
    decide (t.ret = some (.byte 0x00) ∧ t.wire = [.xchg 0x40 0x00])) = true := by rfl
theorem test_idle_filler : did (exec .idleFiller (bench [0xA5] [])) (fun t =>
    decide (t.ret = some (.byte 0xA5) ∧ t.wire = [.xchg 0xFF 0xA5])) = true := by rfl
theorem test_wait_ready_last_chance : did (exec .waitReady (bench [0x00, 0xFF] [0, 499])) (fun t =>
    decide (t.ret = some (.bool true) ∧ t.wire.length = 2 ∧ t.env.nTick = 2)) = true := by rfl
theorem test_wait_ready_expires_across_wrap :
    did (exec .waitReady (bench [0x00, 0x00, 0xFF] [0xFFFFFF00, 0x000000F3, 0x000000F4])) (fun t =>
      decide (t.ret = some (.bool false) ∧ t.env.answers = [0xFF])) = true := by rfl
theorem test_expired_backwards : budgetExpired 5 4 500 = true := by decide
theorem test_card_ready : did (exec .cardReady (bench [0x33] [100])) (fun t =>
    decide (t.ret = some (.bool true) ∧ t.env.answers = [0x33] ∧ t.env.nTick = 1)) = true := by rfl
theorem test_select : did (exec .select (bench [] [])) (fun t =>
    decide (t.cs = .selected ∧ t.wire = [.select])) = true := by rfl
theorem test_select_twice : faulted (exec .select { bench [] [] with cs := .selected })
    (.internalFault .selectWhileSelected) = true := by rfl
theorem test_deselect : did (exec .deselect { bench [] [] with cs := .selected }) (fun t =>
    decide (t.cs = .deselected ∧ t.wire = [.deselect] ∧ t.env.nAnswer = 0)) = true := by rfl
theorem test_set_speed : did (exec (.setSpeed .fast) (bench [] [])) (fun t =>
    decide (t.speed = .fast ∧ t.wire = [.setSpeed .fast])) = true := by rfl

/-! Commands (V41): six discarded bytes, then the status. -/

/-- Six discarded bytes. -/
def six : List Byte := [0x11, 0x22, 0x33, 0x44, 0x55, 0x66]

/-- The bytes the block sent. -/
def sent (t : State) : List Byte :=
  t.wire.filterMap fun e =>
    match e with
    | .xchg tx _ => some tx
    | .select | .deselect | .setSpeed _ => none

theorem test_cmd17_first_poll : did (exec (.cmd17 0x12345678) (bench (0xFF :: six ++ [0x00]) [])) (fun t =>
    decide (t.ret = some (.byte 0x00) ∧ sent t = [0xFF, 0x51, 0x12, 0x34, 0x56, 0x78, 0x00, 0xFF] ∧
      t.regs.tries = some 1)) = true := by rfl
theorem test_cmd17_no_eleventh_poll :
    did (exec (.cmd17 0) (bench (0xFF :: six ++ List.replicate 9 0xFF ++ [0xC1, 0x00]) [])) (fun t =>
      decide (t.ret = some (.byte 0xC1) ∧ t.regs.tries = some 10 ∧ t.env.answers = [0x00])) = true := by decide +kernel
theorem test_cmd18_card_error : did (exec (.cmd18 0) (bench (0xFF :: six ++ [0xFF, 0x04]) [])) (fun t =>
    decide (t.ret = some (.byte 0x04) ∧ sent t = [0xFF, 0x52, 0x00, 0x00, 0x00, 0x00, 0x00, 0xFF, 0xFF])) = true := by
  rfl
theorem test_cmd24_gate_expires : did (exec (.cmd24 7) (bench [0x00, 0xFF] [0, 500])) (fun t =>
    decide (t.ret = some (.byte 0xFF) ∧ sent t = [0xFF])) = true := by rfl
theorem test_cmd25_frame : did (exec (.cmd25 7) (bench (0xFF :: six ++ [0x00]) [])) (fun t =>
    decide (sent t = [0xFF, 0x59, 0x00, 0x00, 0x00, 0x07, 0x00, 0xFF])) = true := by rfl
theorem test_cmd0_no_gate : did (exec .cmd0 (bench (six ++ [0x01]) [])) (fun t =>
    decide (t.ret = some (.byte 0x01) ∧ sent t = [0x40, 0x00, 0x00, 0x00, 0x00, 0x95, 0xFF] ∧ t.env.nTick = 0)) = true := by
  rfl
theorem test_cmd0_extra_polls :
    did (exec .cmd0 (bench (six ++ List.replicate 10 0xFF ++ [0x00, 0xFF, 0xFF, 0x01]) [])) (fun t =>
      decide (t.ret = some (.byte 0x01) ∧ t.regs.tries = some 10 ∧ t.regs.xtries = some 4)) = true := by decide +kernel
theorem test_cmd8_payload :
    did (exec (.cmd8 true) (bench (0xFF :: six ++ [0x01, 0x00, 0x00, 0x01, 0xAA]) [])) (fun t =>
      decide (t.ret = some (.byte 0x01) ∧ t.regs.extOut = some 0x000001AA ∧
        sent t = [0xFF, 0x48, 0x00, 0x00, 0x01, 0xAA, 0x87, 0xFF, 0xFF, 0xFF, 0xFF, 0xFF])) = true := by rfl
theorem test_cmd8_misuse :
    did (exec (.cmd8 false) (bench (0xFF :: six ++ [0x00, 0x00, 0x00, 0x01, 0xAA]) [])) (fun t =>
      decide (t.ret = some (.byte 0xFF) ∧ t.regs.ext = some 0x000001AA ∧ t.regs.extOut = none)) = true := by rfl
theorem test_cmd58_ocr :
    did (exec (.cmd58 true) (bench (0xFF :: six ++ [0x00, 0xC0, 0xFF, 0x80, 0x00]) [])) (fun t =>
      decide (t.ret = some (.byte 0x00) ∧ t.regs.extOut = some 0xC0FF8000)) = true := by rfl
theorem test_cmd58_gate_expires : did (exec (.cmd58 true) (bench [0x00] [0, 500])) (fun t =>
    decide (t.ret = some (.byte 0xFF) ∧ t.regs.extOut = none ∧ t.wire.length = 1)) = true := by rfl
theorem test_fixed_frames :
    did (exec .cmd1 (bench (0xFF :: six ++ [0x00]) [])) (fun t =>
      decide (sent t = [0xFF, 0x41, 0x00, 0x00, 0x00, 0x00, 0x00, 0xFF])) = true ∧
    did (exec .cmd12 (bench (0xFF :: six ++ [0x00]) [])) (fun t =>
      decide (sent t = [0xFF, 0x4C, 0x00, 0x00, 0x00, 0x00, 0x00, 0xFF])) = true ∧
    did (exec .cmd16 (bench (0xFF :: six ++ [0x00]) [])) (fun t =>
      decide (sent t = [0xFF, 0x50, 0x00, 0x00, 0x02, 0x00, 0x00, 0xFF])) = true ∧
    did (exec .cmd55 (bench (0xFF :: six ++ [0x00]) [])) (fun t =>
      decide (sent t = [0xFF, 0x77, 0x00, 0x00, 0x00, 0x00, 0x00, 0xFF])) = true ∧
    did (exec .acmd41Hcs0 (bench (0xFF :: six ++ [0x00]) [])) (fun t =>
      decide (sent t = [0xFF, 0x69, 0x00, 0x00, 0x00, 0x00, 0x00, 0xFF])) = true ∧
    did (exec .acmd41Hcs1 (bench (0xFF :: six ++ [0x00]) [])) (fun t =>
      decide (sent t = [0xFF, 0x69, 0x40, 0x00, 0x00, 0x00, 0x00, 0xFF])) = true :=
  ⟨by rfl, by rfl, by rfl, by rfl, by rfl, by rfl⟩
theorem test_r1_valid : did (exec (.r1Valid 5) (bench [0x33] [])) (fun t =>
    decide (t.ret = some (.byte 0x05) ∧ t.regs.tries = some 1 ∧ t.env.answers = [0x33])) = true := by rfl
theorem test_r1_unresolved : did (exec (.r1Unresolved 0x41) (bench [0xFF, 0x00] [])) (fun t =>
    decide (t.ret = some (.byte 0x00) ∧ t.regs.tries = some 3)) = true := by rfl

/-! Blocks (V43). -/

/-- The procedures of START_BLOCK_RX and START_MULTI_TX with blocks of four bytes, so that the kernel can run them
(V43-4 and V43-5: `0xFE` is data after the start token, and the CRC is not checked; V43-9: a rejected block). -/
theorem test_read_block :
    did (run (callBool (readBlock 0x1000 4)) (bench [0xFF, 0xFE, 0xFE, 0x00, 0x02, 0xFE, 0x12, 0x34] [0, 0])) (fun t =>
      decide (t.ret = some (.bool true) ∧ t.mem = [(0x1000, 0xFE), (0x1002, 0x02), (0x1003, 0xFE)] ∧
        t.wire.length = 8)) = true := by rfl
theorem test_write_block :
    did (run (callBool (writeBlock 0x1000 4 0xFC)) { bench ([0xFF] ++ six ++ [0x11, 0x0D, 0x00, 0xFF]) [0, 0, 0] with
      mem := [(0x1000, 0xA0), (0x1003, 0xA3)] }) (fun t =>
      decide (t.ret = some (.bool false) ∧ t.regs.dresp = some 0x0D ∧
        sent t = [0xFF, 0xFC, 0xA0, 0x00, 0x00, 0xA3, 0x00, 0x00, 0xFF, 0xFF, 0xFF])) = true := by decide +kernel
theorem test_start_block_rx_at_the_top :
    refused (exec (.startBlockRx 0xFFFFFE00) (bench [] [])) .badBuffer = true := by rfl
/-- Every byte of the buffer lies in one of two adjacent ranges (44_facade.md R228 (b)); a hole of one byte between them, or a
range that may not be written, makes it inaccessible. -/
theorem test_adjacent_ranges :
    { bench [] [] with regions := [⟨0x1100, 0x100, true, true⟩, ⟨0x1000, 0x100, true, true⟩] }.bufferOk .store 0x1000 512 = true ∧
    { bench [] [] with regions := [⟨0x1101, 0x100, true, true⟩, ⟨0x1000, 0x100, true, true⟩] }.bufferOk .store 0x1000 512 = false ∧
    { bench [] [] with regions := [⟨0x1100, 0x100, true, false⟩, ⟨0x1000, 0x100, true, true⟩] }.bufferOk .store 0x1000 512 = false ∧
    { bench [] [] with regions := [⟨0x1100, 0x100, true, false⟩, ⟨0x1000, 0x100, true, true⟩] }.bufferOk .load 0x1000 512 = true :=
  ⟨by rfl, by rfl, by rfl, by rfl⟩
theorem test_start_block_tx_gate_expires : did (exec (.startBlockTx 0x1000) (bench [0x00] [0, 500])) (fun t =>
    decide (t.ret = some (.bool false) ∧ sent t = [0xFF])) = true := by rfl
theorem test_start_multi_tx_gate_expires : did (exec (.startMultiTx 0x1000) (bench [0x00] [0, 500])) (fun t =>
    decide (t.ret = some (.bool false) ∧ sent t = [0xFF])) = true := by rfl
theorem test_stop_tran : did (exec .stopTran (bench [0x00, 0x00, 0x00, 0xFF] [0, 0])) (fun t =>
    decide (t.ret = none ∧ sent t = [0xFD, 0xFF, 0xFF, 0xFF])) = true := by rfl
theorem test_data_response : did (exec (.dataRespAccepted 0xF) (bench [] [])) (fun t =>
    decide (t.ret = some (.bool true) ∧ t.regs.dresp = some 0xF5)) = true := by rfl
theorem test_rejected_responses : [0x0E, 0x0B, 0x0D, 0x0F, 0xFF, 0x00, 0x04].map dataAccepted = List.replicate 7 false := by
  decide

/-! Requests (V42, V44, programs P1 and P4). -/

theorem test_status_after_reset : did (exec (.status (fields 0 0 0 0)) (bench [] [])) (fun t =>
    decide (t.delivered = [0x01] ∧ t.wire = [])) = true := by rfl
theorem test_status_ready : did (exec (.status (fields 7 0 0 0)) (session [] [])) (fun t =>
    decide (t.delivered = [0x00])) = true := by rfl
theorem test_ioctl : did (exec (.ioctl (fields 1 0x1000 0 0)) (session [] [])) (fun t =>
    decide (t.delivered = [1] ∧ t.wire = [])) = true := by rfl
theorem test_init_ready : did (exec (.init (fields 0 0 0 0)) (session [0x01] [])) (fun t =>
    decide (t.delivered = [0x00] ∧ t.wire = [] ∧ t.version = .sdv2Plus)) = true := by rfl
/-- P4: an echo of `0x000002AA`. -/
theorem test_init_echo_mismatch : did (exec (.init (fields 0 0 0 0)) (bench (List.replicate 100 0xFF ++ six ++ [0x01] ++
    (0xFF :: six ++ [0x01, 0x00, 0x00, 0x02, 0xAA])) [])) (fun t =>
    decide (t.delivered = [0x01] ∧ t.version = .none ∧ t.status = .uninitialized ∧ t.cs = .deselected ∧ t.speed = .fast ∧
      t.wire.length = 119 + 4)) = true := by decide +kernel
theorem test_read_preconditions :
    did (exec (.read (fields 1 0x1000 0 1)) (bench [] [])) (fun t => decide (t.delivered = [4])) = true ∧
    did (exec (.read (fields 0 0x1000 0 0)) (bench [] [])) (fun t => decide (t.delivered = [3])) = true ∧
    did (exec (.read (fields 0 0x1000 0 0)) (session [] [])) (fun t => decide (t.delivered = [4])) = true :=
  ⟨by rfl, by rfl, by rfl⟩
/-- R64: a touched buffer refuses a transfer that would fail a precondition; a byte behind the buffer does not matter. -/
theorem test_touched_before_preconditions :
    refused (exec (.read (fields 1 0x1000 0 1)) { bench [] [] with inbox := [.touch 0x11FF] }) .bufferTouched = true ∧
    did (exec (.read (fields 1 0x1000 0 1)) { bench [] [] with inbox := [.touch 0x1200] })
      (fun t => decide (t.delivered = [4])) = true := ⟨by rfl, by rfl⟩
/-- V44-5: the ready gate of CMD17 expires. -/
theorem test_read_gate_expires : did (exec (.read (fields 0 0x1000 10 1)) (session [0x00] [0, 500])) (fun t =>
    decide (t.delivered = [1] ∧ t.wire = [.select, .xchg 0xFF 0x00, .deselect] ∧ t.status = .ready)) = true := by
  rfl
theorem test_write_preconditions :
    did (exec (.write (fields 255 0x1000 0 5)) (session [] [])) (fun t => decide (t.delivered = [4])) = true ∧
    did (exec (.write (fields 0 0x1000 0 1)) (bench [] [])) (fun t => decide (t.delivered = [3])) = true :=
  ⟨by rfl, by rfl⟩
/-- V43-15: CMD25 is never answered. -/
theorem test_write_unanswered :
    did (exec (.write (fields 0 0x3000 7 2)) (session (0xFF :: six ++ List.replicate 10 0xFF) [])) (fun t =>
      decide (t.delivered = [1] ∧ t.wire.length = 19 ∧
        sent t = [0xFF, 0x59, 0x00, 0x00, 0x00, 0x07, 0x00] ++ List.replicate 10 0xFF)) = true := by decide +kernel
theorem test_busy_refused : refused (exec (.status (fields 0 0 0 0)) { bench [] [] with busy := true })
    .concurrentRequest = true := by rfl
theorem test_reset_fetches_nothing : step State.reset = .next State.reset := by rfl

/-! For each statement with hypotheses, a state and operands that meet them. -/

/-- The answers of the discarded bytes of every command. -/
def sixes (_ : Nat) : List Byte := six

theorem bench_legal (a : List Byte) (t : List Tick) : (bench a t).Legal := ⟨rfl, rfl⟩
theorem bench_free (a : List Byte) (t : List Tick) : (bench a t).Free := ⟨rfl, rfl⟩
/-- A 32-bit tick difference can reach the budgets. -/
theorem small_budget : 500 < 2 ^ 32 := by decide

theorem bench_fair (a : List Byte) (t : List Tick) : (bench a t).Fair := ⟨rfl, rfl, small_budget, small_budget⟩
theorem session_legal (a : List Byte) (t : List Tick) : (session a t).Legal := ⟨rfl, rfl⟩
theorem session_free (a : List Byte) (t : List Tick) : (session a t).Free := ⟨rfl, rfl⟩
theorem session_fair (a : List Byte) (t : List Tick) : (session a t).Fair := ⟨rfl, rfl, small_budget, small_budget⟩
theorem session_lends (acc : Access) (a : List Byte) (t : List Tick) : (session a t).Lends acc 0x1000 1024 := by
  cases acc <;> exact ⟨rfl, rfl⟩
theorem bench_lends (acc : Access) (a : List Byte) (t : List Tick) : (bench a t).Lends acc 0x1000 512 := by
  cases acc <;> exact ⟨rfl, rfl⟩
theorem empty_inWidth (p : Params) : Regs.empty.InWidth p := by
  constructor <;> intro n h <;> cases h
theorem session_inv (a : List Byte) (t : List Tick) : (session a t).Inv :=
  ⟨rfl, ⟨nofun, nofun⟩, rfl, empty_inWidth _⟩

/-- A bench whose host does this next. -/
def submitted (a : List HostAct) : State := { session [] [] with inbox := a }

theorem witness_EncodeOfDecode : decode (frame 0x51 0x00 0x00 0x00 0x0A 0x00) = .ok (.cmd17 10) ∧
    decode ⟨.response, [0x80], ReqArgs.zero⟩ = .ok (.r1Unresolved 0) := ⟨by rfl, by rfl⟩

theorem witness_StepRunsDecodedInstruction :
    ((submitted [.submit ⟨.xchg, [0x5A], ReqArgs.zero⟩]).inbox = .submit ⟨.xchg, [0x5A], ReqArgs.zero⟩ :: [] ∧
      (submitted [.overlap ⟨.xchg, [0x5A], ReqArgs.zero⟩]).inbox = .overlap ⟨.xchg, [0x5A], ReqArgs.zero⟩ :: [] ∧
      decode ⟨.xchg, [0x5A], ReqArgs.zero⟩ = .ok (.xchg 0x5A) ∧ (Instr.xchg 0x5A).wellFormed 32 = true) ∧
    decodeTableWord 8 0x04 = some (.ioctl ReqArgs.zero) ∧ (Instr.ioctl ReqArgs.zero).wellFormed 32 = true :=
  ⟨⟨rfl, rfl, by rfl, rfl⟩, by rfl, rfl⟩

theorem witness_BlockWaitsForRequest : (submitted []).inbox = [] ∧
    (submitted [.poke 0xFFFFFFFF 0x5A]).inbox = .poke 0xFFFFFFFF 0x5A :: [] ∧
    (submitted [.touch 0]).inbox = .touch 0 :: [] := ⟨rfl, rfl, rfl⟩

theorem witness_ReservedOpRefused : 5 ≤ (0x05 : Byte).toNat ∧ 5 ≤ (0xFF : Byte).toNat ∧
    (submitted [.submit ⟨.host, [0x05], ReqArgs.zero⟩]).inbox = .submit ⟨.host, [0x05], ReqArgs.zero⟩ :: [] ∧
    (submitted [.overlap ⟨.host, [0xFF], ReqArgs.zero⟩]).inbox = .overlap ⟨.host, [0xFF], ReqArgs.zero⟩ :: [] :=
  ⟨by decide, by decide, rfl, rfl⟩

/-- A frame of no row, a reserved operation code, an address one past 32 bits. -/
theorem witness_UnspelledWordRefused :
    (submitted [.submit (frame 0x40 0 0 0 0 0)]).inbox = .submit (frame 0x40 0 0 0 0 0) :: [] ∧
    decode (frame 0x40 0 0 0 0 0) = .error .notAFrame ∧
    (submitted [.overlap ⟨.host, [0x05], ReqArgs.zero⟩]).inbox = .overlap ⟨.host, [0x05], ReqArgs.zero⟩ :: [] ∧
    decode ⟨.host, [0x05], ReqArgs.zero⟩ = .error (.reservedOp 0x05) ∧
    (submitted [.submit ⟨.host, [2], fields 0 0x100000000 0 1⟩]).inbox = .submit ⟨.host, [2], fields 0 0x100000000 0 1⟩ :: [] ∧
    decode ⟨.host, [2], fields 0 0x100000000 0 1⟩ = .ok (.read (fields 0 0x100000000 0 1)) ∧
    (Instr.read (fields 0 0x100000000 0 1)).wellFormed (submitted []).cfg.addrWidth = false :=
  ⟨rfl, by rfl, rfl, by rfl, rfl, by rfl, by rfl⟩

theorem witness_ConcurrentRequestRefused : requestOf (.status (fields 0 0 0 0)) = some (0, fields 0 0 0 0) ∧
    ({ bench [] [] with busy := true } : State).Legal ∧ ({ bench [] [] with busy := true } : State).busy = true ∧
    (submitted [.touch 0, .overlap ⟨.host, [0], ReqArgs.zero⟩]).Legal ∧
    (submitted [.touch 0, .overlap ⟨.host, [0], ReqArgs.zero⟩]).intrusions.any HostAct.isOverlap = true :=
  ⟨rfl, ⟨rfl, rfl⟩, rfl, ⟨rfl, rfl⟩, rfl⟩

theorem witness_BadParameterRefused : (bench [] []).seq.unused = false ∧
    ({ Params.standard 32 0 0 with nResp := 0 } : Params).nResp = 0 ∧
    ({ Params.standard 32 0 0 with powerupBytes := 99 } : Params).powerupBytes < 100 := ⟨rfl, rfl, by decide⟩

theorem witness_UnusedSeqFaults : ({ bench [] [] with seq := .unused14 } : State).seq = .unused14 ∧
    ({ bench [] [] with seq := .unused15 } : State).seq = .unused15 := ⟨rfl, rfl⟩

/-- The last byte of the buffer is touched; 512 bytes from `2^32 - 512` on reach the width, and are not touched. -/
theorem witness_BadBufferRefused :
    (submitted [.touch 0x11FF]).Legal ∧ (submitted [.touch 0x11FF]).busy = false ∧
    (submitted [.touch 0x11FF]).intrusions.any HostAct.isOverlap = false ∧ (submitted [.touch 0x11FF]).status = .ready ∧
    (fields 0 0x1000 7 1).unit = 0 ∧ (fields 0 0x1000 7 1).count ≠ 0 ∧
    (submitted [.touch 0x11FF]).intrusions.any (HostAct.touches 0x1000 (512 * (fields 0 0x1000 7 1).count.toNat)) = true ∧
    (submitted [.touch 0x11FF]).intrusions.any (HostAct.touches 0xFFFFFE00 512) = false ∧
    (¬(submitted [.touch 0x11FF]).Accessible .store 0xFFFFFE00 512) ∧
    ¬(submitted [.touch 0x11FF]).Accessible .load 0xFFFFFE00 512 := by
  refine ⟨⟨rfl, rfl⟩, rfl, rfl, rfl, rfl, by decide, rfl, rfl, ?_, ?_⟩ <;>
    · rw [← bufferOk_iff]
      exact nofun

theorem witness_StepKeepsInv : (submitted [.submit ⟨.deselect, [], ReqArgs.zero⟩]).Inv ∧
    ∃ t, step (submitted [.submit ⟨.deselect, [], ReqArgs.zero⟩]) = .next t :=
  ⟨⟨rfl, ⟨nofun, nofun⟩, rfl, empty_inWidth _⟩, _, rfl⟩

theorem witness_ReadySessionStays : (submitted [.submit ⟨.host, [1], ReqArgs.zero⟩]).status = .ready ∧
    ∃ t, step (submitted [.submit ⟨.host, [1], ReqArgs.zero⟩]) = .next t := ⟨rfl, _, rfl⟩

theorem witness_SessionOnlyByInit : (∃ t, exec (.xchg 0x40) (bench [0x00] []) = .next t) ∧ ∀ q, Instr.xchg 0x40 ≠ .init q :=
  ⟨⟨_, rfl⟩, nofun⟩
theorem witness_SpeedOnlyBySpeedEvents : (∃ t, exec (.xchg 0x40) (bench [0x00] []) = .next t) ∧
    (∀ q, Instr.xchg 0x40 ≠ .init q) ∧ ∀ v, Instr.xchg 0x40 ≠ .setSpeed v := ⟨⟨_, rfl⟩, nofun, nofun⟩
theorem witness_MemoryOnlyByReads : (∃ t, exec (.xchg 0x40) (bench [0x00] []) = .next t) ∧
    (∀ q, Instr.xchg 0x40 ≠ .read q) ∧ ∀ base, Instr.xchg 0x40 ≠ .startBlockRx base := ⟨⟨_, rfl⟩, nofun, nofun⟩
theorem witness_SetupStays : ∃ t, exec (.ioctl (fields 0 0 0 0)) (bench [] []) = .next t := ⟨_, rfl⟩
theorem witness_CallsAreNoRequests : requestOf (.xchg 0x40) = none ∧ ∃ t, exec (.xchg 0x40) (bench [0x00] []) = .next t :=
  ⟨rfl, _, rfl⟩
theorem witness_RequestLifecycle : requestOf (.ioctl (fields 0 0 0 0)) = some (4, fields 0 0 0 0) ∧
    ∃ t, exec (.ioctl (fields 0 0 0 0)) (bench [] []) = .next t := ⟨rfl, _, rfl⟩

/-- A request that ends with this result on a bench with nothing delivered. -/
def EndsWith (i : Instr) (s : State) (r : Byte) : Prop := ∃ t, exec i s = .next t ∧ t.delivered = s.delivered ++ [r]

/-- Every case of the result, those of a transfer at each precondition in turn. -/
theorem witness_RequestResults :
    EndsWith (.status (fields 0 0 0 0)) (bench [] []) 0x01 ∧ EndsWith (.status (fields 0 0 0 0)) (session [] []) 0x00 ∧
    EndsWith (.init (fields 0 0 0 0)) (session [] []) 0x00 ∧ EndsWith (.ioctl (fields 0 0 0 0)) (bench [] []) 1 ∧
    EndsWith (.read (fields 1 0 0 0)) (bench [] []) 4 ∧ EndsWith (.write (fields 0 0 0 0)) (bench [] []) 3 ∧
    EndsWith (.read (fields 0 0 0 0)) (session [] []) 4 ∧
    EndsWith (.read (fields 0 0x1000 0 1)) (session [0x00] [0, 500]) 1 :=
  ⟨⟨_, rfl, rfl⟩, ⟨_, rfl, rfl⟩, ⟨_, rfl, rfl⟩, ⟨_, rfl, rfl⟩, ⟨_, rfl, rfl⟩, ⟨_, rfl, rfl⟩, ⟨_, rfl, rfl⟩,
    ⟨_, rfl, rfl⟩⟩

section
variable {q : ReqArgs} {s : State}

theorem accepted_fair (h : s.Fair) (op : Byte) : (s.accepted op q).Fair := ⟨h.transport, h.ticks, h.ready, h.token⟩

/-- A transfer past its preconditions ends, whatever the card answers. -/
theorem read_ends (hl : s.Legal) (hf : s.Free) (hs : s.Fair) (hc : s.cs = .deselected)
    (hp : precondition s.status q.unit q.count = none) (hb : s.Lends .store q.buf (requestBytes q.count)) :
    ∃ t, exec (.read q) s = .next t := by
  obtain ⟨r, u, h, -⟩ := (ends_claimedRead (q := q) (s := s.accepted 2 q) (F := True) (fun _ => accepted_fair hs 2) hl.cfg
    hc).exists trivial
  exact ⟨_, request_of_ok hl hf ((transfer_claimed hp hb).trans h)⟩

theorem write_ends (hl : s.Legal) (hf : s.Free) (hs : s.Fair) (hc : s.cs = .deselected)
    (hp : precondition s.status q.unit q.count = none) (hb : s.Lends .load q.buf (requestBytes q.count)) :
    ∃ t, exec (.write q) s = .next t := by
  obtain ⟨r, u, h, -⟩ := (ends_claimedWrite (q := q) (s := s.accepted 3 q) (F := True) (fun _ => accepted_fair hs 3) hl.cfg
    hc).exists trivial
  exact ⟨_, request_of_ok hl hf ((transfer_claimed hp hb).trans h)⟩

/-- An initialization ends, whatever the card answers. -/
theorem init_ends (hl : s.Legal) (hf : s.Free) (hs : s.Fair) (hc : s.cs = .deselected) (hn : s.status ≠ .ready) :
    ∃ t, exec (.init q) s = .next t := by
  obtain ⟨r, u, h, -⟩ := (ends_initSession (F := True) (s := s.accepted 1 q) (fun _ => accepted_fair hs 1) hl.cfg hc
    hn).exists trivial
  exact ⟨_, request_of_ok hl hf h⟩

end

theorem session_read : ∃ t, exec (.read (fields 0 0x1000 7 2)) (session [] []) = .next t :=
  read_ends (session_legal _ _) (session_free _ _) (session_fair _ _) rfl rfl (session_lends _ _ _)

theorem session_write : ∃ t, exec (.write (fields 0 0x1000 7 2)) (session [] []) = .next t :=
  write_ends (session_legal _ _) (session_free _ _) (session_fair _ _) rfl rfl (session_lends _ _ _)

theorem bench_init : ∃ t, exec (.init (fields 0 0 0 0)) (bench [] []) = .next t :=
  init_ends (bench_legal _ _) (bench_free _ _) (bench_fair _ _) rfl nofun

theorem next_of_did {o : Host.Outcome State Fault Refusal} {f : State → Bool} (h : did o f = true) : ∃ t, o = .next t := by
  cases o with
  | next t => exact ⟨t, rfl⟩
  | fault _ => cases h
  | refused _ => cases h

theorem witness_RequestsReleaseBus : requestOf (.read (fields 0 0x1000 7 2)) = some (2, fields 0 0x1000 7 2) ∧
    (session [] []).cs = .deselected ∧ (bench [] []).cs = .deselected ∧
    (∃ t, exec (.read (fields 0 0x1000 7 2)) (session [] []) = .next t) ∧
    (∃ t, exec (.init (fields 0 0 0 0)) (bench [] []) = .next t) ∧
    ∃ t, exec (.ioctl (fields 0 0 0 0)) (bench [] []) = .next t :=
  ⟨rfl, rfl, rfl, session_read, bench_init, _, rfl⟩

theorem witness_RequestsMeetNoInternalFault : requestOf (.init (fields 0 0 0 0)) = some (1, fields 0 0 0 0) ∧
    (bench [] []).seq.unused = false ∧ (bench [] []).cs = .deselected := ⟨rfl, rfl, rfl⟩

/-- The first and the last stored byte, and the bytes on either side. -/
theorem witness_StoredBytesReadBack : Memory.wf [(0xFFF, 0x01), (0x1002, 0x02)] = true ∧
    [(0x0A : Byte), 0x00][0]? = some 0x0A ∧ [(0x0A : Byte), 0x00][1]? = some 0x00 ∧
    ¬(0x1000 ≤ 0xFFF ∧ 0xFFF < 0x1000 + [(0x0A : Byte), 0x00].length) ∧
    ¬(0x1000 ≤ 0x1002 ∧ 0x1002 < 0x1000 + [(0x0A : Byte), 0x00].length) := by decide

theorem witness_StatusAnswersSession : (bench [] []).Legal ∧ (bench [] []).Free ∧ (session [] []).Legal ∧ (session [] []).Free :=
  ⟨bench_legal _ _, bench_free _ _, session_legal _ _, session_free _ _⟩
theorem witness_IoctlAnswersError : (bench [] []).Legal ∧ (bench [] []).Free := ⟨bench_legal _ _, bench_free _ _⟩
theorem witness_PreconditionFailures : (bench [] []).Legal ∧ (bench [] []).Free ∧ (fields 1 0 0 0).unit ≠ 0 ∧
    (fields 0 0 0 0).unit = 0 ∧ (bench [] []).status ≠ .ready ∧ (session [] []).Legal ∧ (session [] []).Free ∧
    (session [] []).status = .ready ∧ (fields 0 0 0 0).count = 0 :=
  ⟨bench_legal _ _, bench_free _ _, by decide, rfl, nofun, session_legal _ _, session_free _ _, rfl, rfl⟩
theorem witness_InitOnReadySession : (session [] []).Legal ∧ (session [] []).Free ∧ (session [] []).status = .ready :=
  ⟨session_legal _ _, session_free _ _, rfl⟩
theorem witness_InitCompletes : (bench [] []).Legal ∧ (bench [] []).Free ∧ (bench [] []).Fair ∧ (bench [] []).cs = .deselected ∧
    (bench [] []).status = .uninitialized := ⟨bench_legal _ _, bench_free _ _, bench_fair _ _, rfl, rfl⟩
theorem witness_InitFollowsNegotiation : (bench [] []).cs = .deselected ∧ (bench [] []).status = .uninitialized ∧
    ∃ t, exec (.init (fields 0 0 0 0)) (bench [] []) = .next t := ⟨rfl, rfl, bench_init⟩

/-- A high-capacity and a byte-addressed SD v2 card, an SD v1 card and an MMC card. -/
theorem witness_InitFindsEachFamily : (bench [] []).Legal ∧ (bench [] []).Free ∧ (bench [] []).env.transport = none ∧
    (bench [] []).cs = .deselected ∧ (bench [] []).status = .uninitialized ∧
    (List.replicate 100 (0xFF : Byte)).length = (bench [] []).cfg.powerupBytes ∧ six.length = 6 ∧ (∀ k, (sixes k).length = 6) ∧
    [(0x00 : Byte), 0x00, 0x01, 0xAA].length = 4 ∧ [(0xC0 : Byte), 0xFF, 0x80, 0x00].length = 4 ∧
    unresolved 0x05 = false ∧ (0x05 : Byte) ≠ 0x01 ∧ (0x05 : Byte) ≠ 0x00 ∧
    echoMatches (bench [] []).cfg (payloadWord [0x00, 0x00, 0x01, 0xAA]) = true ∧
    highCapacity (bench [] []).cfg (payloadWord [0xC0, 0xFF, 0x80, 0x00]) = true ∧
    highCapacity (bench [] []).cfg (payloadWord [0x80, 0xFF, 0x80, 0x00]) = false ∧
    ∀ a, (bench a []).env.answers = a :=
  ⟨bench_legal _ _, bench_free _ _, rfl, rfl, rfl, rfl, rfl, fun _ => rfl, rfl, rfl, rfl, by decide, by decide, rfl, rfl, rfl,
    fun _ => rfl⟩

theorem witness_ReadCompletes : (session [] []).Legal ∧ (session [] []).Free ∧ (session [] []).Fair ∧
    (session [] []).cs = .deselected ∧ (session [] []).mem.wf = true ∧ (fields 0 0x1000 7 2).unit = 0 ∧
    (session [] []).status = .ready ∧ (fields 0 0x1000 7 2).count ≠ 0 ∧
    (session [] []).Lends .store 0x1000 (512 * (fields 0 0x1000 7 2).count.toNat) :=
  ⟨session_legal _ _, session_free _ _, session_fair _ _, rfl, rfl, rfl, rfl, by decide, session_lends _ _ _⟩
theorem witness_ReadFollowsSequence : (fields 0 0x1000 7 2).unit = 0 ∧ (session [] []).status = .ready ∧
    (fields 0 0x1000 7 2).count ≠ 0 ∧ ∃ t, exec (.read (fields 0 0x1000 7 2)) (session [] []) = .next t :=
  ⟨rfl, rfl, by decide, session_read⟩

/-- A block of zeros and its CRC. -/
def zeros : List Byte × List Byte := (List.replicate 512 0x00, [0x12, 0x34])

/-- A session whose token wait is stopped so, with a card that takes CMD17 and then answers `a`, and a tick port that reads
0 twice and then `t`. -/
def polling (stop : TokenPollStop) (a : List Byte) (t : List Tick) : State :=
  { session (reply six 0x00 ++ a) (0 :: 0 :: t) with cfg := { Params.standard 32 0 0 with tokenPollStop := stop } }

/-- What every clause asks of the state, and then of the clause's own draws: V43-3, where `0x08` is passed over or, under
`ON_NON_IDLE`, ends the wait; V43-2, where the budget is reached after five polls. -/
theorem witness_TokenWaitFollowsTicks :
    (∀ stop a t, (polling stop a t).Legal ∧ (polling stop a t).Free ∧ (polling stop a t).env.transport = none ∧
      (polling stop a t).cs = .deselected ∧ (polling stop a t).status = .ready ∧
      (polling stop a t).Lends .store 0x1000 512 ∧ (polling stop a t).cfg.tokenBudget = 500 ∧
      (polling stop a t).cfg.tokenPollStop = stop) ∧
    (fields 0 0x1000 7 1).unit = 0 ∧ (fields 0 0x1000 7 1).count = 1 ∧ six.length = 6 ∧
    ((∀ b ∈ [(0x08 : Byte)], b ≠ 0xFE ∧ (TokenPollStop.onStartToken = .onNonIdle → b = 0xFF)) ∧
      (∀ t ∈ [(0 : Tick)], (t - 0).toNat < 500) ∧ zeros.1.length = 512 ∧ zeros.2.length = 2 ∧
      (polling .onStartToken (0x08 :: 0xFE :: (zeros.1 ++ zeros.2)) [0]).env.ticks = 0 :: 0 :: ([0] ++ []) ∧
      (polling .onStartToken (0x08 :: 0xFE :: (zeros.1 ++ zeros.2)) [0]).env.answers =
        reply six 0x00 ++ ([0x08] ++ 0xFE :: (zeros.1 ++ zeros.2))) ∧
    ((∀ b ∈ List.replicate 5 (0xFF : Byte), b ≠ 0xFE ∧ (TokenPollStop.onNonIdle = .onNonIdle → b = 0xFF)) ∧
      (∀ t ∈ [(100 : Tick), 200, 300, 400], (t - 0).toNat < 500) ∧ 500 ≤ ((500 : Tick) - 0).toNat ∧
      (polling .onNonIdle (List.replicate 5 0xFF) [100, 200, 300, 400, 500]).env.ticks =
        0 :: 0 :: ([100, 200, 300, 400] ++ 500 :: []) ∧
      (polling .onNonIdle (List.replicate 5 0xFF) [100, 200, 300, 400, 500]).env.answers =
        reply six 0x00 ++ (List.replicate 5 0xFF ++ [])) ∧
    (0x08 : Byte) ≠ 0xFF ∧ (0x08 : Byte) ≠ 0xFE ∧ (polling .onNonIdle [0x08] []).env.ticks = 0 :: 0 :: ([] ++ []) ∧
    (polling .onNonIdle [0x08] []).env.answers = reply six 0x00 ++ ([] ++ 0x08 :: []) :=
  ⟨fun _ _ _ => ⟨⟨rfl, rfl⟩, ⟨rfl, rfl⟩, rfl, rfl, rfl, ⟨rfl, rfl⟩, rfl, rfl⟩, rfl, rfl, rfl,
    ⟨by simp, by simp, List.length_replicate, rfl, rfl, rfl⟩, ⟨by simp, by simp, by simp, rfl, rfl⟩, by decide, by decide,
    rfl, rfl⟩

theorem witness_ReadSucceeds : (session [] []).Legal ∧ (session [] []).Free ∧ (session [] []).env.transport = none ∧
    (session [] []).cs = .deselected ∧ (fields 0 0x1000 7 2).unit = 0 ∧ (session [] []).status = .ready ∧
    (fields 0 0x1000 7 2).count ≠ 0 ∧ (session [] []).Lends .store 0x1000 (512 * (fields 0 0x1000 7 2).count.toNat) ∧
    six.length = 6 ∧ unresolved 0x00 = false ∧ [zeros, zeros].length = (fields 0 0x1000 7 2).count.toNat ∧
    (∀ b ∈ [zeros, zeros], b.1.length = 512 ∧ b.2.length = 2) ∧
    ∀ a, (session a []).env.answers = a := by
  refine ⟨session_legal _ _, session_free _ _, rfl, rfl, rfl, rfl, by decide, session_lends _ _ _, rfl, rfl, rfl, ?_, fun _ => rfl⟩
  intro b hb
  have : b = zeros := by simpa using hb
  rw [this]
  exact ⟨List.length_replicate, rfl⟩

theorem witness_WriteCompletes : (session [] []).Legal ∧ (session [] []).Free ∧ (session [] []).Fair ∧
    (session [] []).cs = .deselected ∧ (fields 0 0x1000 7 2).unit = 0 ∧ (session [] []).status = .ready ∧
    (fields 0 0x1000 7 2).count ≠ 0 ∧ (session [] []).Lends .load 0x1000 (512 * (fields 0 0x1000 7 2).count.toNat) :=
  ⟨session_legal _ _, session_free _ _, session_fair _ _, rfl, rfl, rfl, by decide, session_lends _ _ _⟩
theorem witness_WriteFollowsSequence : (fields 0 0x1000 7 2).unit = 0 ∧ (session [] []).status = .ready ∧
    (fields 0 0x1000 7 2).count ≠ 0 ∧ ∃ t, exec (.write (fields 0 0x1000 7 2)) (session [] []) = .next t :=
  ⟨rfl, rfl, by decide, session_write⟩

/-- The bytes received during a block sent, and an accepting response with its ignored bits set. -/
def taken : List Byte × Byte := (List.replicate 515 0x00, 0xE5)

theorem witness_WriteSucceeds : (session [] []).Legal ∧ (session [] []).Free ∧ (session [] []).env.transport = none ∧
    (session [] []).cs = .deselected ∧ (fields 0 0x1000 7 2).unit = 0 ∧ (session [] []).status = .ready ∧
    (fields 0 0x1000 7 2).count ≠ 0 ∧ (session [] []).Lends .load 0x1000 (512 * (fields 0 0x1000 7 2).count.toNat) ∧
    six.length = 6 ∧ [taken, taken].length = (fields 0 0x1000 7 2).count.toNat ∧
    (∀ b ∈ [taken, taken], b.1.length = 515 ∧ dataAccepted b.2 = true) ∧ ∀ a, (session a []).env.answers = a := by
  refine ⟨session_legal _ _, session_free _ _, rfl, rfl, rfl, rfl, by decide, session_lends _ _ _, rfl, rfl, ?_, fun _ => rfl⟩
  intro b hb
  have : b = taken := by simpa using hb
  rw [this]
  exact ⟨List.length_replicate, rfl⟩

theorem witness_ExchangesOneByte : (bench [0x5A] []).Legal ∧ (bench [0x5A] []).env.transport ≠ some 0 ∧
    (bench [0x5A] []).env.answers = 0x5A :: [] := ⟨bench_legal _ _, nofun, rfl⟩

/-- A transport that never becomes idle again. -/
def stuck : State := { bench [] [] with env := { Env.initial with transport := some 0 } }

/-- A bench whose transport becomes idle `n` times. -/
def running (n : Nat) (a : List Byte) : State := { bench a [] with env := { Env.initial with
    answers := a
    transport := some n } }

/-- A bench whose ready budget no 32-bit difference reaches and whose card answers `0x00` to every poll. -/
def never (fair : Bool) : State := { bench [] [] with
    cfg := { Params.standard 32 0 0 with readyBudget := 2 ^ 32 }
    env := { Env.initial with
      answers := List.replicate (Config.waitPolls 1 + 1) 0x00
      tickFair := fair } }

/-- A transport that runs out at the sixth frame byte, at the second exchange of STOP_TRAN and the last of the power-up;
budgets no tick difference reaches, and a tick port that shows no expiry, with a card that is never ready. -/
theorem witness_IdleTransportNeeded :
    (stuck.Legal ∧ stuck.env.transport = some 0) ∧
    (∀ n a, (running n a).Legal ∧ (running n a).Free ∧ (running n a).status = .uninitialized ∧
      (running n a).env.transport = some n ∧ (running n a).cfg.powerupBytes = 100) ∧
    frameOf (running 5 []).cfg .cmd0 = some (0, 0) ∧ frameOf (running 6 [0xFF]).cfg (.cmd17 7) = some (17, 7) ∧
    (running 6 [0xFF]).env.answers.head? = some 0xFF ∧
    ∀ fair, (never fair).Legal ∧ (never fair).env.transport = none ∧ (never fair).env.tickFair = fair ∧
      2 ^ 32 ≤ (never fair).cfg.readyBudget ∧
      (∀ k ≤ (never fair).env.afterTick.pollsLeft, (never fair).env.answerAt k ≠ 0xFF) ∧
      ∀ k < (never fair).env.afterTick.pollsLeft,
        ((never fair).env.tickAt (k + 1) - (never fair).env.tickAt 0).toNat < (never fair).cfg.readyBudget := by
  refine ⟨⟨⟨rfl, rfl⟩, rfl⟩, fun _ _ => ⟨⟨rfl, rfl⟩, ⟨rfl, rfl⟩, rfl, rfl, rfl⟩, rfl, rfl, rfl,
    fun fair => ⟨⟨rfl, rfl⟩, rfl, rfl, Nat.le_refl _, fun k hk => ?_, fun k _ => BitVec.isLt _⟩⟩
  have hk : k < Config.waitPolls 1 + 1 := Nat.lt_succ_of_le hk
  have : (never fair).env.answerAt k = 0x00 := by simp [never, Env.answerAt, hk]
  rw [this]
  decide
theorem witness_SelectClaimsBus : (bench [] []).Legal ∧ (bench [] []).cs = .deselected ∧
    ({ bench [] [] with cs := .selected } : State).Legal ∧ ({ bench [] [] with cs := .selected } : State).cs = .selected :=
  ⟨bench_legal _ _, rfl, ⟨rfl, rfl⟩, rfl⟩
theorem witness_DeselectReleasesBus : ({ bench [] [] with cs := .selected } : State).Legal := ⟨rfl, rfl⟩
theorem witness_SetSpeedSelects : (bench [] []).Legal := bench_legal _ _
theorem witness_WaitReadyCompletes : (bench [] []).Legal ∧ (bench [] []).Fair := ⟨bench_legal _ _, bench_fair _ _⟩

/-- V40-4: ready at the exchange after 499 ticks; V40-7: expired at 500, across the wrap. -/
theorem witness_WaitReadyFollowsTicks :
    (bench [] []).cfg.readyBudget = 500 ∧
    ((bench [0x00, 0xFF] [0, 499]).Legal ∧ (bench [0x00, 0xFF] [0, 499]).env.transport = none ∧
      (∀ b ∈ [(0x00 : Byte)], b ≠ 0xFF) ∧ (∀ t ∈ [(499 : Tick)], (t - 0).toNat < 500) ∧
      (bench [0x00, 0xFF] [0, 499]).env.ticks = 0 :: ([499] ++ []) ∧
      (bench [0x00, 0xFF] [0, 499]).env.answers = [0x00] ++ 0xFF :: []) ∧
    (∀ b ∈ [(0x00 : Byte), 0x00], b ≠ 0xFF) ∧
    (∀ t ∈ [(0x000000F3 : Tick)], (t - 0xFFFFFF00).toNat < 500) ∧
    500 ≤ ((0x000000F4 : Tick) - 0xFFFFFF00).toNat ∧
    (bench [0x00, 0x00] [0xFFFFFF00, 0x000000F3, 0x000000F4]).env.ticks = 0xFFFFFF00 :: ([0x000000F3] ++ 0x000000F4 :: []) ∧
    (bench [0x00, 0x00] [0xFFFFFF00, 0x000000F3, 0x000000F4]).env.answers = [0x00, 0x00] ++ [] :=
  ⟨rfl, ⟨bench_legal _ _, rfl, by simp, by simp, rfl, rfl⟩, by simp, by simp, by simp, rfl, rfl⟩

theorem witness_CardReadyEndsWait : (bench [] []).Legal ∧ (bench [] []).env.transport = none := ⟨bench_legal _ _, rfl⟩

theorem witness_CommandsComplete : frameOf (bench [] []).cfg (.cmd8 true) = some (8, 0x000001AA) ∧
    (bench [] []).Legal ∧ (bench [] []).Fair := ⟨rfl, bench_legal _ _, bench_fair _ _⟩
theorem witness_CommandsFollowFraming : frameOf (bench (six ++ [0x01]) []).cfg .cmd0 = some (0, 0) ∧
    ∃ t, exec .cmd0 (bench (six ++ [0x01]) []) = .next t := ⟨rfl, _, rfl⟩
theorem witness_CommandsReturnStatus :
    (frameOf (bench [] []).cfg .cmd0 = some (0, 0) ∧ hasPayload 0 = false ∧ (bench (six ++ [0x01]) []).env.answers =
      (if (0 : BitVec 6) = 0 then six ++ [0x01] else reply six 0x01) ++ ([] ++ [])) ∧
    (frameOf (bench [] []).cfg (.cmd58 true) = some (58, 0) ∧ destOf (.cmd58 true) = true ∧
      [(0xC0 : Byte), 0xFF, 0x80, 0x00].length = (if hasPayload 58 then 4 else 0) ∧
      (bench (reply six 0x00 ++ [0xC0, 0xFF, 0x80, 0x00]) []).env.answers =
        (if (58 : BitVec 6) = 0 then six ++ [0x00] else reply six 0x00) ++ ([0xC0, 0xFF, 0x80, 0x00] ++ [])) ∧
    (∀ a, (bench a []).Legal ∧ (bench a []).env.transport = none) ∧ six.length = 6 ∧ unresolved 0x01 = false ∧
    unresolved 0x00 = false :=
  ⟨⟨rfl, rfl, rfl⟩, ⟨rfl, rfl, rfl, rfl⟩, fun a => ⟨bench_legal a _, rfl⟩, rfl, rfl, rfl⟩
theorem witness_Cmd0IsBounded : ∃ t, exec .cmd0 (bench (six ++ [0x01]) []) = .next t := ⟨_, rfl⟩
theorem witness_MisuseGuard :
    (∃ t, exec (.cmd8 false) (bench (0xFF :: six ++ [0x00, 0x00, 0x00, 0x01, 0xAA]) []) = .next t) ∧
    ∃ t, exec (.cmd58 false) (bench (0xFF :: six ++ [0x00, 0x00, 0x00, 0x01, 0xAA]) []) = .next t :=
  ⟨next_of_did test_cmd8_misuse, next_of_did (f := fun _ => true) (by rfl)⟩
theorem witness_ValidStatusEndsPoll : (bench [] []).Legal ∧ (bench [] []).env.transport = none := ⟨bench_legal _ _, rfl⟩
theorem witness_UnresolvedStatusPollsOn : (bench [] []).Legal ∧ (bench [] []).env.transport = none := ⟨bench_legal _ _, rfl⟩
theorem witness_StartTokenBringsBlock : (bench [] []).Legal ∧ (bench [] []).env.transport = none ∧
    (bench [] []).Lends .store 0x1000 512 := ⟨bench_legal _ _, rfl, bench_lends _ _ _⟩
theorem witness_BlockIsSent : (bench [] []).Legal ∧ (bench [] []).Lends .load 0x1000 512 ∧ (bench [] []).Fair ∧
    (bench [] []).env.transport = none ∧ (List.replicate 515 (0x00 : Byte)).length = 515 ∧ dataAccepted 0x05 = true ∧
    (∀ a, (bench a []).env.answers = a) ∧ ((Instr.startBlockTx 0x1000 = .startBlockTx 0x1000 ∧ (0xFE : Byte) = 0xFE) ∧
      Instr.startMultiTx 0x1000 = .startMultiTx 0x1000 ∧ (0xFC : Byte) = 0xFC) :=
  ⟨bench_legal _ _, bench_lends _ _ _, bench_fair _ _, rfl, List.length_replicate, rfl, fun _ => rfl, ⟨rfl, rfl⟩, rfl, rfl⟩
theorem witness_StopTokenSequence : (bench [] []).Legal ∧ (bench [] []).Fair := ⟨bench_legal _ _, bench_fair _ _⟩
theorem witness_DataResponseAccepted : (bench [] []).Legal ∧ (bench [] []).env.transport = none ∧ dataAccepted 0xF5 = true ∧
    dataAccepted 0x0E = false := ⟨bench_legal _ _, rfl, rfl, rfl⟩

end Sys2Proof.Tests
end

section
/-! What every instruction checks before it runs, and what none of them changes (00_scope.md R9, R12, R34). -/

namespace Sys2Proof.Machine

section
variable {s t u : State} {i : Instr}

/-- Every instruction, request or call, begins with the check of `seq` and the parameters. -/
theorem exec_enters (i : Instr) (s : State) : ∃ m : M Unit, exec i s = run (enter >>= fun _ => m) s := by
  cases i <;> exact ⟨_, rfl⟩

/-- What stops the entry check stops the instruction. -/
theorem exec_of_enter_refuses {r : Refusal} (h : enter s = .error (.refuse r) s) : exec i s = .refused r := by
  obtain ⟨m, hm⟩ := exec_enters i s
  simp [hm, run, bind, EStateM.bind, h]

/-- The bounds of R12, negated. -/
theorem params_ok_eq_false {p : Params} (h : p.nResp = 0 ∨ p.powerupBytes < 100) : p.ok = false := by
  simp only [Params.ok, Bool.and_eq_false_iff, decide_eq_false_iff_not]
  omega

theorem enter_of_badParameter (hs : s.seq.unused = false) (hp : s.cfg.ok = false) :
    enter s = .error (.refuse .badParameter) s := by
  simp [enter, hs, hp]

/-- What every instruction keeps, requests and calls alike: its setup, and the events that happened. -/
structure KeepsSetup (s t : State) : Prop where
  cfg : t.cfg = s.cfg
  regions : t.regions = s.regions
  inbox : t.inbox = s.inbox
  wire : s.wire <+: t.wire

theorem KeepsSetup.refl (s : State) : KeepsSetup s s := ⟨rfl, rfl, rfl, List.prefix_rfl⟩

theorem CallStep.keepsSetup (h : CallStep s t) : KeepsSetup s t :=
  ⟨by rw [h.same], by rw [h.same], by rw [h.same], h.wire⟩

theorem Initialized.keepsSetup (h : Initialized s t) : KeepsSetup s t where
  cfg := by rw [h.same]
  regions := by rw [h.same]
  inbox := by rw [h.same]
  wire := by
    obtain ⟨_, _, -, -, hw⟩ := h.wire
    exact ⟨_, hw.symm⟩

theorem Transferred.keepsSetup {R : Memory → Memory → Prop} (h : Transferred R s t) : KeepsSetup s t where
  cfg := by rw [h.same]
  regions := by rw [h.same]
  inbox := by rw [h.same]
  wire := by
    obtain ⟨_, hw, -⟩ := h.wire
    exact ⟨_, hw.symm⟩

/-- Arbitration and delivery touch none of it, so a request keeps what its service keeps (44_facade.md R220). -/
theorem KeepsSetup.concluded {op : Byte} {q : ReqArgs} (h : KeepsSetup (s.accepted op q) u) (r : Byte) :
    KeepsSetup s (u.concluded r) := ⟨h.cfg, h.regions, h.inbox, h.wire⟩

/-- A transfer sends nothing, or is served whole. -/
theorem TransferStep.keepsSetup {op : Byte} {q : ReqArgs} {acc : Access} {m : M Bool}
    {R : Memory → Memory → Prop} (h : TransferStep op q acc m R s t) : KeepsSetup s t := by
  obtain ⟨r, -, rfl⟩ | ⟨-, -, -, r, u, -, -, hu, rfl⟩ := h
  · exact (KeepsSetup.refl _).concluded r
  · exact hu.keepsSetup.concluded r

/-- No instruction changes the setup or takes back an event. -/
theorem exec_keepsSetup (h : exec i s = .next t) : KeepsSetup s t := by
  rcases request_cases i with hi | ⟨q, rfl⟩ | ⟨q, rfl⟩ | ⟨q, rfl⟩ | ⟨q, rfl⟩ | ⟨q, rfl⟩
  · exact (exec_call hi h).keepsSetup
  · obtain ⟨-, -, rfl⟩ := exec_status_next h
    exact (KeepsSetup.refl _).concluded _
  · obtain ⟨-, -, rfl⟩ := exec_ioctl_next h
    exact (KeepsSetup.refl _).concluded _
  · obtain ⟨-, -, ⟨-, rfl⟩ | ⟨-, -, u, -, hu, rfl⟩⟩ := exec_init_next h
    · exact (KeepsSetup.refl _).concluded _
    · exact hu.keepsSetup.concluded _
  · exact (exec_read_next h).2.2.keepsSetup
  · exact (exec_write_next h).2.2.keepsSetup

theorem CallStep.busy (h : CallStep s t) : t.busy = s.busy := by rw [h.same]
theorem CallStep.seq (h : CallStep s t) : t.seq = s.seq := by rw [h.same]
theorem CallStep.delivered (h : CallStep s t) : t.delivered = s.delivered := by rw [h.same]

end

/-- Settles O20: what any instruction keeps includes the parameters, the ranges and the inbox. -/
theorem setupStays : Obligations.SetupStays := fun _ _ _ h =>
  have hk := exec_keepsSetup h
  ⟨hk.cfg, hk.regions, hk.inbox⟩

/-- Settles O21: the trace is kept by every instruction; the rest is the frame of a procedure called by itself. -/
theorem callsAreNoRequests : Obligations.CallsAreNoRequests := by
  intro i s t h
  refine ⟨(exec_keepsSetup h).wire, fun hi => ?_⟩
  have hc := exec_call hi h
  exact ⟨hc.busy, hc.seq, hc.delivered, hc.op, hc.unit, hc.buf, hc.sector, hc.count, hc.result⟩

/-- Settles O10: every instruction enters first, and the entry refuses these parameters. -/
theorem badParameterRefused : Obligations.BadParameterRefused := fun _ _ hs hp =>
  exec_of_enter_refuses (enter_of_badParameter hs (params_ok_eq_false hp))

end Sys2Proof.Machine
end

section
/-! Session, sequencer, speed and memory through an instruction and a step (10_state.md R21 to R24, R26, R36), and
why no request meets an internal fault (60_exceptions.md R245). -/

namespace Sys2Proof.Machine

section
variable {s t u : State} {i : Instr} {op : Byte} {q : ReqArgs} {R R' : Memory → Memory → Prop}

/-! The entry check. -/

/-- A fault of the entry check is the fault of the instruction. -/
theorem exec_of_enter_faults {f : Fault} (h : enter s = .error (.fault f) s) : exec i s = .fault f := by
  obtain ⟨m, hm⟩ := exec_enters i s
  simp [hm, run, bind, EStateM.bind, h]

theorem enter_of_unusedSeq (h : s.seq.unused = true) : enter s = .error (.fault (.internalFault .seqUnused)) s := by
  simp [enter, h]

/-- R21's table leaves 14 and 15. -/
theorem Seq.unused_iff {x : Seq} : x.unused = true ↔ x = .unused14 ∨ x = .unused15 := by
  cases x <;> decide

/-! Procedures called by themselves. -/

theorem CallStep.version (h : CallStep s t) : t.version = s.version := by rw [h.same]
theorem CallStep.status (h : CallStep s t) : t.status = s.status := by rw [h.same]

/-- What a call may do to memory: only the row that receives a data block stores (20_memory.md R50, R64). -/
def CallStores : Instr → Memory → Memory → Prop
  | .startBlockRx base => StoresOnly base Config.blockBytes
  | _ => fun a b => b = a

theorem CallStores.wf {a b : Memory} (h : CallStores i a b) (ha : a.wf = true) : b.wf = true := by
  cases i
  case startBlockRx => exact (h ha).1
  all_goals exact (show b = a from h) ▸ ha

/-- What a call does that makes no event but exchanges, with memory changing as `R` says. -/
def CallBlock (R : Memory → Memory → Prop) (s t : State) : Prop :=
  ∃ u r, BlockStep Regs.anyRestored R s u ∧ t = u.returned r

theorem callByte_block {m : M Byte} {g : Regs → Regs → Regs} (hk : Keeps (BlockStep g R) m)
    (h : run (callByte m) s = .next t) : CallBlock R s t := by
  obtain ⟨-, b, u, hm, rfl⟩ := callByte_next h
  exact ⟨u, _, (hk _ _ _ hm).weaken any_of fun _ _ h => h, rfl⟩

theorem callBool_block {m : M Bool} {g : Regs → Regs → Regs} (hk : Keeps (BlockStep g R) m)
    (h : run (callBool m) s = .next t) : CallBlock R s t := by
  obtain ⟨-, b, u, hm, rfl⟩ := callBool_next h
  exact ⟨u, _, (hk _ _ _ hm).weaken any_of fun _ _ h => h, rfl⟩

theorem callUnit_block {m : M Unit} {g : Regs → Regs → Regs} (hk : Keeps (BlockStep g R) m)
    (h : run (callUnit m) s = .next t) : CallBlock R s t := by
  obtain ⟨-, u, hm, rfl⟩ := callUnit_next h
  exact ⟨u, _, (hk _ _ _ hm).weaken any_of fun _ _ h => h, rfl⟩

/-- Claiming the buffer of a block row has no effect. -/
theorem keeps_claimBuffer (acc : Access) (base n : Nat) :
    Keeps (CardStep Regs.blockRestored) (claimBuffer acc base n) := by
  intro s _ u h
  obtain ⟨-, rfl⟩ := claimBuffer_next h
  exact CardStep.refl restores_block _

/-- A row no host can submit is one of the three events of the card port that are no exchange, or exchanges only. -/
theorem exec_call_cases (hi : requestOf i = none) (h : exec i s = .next t) :
    (i = .select ∧ t = s.claimed.returned none) ∨
    (i = .deselect ∧ t = { s with
      cs := .deselected
      wire := s.wire ++ [.deselect]
      ret := none }) ∨
    (∃ v, i = .setSpeed v ∧ t = { s with
      speed := v
      wire := s.wire ++ [.setSpeed v]
      ret := none }) ∨
    CallBlock (CallStores i) s t := by
  have hg := restores_framer
  have hb := restores_block
  have hans (b : Byte) {m : M Bool} (hk : Keeps (CardStep Regs.blockRestored) m) :
      Keeps (BlockStep Regs.blockRestored fun a b => b = a) (answerNext b >>= fun _ => m) :=
    (keeps_bind hb (keeps_answerNext hb b) fun _ => hk).block memRel_eq
  have hclaim {acc : Access} {base : Nat} {m : M Bool} (hk : Keeps (CardStep Regs.blockRestored) m) :
      Keeps (BlockStep Regs.blockRestored fun a b => b = a) (claimBuffer acc base Config.blockBytes >>= fun _ => m) :=
    (keeps_bind hb (keeps_claimBuffer acc base _) fun _ => hk).block memRel_eq
  cases i
  case status | init | read | write | ioctl => simp [requestOf] at hi
  case select =>
    obtain ⟨-, u, hm, rfl⟩ := callUnit_next h
    rw [(select_next hm).2]
    exact .inl ⟨rfl, rfl⟩
  case deselect =>
    obtain ⟨-, u, hm, rfl⟩ := callUnit_next h
    cases hm
    exact .inr (.inl ⟨rfl, rfl⟩)
  case setSpeed v =>
    obtain ⟨-, u, hm, rfl⟩ := callUnit_next h
    cases hm
    exact .inr (.inr (.inl ⟨v, rfl, rfl⟩))
  all_goals refine .inr (.inr (.inr ?_))
  case r1Valid | r1Unresolved => exact callByte_block ((keeps_pollAnswered _).block memRel_eq) h
  case idleFiller | xchg => exact callByte_block ((keeps_xchg hg _).block memRel_eq) h
  case rx => exact callByte_block ((keeps_rx hg).block memRel_eq) h
  case waitReady => exact callBool_block (keeps_waitReady.block memRel_eq) h
  case cardReady => exact callBool_block (hans _ (keeps_waitReady.weaken wait_block)) h
  case dataRespAccepted => exact callBool_block (hans _ keeps_readDataResponse) h
  case startBlockRx base =>
    have hR := memRel_storesOnly base Config.blockBytes
    exact callBool_block (block_bind hb hR ((keeps_claimBuffer _ _ _).block hR) fun _ => block_startBlockRx base) h
  case startBlockTx | startMultiTx => exact callBool_block (hclaim (keeps_writeBlock _ _ _)) h
  case stopTran => exact callUnit_block (keeps_stopTran.block memRel_eq) h
  all_goals
    rw [exec_command rfl] at h
    exact callByte_block ((keeps_command _ _ _).block memRel_eq) h

theorem CallBlock.speed (h : CallBlock R s t) : t.speed = s.speed := by
  obtain ⟨u, r, hu, rfl⟩ := h
  rw [hu.same]
  rfl

theorem CallBlock.mem (h : CallBlock R s t) : R s.mem t.mem := by
  obtain ⟨u, r, hu, rfl⟩ := h
  exact hu.mem

/-- A call writes memory as its row may. -/
theorem exec_call_mem (hi : requestOf i = none) (h : exec i s = .next t) : CallStores i s.mem t.mem := by
  rcases exec_call_cases hi h with ⟨rfl, rfl⟩ | ⟨rfl, rfl⟩ | ⟨v, rfl, rfl⟩ | hc
  · rfl
  · rfl
  · rfl
  · exact hc.mem

/-- A call other than the speed row leaves the speed (40_transport.md R105). -/
theorem exec_call_speed (hi : requestOf i = none) (hv : ∀ v, i ≠ .setSpeed v) (h : exec i s = .next t) :
    t.speed = s.speed := by
  rcases exec_call_cases hi h with ⟨rfl, rfl⟩ | ⟨rfl, rfl⟩ | ⟨v, rfl, -⟩ | hc
  · rfl
  · rfl
  · exact absurd rfl (hv v)
  · exact hc.speed

/-! All instructions. -/

theorem Transferred.version (h : Transferred R s t) : t.version = s.version := by rw [h.same]
theorem Transferred.status (h : Transferred R s t) : t.status = s.status := by rw [h.same]
theorem Transferred.speed (h : Transferred R s t) : t.speed = s.speed := by rw [h.same]
theorem Initialized.mem (h : Initialized s t) : t.mem = s.mem := by rw [h.same]

theorem Transferred.weaken (hR : ∀ a b, R a b → R' a b) (h : Transferred R s t) : Transferred R' s t :=
  ⟨h.same, h.regs, hR _ _ h.mem, h.transport, h.ticks, h.wire⟩

/-- A request answered before it claims the bus: by its session word, its fixed result or a precondition. -/
def AnsweredAtOnce (s t : State) : Prop := ∃ op q r, t = (s.accepted op q).concluded r

/-- A transfer served whole; a write stores nothing, which is one way to store in its buffer only. -/
def ServedTransfer (s t : State) : Prop :=
  ∃ op q r u, Transferred (StoresOnly q.buf (requestBytes q.count)) (s.accepted op q) u ∧ t = u.concluded r

/-- A negotiation served whole, from a session that was not usable. -/
def ServedInit (s t : State) : Prop :=
  s.status ≠ .ready ∧ ∃ q r u, Initialized (s.accepted 1 q) u ∧ t = u.concluded r

theorem TransferStep.served {acc : Access} {m : M Bool}
    (hR : ∀ a b, R a b → StoresOnly q.buf (requestBytes q.count) a b) (h : TransferStep op q acc m R s t) :
    AnsweredAtOnce s t ∨ ServedTransfer s t := by
  obtain ⟨r, -, rfl⟩ | ⟨-, -, -, r, u, -, -, hu, rfl⟩ := h
  · exact .inl ⟨op, q, r, rfl⟩
  · exact .inr ⟨op, q, r, u, hu.weaken hR, rfl⟩

/-- What an instruction that ends has done: a call, or a request of one of three shapes. -/
theorem exec_cases (h : exec i s = .next t) :
    requestOf i = none ∨ AnsweredAtOnce s t ∨ ServedTransfer s t ∨ (∃ q, i = .init q) ∧ ServedInit s t := by
  rcases request_cases i with hi | ⟨q, rfl⟩ | ⟨q, rfl⟩ | ⟨q, rfl⟩ | ⟨q, rfl⟩ | ⟨q, rfl⟩
  · exact .inl hi
  · exact .inr (.inl ⟨0, q, _, (exec_status_next h).2.2⟩)
  · exact .inr (.inl ⟨4, q, _, (exec_ioctl_next h).2.2⟩)
  · obtain ⟨-, -, ⟨-, ht⟩ | ⟨hn, -, u, -, hu, ht⟩⟩ := exec_init_next h
    · exact .inr (.inl ⟨1, q, _, ht⟩)
    · exact .inr (.inr (.inr ⟨⟨q, rfl⟩, hn, q, _, u, hu, ht⟩))
  · exact .inr (((exec_read_next h).2.2.served fun _ _ h => h).imp_right .inl)
  · have hR : ∀ a b : Memory, b = a → StoresOnly q.buf (requestBytes q.count) a b := by
      rintro _ b rfl
      exact (memRel_storesOnly _ _).refl b
    exact .inr (((exec_write_next h).2.2.served hR).imp_right .inl)

/-- The session stays, or an initialization of a session that was not usable commits a family (R24, 42_negotiation.md
R171). -/
theorem exec_session (h : exec i s = .next t) :
    (t.version = s.version ∧ t.status = s.status) ∨
    (∃ q, i = .init q) ∧ s.status ≠ .ready ∧ t.status = .ready ∧ t.version ≠ .none := by
  obtain hi | ⟨op, q, r, rfl⟩ | ⟨op, q, r, u, hu, rfl⟩ | ⟨hq, hn, q, r, u, hu, rfl⟩ := exec_cases h
  · exact .inl ⟨(exec_call hi h).version, (exec_call hi h).status⟩
  · exact .inl ⟨rfl, rfl⟩
  · exact .inl ⟨hu.version, hu.status⟩
  · exact hu.session.imp_right fun hc => ⟨hq, hn, hc⟩

/-- A call leaves the sequencer, a request ends in `IDLE` (44_facade.md R220). -/
theorem exec_seq (h : exec i s = .next t) : t.seq = s.seq ∨ t.seq = .idle := by
  obtain hi | ⟨op, q, r, rfl⟩ | ⟨op, q, r, u, -, rfl⟩ | ⟨-, -, q, r, u, -, rfl⟩ := exec_cases h
  · exact .inl (exec_call hi h).seq
  · exact .inr rfl
  · exact .inr rfl
  · exact .inr rfl

theorem exec_speed (hi : ∀ q, i ≠ .init q) (hv : ∀ v, i ≠ .setSpeed v) (h : exec i s = .next t) :
    t.speed = s.speed := by
  obtain hr | ⟨op, q, r, rfl⟩ | ⟨op, q, r, u, hu, rfl⟩ | ⟨⟨q, hq⟩, -⟩ := exec_cases h
  · exact exec_call_speed hr hv h
  · rfl
  · exact hu.speed
  · exact absurd hq (hi q)

/-- Memory stays in its canonical form (log 10). -/
theorem exec_mem_wf (h : exec i s = .next t) (hm : s.mem.wf = true) : t.mem.wf = true := by
  obtain hi | ⟨op, q, r, rfl⟩ | ⟨op, q, r, u, hu, rfl⟩ | ⟨-, -, q, r, u, hu, rfl⟩ := exec_cases h
  · exact (exec_call_mem hi h).wf hm
  · exact hm
  · exact (hu.mem hm).1
  · exact (congrArg Memory.wf hu.mem).trans hm

/-! The invariant. -/

theorem Regs.inWidth_empty (p : Params) : Regs.empty.InWidth p := by
  constructor <;> exact nofun

/-- The invariant does not look at what the host does next. -/
theorem State.Inv.withInbox (h : s.Inv) (rest : List HostAct) : State.Inv { s with inbox := rest } :=
  ⟨h.mem, h.session, h.seq, h.regs⟩

/-- An instruction keeps the invariant, part by part. -/
theorem exec_inv (hw : i.wellFormed s.cfg.addrWidth = true) (h : exec i s = .next t) (hs : s.Inv) : t.Inv where
  mem := exec_mem_wf h hs.mem
  session := by
    obtain ⟨hv, hst⟩ | ⟨-, -, hst, hv⟩ := exec_session h
    · rw [hv, hst]
      exact hs.session
    · simp [hst, hv]
  seq := by
    obtain hq | hq := exec_seq h <;> rw [hq]
    · exact hs.seq
    · rfl
  regs := (exec_keepsSetup h).cfg ▸ exec_narrow hw h hs.regs

/-! No request meets an internal fault. -/

theorem ends_sessionWord : Ends False sessionWord s fun r t => r = statusWord s.status ∧ t = s := by
  simp [sessionWord]

theorem ends_resultError : Ends False (pure resultError) s fun r t => r = resultError ∧ t = s := ⟨rfl, rfl⟩

theorem initSession_no_internalFault (hp : s.cfg.ok = true) (hc : s.cs = .deselected) (c : InternalCause) (u : State) :
    initSession s ≠ .error (.fault (.internalFault c)) u := by
  by_cases hr : s.status = .ready
  · rw [initSession_ready hr]
    nofun
  · exact (ends_initSession (F := False) False.elim hp hc hr).no_internalFault c u

end

/-- Settles O15: the host's own acts touch memory only, by a write that keeps its form, and an instruction keeps each
part of the invariant. -/
theorem stepKeepsInv : Obligations.StepKeepsInv := by
  intro s t hs h
  obtain rfl | ⟨a, b, rest, rfl⟩ | ⟨rest, rfl⟩ | ⟨i, rest, hw, h⟩ := step_cases h
  · exact hs
  · exact ⟨Memory.wf_write a b hs.mem, hs.session, hs.seq, hs.regs⟩
  · exact hs.withInbox rest
  · exact exec_inv (s := { s with inbox := rest }) hw h (hs.withInbox rest)

/-- Settles O16: an instruction writes the session only where it was not `Ready`. -/
theorem readySessionStays : Obligations.ReadySessionStays := by
  intro s t h hr
  obtain rfl | ⟨a, b, rest, rfl⟩ | ⟨rest, rfl⟩ | ⟨i, rest, -, h⟩ := step_cases h
  · exact ⟨hr, rfl⟩
  · exact ⟨hr, rfl⟩
  · exact ⟨hr, rfl⟩
  · obtain ⟨hv, hst⟩ | ⟨-, hn, -⟩ := exec_session h
    · exact ⟨hst.trans hr, hv⟩
    · exact absurd hr hn

/-- Settles O17: where the session changed, the instruction was an initialization. -/
theorem sessionOnlyByInit : Obligations.SessionOnlyByInit := by
  intro i s t h hi
  obtain hk | ⟨⟨q, hq⟩, -⟩ := exec_session h
  · exact hk
  · exact absurd hq (hi q)

/-- Settles O18: every other call and every other request leaves the speed. -/
theorem speedOnlyBySpeedEvents : Obligations.SpeedOnlyBySpeedEvents := fun _ _ _ h hi hv => exec_speed hi hv h

/-- Settles O25: the entry check passes or refuses, and then it rests on the service: `status` and `ioctl` read the
session at most, and a negotiation or a claimed transfer begun with the bus released ends or hangs. -/
theorem requestsMeetNoInternalFault : Obligations.RequestsMeetNoInternalFault := by
  intro i f s c hf hs hc
  rcases request_cases i with hi | ⟨q, rfl⟩ | ⟨q, rfl⟩ | ⟨q, rfl⟩ | ⟨q, rfl⟩ | ⟨q, rfl⟩
  · simp [hi] at hf
  · exact request_no_internalFault hs (fun _ => ends_sessionWord.no_internalFault) c
  · exact request_no_internalFault hs (fun _ => ends_resultError.no_internalFault) c
  · exact request_no_internalFault hs (fun hp => initSession_no_internalFault hp hc) c
  · exact request_no_internalFault hs (fun hp =>
      transfer_no_internalFault (ends_claimedRead (F := False) False.elim hp hc)) c
  · exact request_no_internalFault hs (fun hp =>
      transfer_no_internalFault (ends_claimedWrite (F := False) False.elim hp hc)) c

/-- Settles O11: every instruction enters first, and the entry faults on these values. -/
theorem unusedSeqFaults : Obligations.UnusedSeqFaults := fun _ _ h =>
  exec_of_enter_faults (enter_of_unusedSeq (Seq.unused_iff.mpr h))

/-- Settles O13: each is the value R36 gives, the speed being the free one. -/
theorem resetValues : Obligations.ResetValues := ⟨rfl, rfl, rfl, rfl, rfl, rfl, rfl⟩

/-- Settles O14: memory and registers are empty at reset. -/
theorem resetMeetsInv : Obligations.ResetMeetsInv where
  mem := rfl
  session := ⟨fun _ => rfl, fun _ => rfl⟩
  seq := rfl
  regs := Regs.inWidth_empty _

end Sys2Proof.Machine
end

section
/-! Host memory through a list of stores and through an instruction (20_memory.md R50, R56, R64). -/

namespace Sys2Proof.Machine

namespace Memory
variable {m : Memory} {b : Byte}

theorem wf_store (a : Nat) (bs : List Byte) (hm : m.wf = true) : (m.store a bs).wf = true := by
  induction bs generalizing m a with
  | nil => exact hm
  | cons b bs ih => exact ih (a + 1) (wf_write a b hm)

/-- A byte outside the stored range reads as before. -/
theorem read_store_of_outside {a x : Nat} (bs : List Byte) (hm : m.wf = true)
    (hx : ¬(a ≤ x ∧ x < a + bs.length)) : (m.store a bs).read x = m.read x := by
  induction bs generalizing m a with
  | nil => rfl
  | cons b bs ih =>
    rw [List.length_cons] at hx
    calc ((m.write a b).store (a + 1) bs).read x
      _ = (m.write a b).read x := ih (wf_write a b hm) (by omega)
      _ = m.read x := read_write_of_ne (by omega) b hm

/-- The first byte is written once and lies below every later one; the rest is the rest stored one address on. -/
theorem read_store_of_getElem? {a k : Nat} {bs : List Byte} (hm : m.wf = true) (hb : bs[k]? = some b) :
    (m.store a bs).read (a + k) = b := by
  induction bs generalizing m a k with
  | nil => simp at hb
  | cons c bs ih =>
    cases k with
    | zero =>
      obtain rfl : c = b := by simpa using hb
      calc ((m.write a c).store (a + 1) bs).read a
        _ = (m.write a c).read a := read_store_of_outside bs (wf_write a c hm) (by omega)
        _ = c := by simp [read_write c hm]
    | succ k =>
      have hk : a + (k + 1) = a + 1 + k := by omega
      rw [hk]
      exact ih (wf_write a c hm) (by simpa using hb)

end Memory

section
variable {s t : State} {i : Instr} {op : Byte} {q : ReqArgs} {acc : Access} {m : M Bool} {R : Memory → Memory → Prop}

theorem CallStores.eq {a b : Memory} (hi : ∀ base, i ≠ .startBlockRx base) (h : CallStores i a b) : b = a := by
  cases i
  case startBlockRx base => exact absurd rfl (hi base)
  all_goals exact h

/-- A transfer answered at a precondition leaves memory, one served whole changes it as its service may. -/
theorem TransferStep.mem (hR : MemRel R) (h : TransferStep op q acc m R s t) : R s.mem t.mem := by
  obtain ⟨r, -, rfl⟩ | ⟨-, -, -, r, u, -, -, hu, rfl⟩ := h
  · exact hR.refl _
  · exact hu.mem

end

/-- Settles O19: a call stores only in the row that receives a block, and of the requests only a read is served by what
stores. -/
theorem memoryOnlyByReads : Obligations.MemoryOnlyByReads := by
  intro i s t h hread hblock
  rcases request_cases i with hi | ⟨q, rfl⟩ | ⟨q, rfl⟩ | ⟨q, rfl⟩ | ⟨q, rfl⟩ | ⟨q, rfl⟩
  · exact (exec_call_mem hi h).eq hblock
  · obtain ⟨-, -, rfl⟩ := exec_status_next h
    rfl
  · obtain ⟨-, -, rfl⟩ := exec_ioctl_next h
    rfl
  · obtain ⟨-, -, ⟨-, rfl⟩ | ⟨-, -, u, -, hu, rfl⟩⟩ := exec_init_next h
    · rfl
    · exact hu.mem
  · exact absurd rfl (hread q)
  · obtain ⟨-, -, hw⟩ := exec_write_next h
    have hmem := hw.mem memRel_eq
    exact hmem

/-- Settles O26: each part by induction on the bytes stored. -/
theorem storedBytesReadBack : Obligations.StoredBytesReadBack := fun _ a bs hm =>
  ⟨Memory.wf_store a bs hm, fun _ _ hb => Memory.read_store_of_getElem? hm hb,
    fun _ hx => Memory.read_store_of_outside bs hm hx⟩

end Sys2Proof.Machine
end

section
/-! Words and instructions (30_encoding.md R70 to R86): the decoder and the encoder are inverse to each other. -/

namespace Sys2Proof

/-! From an instruction to its word and back. -/

/-- The six bytes of a frame are read back as its byte 0, its argument and its CRC byte (R70). -/
theorem sixBytes_frameBytes (idx : BitVec 6) (arg : Word) (crc : Byte) (f : Byte → Word → Byte → Except Reject Instr) :
    sixBytes (frameBytes idx arg crc) f = f (commandByte idx) arg crc := by
  show f _ (be32 (wordByte arg 3) (wordByte arg 2) (wordByte arg 1) (wordByte arg 0)) _ = _
  rw [be32_wordByte]

theorem decode_frameCode (idx : BitVec 6) (arg : Word) :
    decode (frameCode idx arg) = decodeFrame frameRows (commandByte idx) arg (crcByte idx) :=
  sixBytes_frameBytes idx arg (crcByte idx) (decodeFrame frameRows)

theorem decodeResponse_valid (flags : BitVec 7) : decodeResponse (0b0#1 ++ flags : BitVec (1 + 7)) = .r1Valid flags := by
  obtain ⟨hflags, htop⟩ := status_of_flags flags
  rw [decodeResponse, htop, hflags]
  rfl

theorem decodeResponse_unresolved (rest : BitVec 7) :
    decodeResponse (0b1#1 ++ rest : BitVec (1 + 7)) = .r1Unresolved rest := by
  obtain ⟨hrest, htop⟩ := unresolved_of_rest rest
  rw [decodeResponse, htop, hrest]
  rfl

theorem decodeDataResponse_accepted (ignored : BitVec 4) :
    decodeDataResponse (ignored ++ 0b0101#4 : BitVec (4 + 4)) = .ok (.dataRespAccepted ignored) := by
  obtain ⟨hcode, hignored⟩ := response_of_ignored ignored
  rw [decodeDataResponse, hcode, hignored]
  rfl

/-- Settles O1: a frame with an operand gives its argument back, a response byte its fields; every other word holds its
operands beside its bits. -/
theorem decodeOfEncode : Obligations.DecodeOfEncode := by
  intro i
  cases i
  case cmd17 sector | cmd18 sector | cmd24 sector | cmd25 sector => exact decode_frameCode _ sector
  case r1Valid flags => exact congrArg Except.ok (decodeResponse_valid flags)
  case r1Unresolved rest => exact congrArg Except.ok (decodeResponse_unresolved rest)
  case dataRespAccepted ignored => exact decodeDataResponse_accepted ignored
  case cmd8 dest | cmd58 dest => cases dest <;> rfl
  case setSpeed v => cases v <;> rfl
  all_goals rfl

/-! From a word to its instruction and back. -/

/-- The word of the instruction has these bits in this place. -/
def Instr.SpelledBy (slot : Slot) (bits : List Byte) (i : Instr) : Prop :=
  (encode i).slot = slot ∧ (encode i).bits = bits

/-- The instruction of the row is spelled by the row's frame, at every argument that fits the row (R72). -/
def FrameRow.Spells (slot : Slot) (r : FrameRow) : Prop :=
  ∀ arg, r.arg.all (arg == ·) = true → (r.instr arg).SpelledBy slot (r.cmd :: bigEndian arg ++ [r.crc])

theorem FrameRow.Spells.fixed {slot : Slot} {cmd crc : Byte} {a : Word} {f : Word → Instr}
    (h : (f a).SpelledBy slot (cmd :: bigEndian a ++ [crc])) : FrameRow.Spells slot ⟨cmd, some a, crc, f⟩ := by
  intro arg harg
  obtain rfl : arg = a := by simpa using harg
  exact h

theorem FrameRow.Spells.operand {slot : Slot} {cmd crc : Byte} {f : Word → Instr}
    (h : ∀ arg, (f arg).SpelledBy slot (cmd :: bigEndian arg ++ [crc])) : FrameRow.Spells slot ⟨cmd, none, crc, f⟩ :=
  fun arg _ => h arg

theorem frameRows_spell : ∀ r ∈ frameRows, r.Spells .frame := by
  simp only [frameRows, List.forall_mem_cons]
  exact ⟨.fixed ⟨rfl, rfl⟩, .fixed ⟨rfl, rfl⟩, .fixed ⟨rfl, rfl⟩, .fixed ⟨rfl, rfl⟩, .fixed ⟨rfl, rfl⟩,
    .operand fun _ => ⟨rfl, rfl⟩, .operand fun _ => ⟨rfl, rfl⟩, .operand fun _ => ⟨rfl, rfl⟩,
    .operand fun _ => ⟨rfl, rfl⟩, .fixed ⟨rfl, rfl⟩, .fixed ⟨rfl, rfl⟩, .fixed ⟨rfl, rfl⟩, .fixed ⟨rfl, rfl⟩,
    List.forall_mem_nil _⟩

theorem frameRowsNoDest_spell : ∀ r ∈ frameRowsNoDest, r.Spells .frameNoDest := by
  simp only [frameRowsNoDest, List.forall_mem_cons]
  exact ⟨.fixed ⟨rfl, rfl⟩, .fixed ⟨rfl, rfl⟩, List.forall_mem_nil _⟩

section
variable {bits : List Byte} {slot : Slot} {b : Byte} {i j : Instr}

/-- A frame that decodes is the frame of the row it decodes by. -/
theorem spelledBy_of_sixBytes {rows : List FrameRow} (hrows : ∀ r ∈ rows, r.Spells slot)
    (h : sixBytes bits (decodeFrame rows) = .ok i) : i.SpelledBy slot bits := by
  obtain ⟨b0, b1, b2, b3, b4, b5, rfl, h⟩ := sixBytes_ok h
  obtain ⟨r, hr, rfl, rfl, harg, rfl⟩ := decodeFrame_ok h
  simpa [bigEndian_be32] using hrows r hr _ harg

theorem spelledBy_of_oneByte {f : Byte → Except Reject Instr} (hf : ∀ b, f b = .ok i → i.SpelledBy slot [b])
    (h : oneByte bits f = .ok i) : i.SpelledBy slot bits := by
  obtain ⟨b, rfl, h⟩ := oneByte_ok h
  exact hf b h

theorem spelledBy_of_theByte {why : Reject} (hj : j.SpelledBy slot [b]) (h : theByte bits b why j = .ok i) :
    i.SpelledBy slot bits := by
  obtain ⟨rfl, rfl⟩ := theByte_ok h
  exact hj

theorem spelledBy_of_noByte (hj : j.SpelledBy slot []) (h : noByte bits j = .ok i) : i.SpelledBy slot bits := by
  obtain ⟨rfl, rfl⟩ := noByte_ok h
  exact hj

/-- The last row of a place that holds one of a few bytes. -/
theorem spelledBy_of_rowIf {c : Byte} {why : Reject} (hj : j.SpelledBy slot [c]) (h : rowIf (b == c) why j = .ok i) :
    i.SpelledBy slot [b] := by
  obtain ⟨hb, rfl⟩ := rowIf_ok h
  rwa [beq_iff_eq.mp hb]

/-- An earlier row of such a place. -/
theorem spelledBy_of_ite {c : Byte} {e : Except Reject Instr} (hj : j.SpelledBy slot [c])
    (he : e = .ok i → i.SpelledBy slot [b]) (h : (if b = c then .ok j else e) = .ok i) : i.SpelledBy slot [b] := by
  split at h
  · rename_i hb
    cases h
    rwa [hb]
  · exact he h

theorem spelledBy_of_tokenTx {base : Nat} : decodeTokenTx b base = .ok i → i.SpelledBy .tokenTx [b] :=
  spelledBy_of_ite ⟨rfl, rfl⟩ (spelledBy_of_ite ⟨rfl, rfl⟩ (spelledBy_of_rowIf ⟨rfl, rfl⟩))

theorem spelledBy_of_host {q : ReqArgs} : decodeHost b q = .ok i → i.SpelledBy .host [b] :=
  spelledBy_of_ite ⟨rfl, rfl⟩ (spelledBy_of_ite ⟨rfl, rfl⟩ (spelledBy_of_ite ⟨rfl, rfl⟩
    (spelledBy_of_ite ⟨rfl, rfl⟩ (spelledBy_of_rowIf ⟨rfl, rfl⟩))))

theorem spelledBy_of_speed : decodeSpeed b = .ok i → i.SpelledBy .setSpeed [b] :=
  spelledBy_of_ite ⟨rfl, rfl⟩ (spelledBy_of_rowIf ⟨rfl, rfl⟩)

theorem spelledBy_of_dataResponse (h : decodeDataResponse b = .ok i) : i.SpelledBy .dataResponse [b] := by
  obtain ⟨hcode, rfl⟩ := rowIf_ok h
  exact ⟨rfl, congrArg ([·]) (ignored_of_response b (beq_iff_eq.mp hcode))⟩

theorem spelledBy_decodeResponse (b : Byte) : (decodeResponse b).SpelledBy .response [b] := by
  unfold decodeResponse
  split
  · rename_i htop
    exact ⟨rfl, congrArg ([·]) (rest_of_unresolved b htop)⟩
  · rename_i htop
    exact ⟨rfl, congrArg ([·]) (flags_of_status b (Bool.eq_false_of_not_eq_true htop))⟩

end

/-- Settles O2: in each place, the row a word decodes by has the word's bits. -/
theorem encodeOfDecode : Obligations.EncodeOfDecode := by
  rintro ⟨slot, bits, q⟩ i h
  cases slot
  case frame => exact spelledBy_of_sixBytes frameRows_spell h
  case frameNoDest => exact spelledBy_of_sixBytes frameRowsNoDest_spell h
  case tokenTx => exact spelledBy_of_oneByte (fun _ => spelledBy_of_tokenTx) h
  case dataResponse => exact spelledBy_of_oneByte (fun _ => spelledBy_of_dataResponse) h
  case host => exact spelledBy_of_oneByte (fun _ => spelledBy_of_host) h
  case setSpeed => exact spelledBy_of_oneByte (fun _ => spelledBy_of_speed) h
  case response => exact spelledBy_of_oneByte (fun b hb => Except.ok.inj hb ▸ spelledBy_decodeResponse b) h
  case xchg => exact spelledBy_of_oneByte (fun _ hb => Except.ok.inj hb ▸ ⟨rfl, rfl⟩) h
  case select | deselect => exact spelledBy_of_noByte ⟨rfl, rfl⟩ h
  case tokenRx | filler | readyPoll | rx | waitReady => exact spelledBy_of_theByte ⟨rfl, rfl⟩ h

/-! Fixed words. -/

/-- Settles O3: each is one concrete word, and the decoder reads it whatever stands beside it. -/
theorem specWordsDecode : Obligations.SpecWordsDecode := fun _ =>
  ⟨rfl, rfl, rfl, rfl, rfl, rfl, rfl, rfl, rfl, rfl, rfl⟩

/-- The framing bits `01` above an index are the bit 6 (R70). -/
theorem commandByte_eq_or (idx : BitVec 6) : commandByte idx = 0x40 ||| idx.setWidth 8 := by
  revert idx
  decide

/-- Settles O4: only byte 0 is written in another way than in the frame's definition, `frameBytes`, whose name this
theorem would have had. -/
theorem frameBytes_eq : Obligations.FrameBytes := by
  intro idx arg
  rw [frameBytes, commandByte_eq_or]
  rfl

/-- No operation code of 5 to 255 has a row (R86). -/
theorem decodeHost_of_reserved {op : Byte} (q : ReqArgs) (h : 5 ≤ op.toNat) :
    decodeHost op q = .error (.reservedOp op) := by
  have hne : ∀ k : Byte, k.toNat < 5 → op ≠ k := by
    rintro k hk rfl
    omega
  rw [decodeHost, if_neg (hne 0 (by decide)), if_neg (hne 1 (by decide)), if_neg (hne 2 (by decide)),
    if_neg (hne 3 (by decide)), rowIf, beq_eq_false_iff_ne.mpr (hne 4 (by decide))]
  rfl

end Sys2Proof
end

section
/-! Words that spell nothing, and the card-ready byte (30_encoding.md R81, R85, R86, 40_transport.md R102, 44_facade.md
R220). -/

namespace Sys2Proof.Machine

section
variable {s : State} {c : Code} {why : Reject} {i : Instr}

theorem understand_of_error (h : decode c = .error why) : understand s c = .error why := by
  simp [understand, h]

theorem understand_of_wide (h : decode c = .ok i) (hw : i.wellFormed s.cfg.addrWidth = false) :
    understand s c = .error .badAddress := by
  simp [understand, h, hw]

/-- A reserved operation code is refused by name, unless a request is being served. -/
theorem rejected_reservedOp (op : Byte) :
    rejected s c (.reservedOp op) = .refused (if s.busy = true then .concurrentRequest else .reservedOp) :=
  (apply_ite Host.Outcome.refused _ _ _).symm

/-- Any other word that is turned down is refused by what is wrong with it, unless it is at the host port while a request
is being served. -/
theorem rejected_noSuchWord (h : ∀ op, why ≠ .reservedOp op) : rejected s c why =
    .refused (if s.busy = true ∧ c.slot = .host then .concurrentRequest else .noSuchWord why) := by
  cases why
  case reservedOp op => exact absurd rfl (h op)
  all_goals exact (apply_ite Host.Outcome.refused _ _ _).symm

end

/-- Settles O8: the block turns the word down before it runs anything, and a reserved operation code is at the host port. -/
theorem unspelledWordRefused : Obligations.UnspelledWordRefused := by
  intro s c rest hi
  constructor
  · intro why h
    rw [step_rejected hi (understand_of_error h)]
    cases why
    case reservedOp op => simp [rejected_reservedOp, decode_reservedOp h]
    all_goals exact rejected_noSuchWord (by simp)
  · intro i h hw
    rw [step_rejected hi (understand_of_wide h hw)]
    exact rejected_noSuchWord (by simp)

/-- Settles O7: the code has no row at the host port, so the word is turned down. -/
theorem reservedOpRefused : Obligations.ReservedOpRefused := by
  intro s op q rest hop hi
  rw [step_rejected hi (understand_of_error (decodeHost_of_reserved q hop))]
  exact rejected_reservedOp op

/-! The card-ready byte. -/

/-- Settles O48: the wait reads one tick and makes one exchange, which takes the byte put in front of the answers. -/
theorem cardReadyEndsWait : Obligations.CardReadyEndsWait := by
  intro s hl ht
  have hwait := waitReady_at_once (s := { s with env := { s.env with answers := 0xFF :: s.env.answers } }) ht rfl
  have hcall : exec .cardReady s = _ :=
    callBool_of_ok (m := do answerNext 0xFF; waitReady) hl (bind_ok_iff.mpr ⟨(), _, rfl, hwait⟩)
  rw [hcall]
  simp [State.returned, State.exchanged, Env.afterXchg, Env.afterTick, Env.answer, Env.tick, ht]

end Sys2Proof.Machine
end

section
/-! The bus through a request (40_transport.md R106), the byte transport's rows called by themselves (R100 to R105) and the
ready wait (R102, R107, R108). -/

namespace Sys2Proof.Machine

section
variable {s t u : State} {op : Byte} {q : ReqArgs} {P : List Event → Prop}

/-! One claim and one release. -/

/-- Events that leave the bus as released as they found it: none, or one claim, exchanges, and the release, with no other
claim or release before (R106). -/
def ClaimRun (l : List Event) : Prop :=
  l = [] ∨ ∃ before during, l = before ++ .select :: during ++ [.deselect] ∧
    (∀ e ∈ before, e ≠ .select ∧ e ≠ .deselect) ∧ ∀ e ∈ during, e.isXchg = true

/-- The bus is released, and the events since `s` release what they claim and meet `P`. -/
def ReleasesBus (P : List Event → Prop) (s t : State) : Prop :=
  t.cs = .deselected ∧ ∃ l, t.wire = s.wire ++ l ∧ ClaimRun l ∧ P l

/-- A request that is answered before it sends anything. -/
theorem releasesBus_answered (hc : s.cs = .deselected) (hP : P []) (r : Byte) :
    ReleasesBus P s ((s.accepted op q).concluded r) :=
  ⟨hc, [], (List.append_nil _).symm, .inl rfl, hP⟩

/-- Nothing comes before the claim of a transfer. -/
theorem Transferred.releasesBus {R : Memory → Memory → Prop} (h : Transferred R (s.accepted op q) u) (hP : ∀ l, P l)
    (r : Byte) : ReleasesBus P s (u.concluded r) := by
  obtain ⟨l, hw, hx⟩ := h.wire
  exact ⟨by rw [h.same]; rfl, _, hw, .inr ⟨[], l, rfl, by simp, hx⟩, hP _⟩

/-- The speed events and the dummy exchanges of a negotiation come before its claim (42_negotiation.md R161). -/
theorem Initialized.releasesBus (h : Initialized (s.accepted op q) u) (hP : ∀ l, P l) (r : Byte) :
    ReleasesBus P s (u.concluded r) := by
  obtain ⟨rxs, l, -, hx, hw⟩ := h.wire
  refine ⟨by rw [h.same]; rfl, _, hw,
    .inr ⟨.setSpeed .slow :: idles rxs ++ [.setSpeed .fast], l, by simp, fun e he => ?_, hx⟩, hP _⟩
  obtain (rfl | ⟨b, -, rfl⟩) | rfl : (e = .setSpeed .slow ∨ ∃ b ∈ rxs, Event.xchg 0xFF b = e) ∨ e = .setSpeed .fast := by
    simpa [idles, or_assoc] using he
  all_goals exact ⟨nofun, nofun⟩

/-- A transfer claims the bus only where its preconditions pass (44_facade.md R221). -/
theorem TransferStep.releasesBus {acc : Access} {m : M Bool} {R : Memory → Memory → Prop} (hc : s.cs = .deselected)
    (h : TransferStep op q acc m R s t) :
    ReleasesBus (fun l => q.unit ≠ 0 ∨ s.status ≠ .ready ∨ q.count = 0 → l = []) s t := by
  obtain ⟨r, -, rfl⟩ | ⟨hp, -, -, r, u, -, -, hu, rfl⟩ := h
  · exact releasesBus_answered hc (fun _ => rfl) r
  · obtain ⟨hunit, hready, hcount⟩ := precondition_pass.mp hp
    refine hu.releasesBus (fun l hfails => ?_) r
    rcases hfails with h | h | h
    · exact absurd hunit h
    · exact absurd hready h
    · exact absurd h hcount

end

/-- Settles O24: a request is answered before it sends anything, or is a transfer or a negotiation, which claims the bus
once and releases it. -/
theorem requestsReleaseBus : Obligations.RequestsReleaseBus := by
  intro i f s t hf hc h
  rcases request_cases i with hi | ⟨q, rfl⟩ | ⟨q, rfl⟩ | ⟨q, rfl⟩ | ⟨q, rfl⟩ | ⟨q, rfl⟩
  · simp [hi] at hf
  · obtain ⟨-, -, rfl⟩ := exec_status_next h
    exact releasesBus_answered (P := (· = [])) hc rfl _
  · obtain ⟨-, -, rfl⟩ := exec_ioctl_next h
    exact releasesBus_answered (P := (· = [])) hc rfl _
  · obtain ⟨-, -, ⟨-, rfl⟩ | ⟨hn, -, u, -, hu, rfl⟩⟩ := exec_init_next h
    · exact releasesBus_answered hc (fun _ => rfl) _
    · exact hu.releasesBus (fun l hr => absurd hr hn) _
  · obtain ⟨-, -, hread⟩ := exec_read_next h
    exact hread.releasesBus hc
  · obtain ⟨-, -, hwrite⟩ := exec_write_next h
    exact hwrite.releasesBus hc

section
variable {s : State} {x : Fault}

/-! Events of the card port. -/

theorem xchg_of_idle {tx : Byte} (h : s.env.transport ≠ some 0) : xchg tx s = .ok s.env.answer (s.exchanged tx) :=
  if_neg h

theorem select_of_deselected (h : s.cs = .deselected) : select s = .ok () s.claimed := by
  simp only [select, look, bind, EStateM.bind, h, reduceCtorEq, if_false]
  rfl

theorem select_of_selected (h : s.cs = .selected) :
    select s = .error (.fault (.internalFault .selectWhileSelected)) s := by
  simp only [select, look, bind, EStateM.bind, h, if_true]
  rfl

/-! Calls and requests that stop at a fault. -/

theorem callByte_faults {m : M Byte} (hl : s.Legal) (h : ∃ u, m s = .error (.fault x) u) : run (callByte m) s = .fault x :=
  call_hangs hl (bind_hangs h)

theorem callBool_faults {m : M Bool} (hl : s.Legal) (h : ∃ u, m s = .error (.fault x) u) : run (callBool m) s = .fault x :=
  call_hangs hl (bind_hangs h)

theorem callUnit_faults {m : M Unit} (hl : s.Legal) (h : ∃ u, m s = .error (.fault x) u) : run (callUnit m) s = .fault x :=
  call_hangs hl (bind_hangs h)

theorem request_faults {op : Byte} {q : ReqArgs} {serve : M Byte} (hl : s.Legal) (hf : s.Free)
    (h : ∃ u, serve (s.accepted op q) = .error (.fault x) u) : run (request op q serve) s = .fault x := by
  obtain ⟨u, h⟩ := h
  simp [run, request_of_free hl hf, bind, EStateM.bind, h]

end

/-! The ready wait with every answer and tick read given. -/

section
variable {e : Env} {s : State} {k : Nat}

@[simp] theorem judgeReady_eq_none {b : Byte} : judgeReady b = none ↔ b ≠ 0xFF := by
  simp [judgeReady, isReady]

theorem Env.tick_eq_tickAt : e.tick = e.tickAt 0 := by rw [← Env.tick_polled, Env.polled_zero]

section
variable {bs rest : List Byte} {ts ticks : List Tick}

/-! A script, read by index. -/

theorem Env.answerAt_eq_getElem (h : e.answers = bs ++ rest) (hk : k < bs.length) : e.answerAt k = bs[k] := by
  obtain ⟨ha, -, -, -⟩ := script_at h (List.nil_append e.ticks).symm
  exact ha k _ (List.getElem?_eq_getElem hk)

theorem Env.answerAt_mem (h : e.answers = bs ++ rest) (hk : k < bs.length) : e.answerAt k ∈ bs :=
  Env.answerAt_eq_getElem h hk ▸ List.getElem_mem hk

theorem Env.map_answerAt (h : e.answers = bs ++ rest) : (List.range bs.length).map e.answerAt = bs :=
  List.ext_getElem (by simp) fun j _ hj => by simp [Env.answerAt_eq_getElem h hj]

theorem Env.tickAt_eq_getElem (h : e.ticks = ts ++ ticks) (hk : k < ts.length) : e.tickAt k = ts[k] := by
  obtain ⟨-, -, ht, -⟩ := script_at (List.nil_append e.answers).symm h
  exact ht k _ (List.getElem?_eq_getElem hk)

theorem Env.tickAt_mem (h : e.ticks = ts ++ ticks) (hk : k < ts.length) : e.tickAt k ∈ ts :=
  Env.tickAt_eq_getElem h hk ▸ List.getElem_mem hk

theorem Env.length_le_pollsLeft (h : e.ticks = ts ++ ticks) : ts.length ≤ e.pollsLeft := by
  rw [Env.pollsLeft, h, List.length_append]
  omega

end

/-- A ready wait behind its first tick read (R102). -/
def State.waiting (s : State) : State :=
  { s with
    env := s.env.afterTick
    regs := { s.regs with t0 := some s.env.tick } }

/-- Ready at poll `k`, the budget not reached before (R102). -/
theorem waitReady_ready (hk : k ≤ s.env.afterTick.pollsLeft) (ht : s.env.transport = none)
    (hb : ∀ j < k, s.env.answerAt j ≠ 0xFF)
    (hx : ∀ j < k, (s.env.afterTick.tickAt j - s.env.tick).toNat < s.cfg.readyBudget) (hr : s.env.answerAt k = 0xFF) :
    ∃ u, waitReady s = .ok true u ∧ u.env = (s.env.afterTick.polled k).afterXchg ∧
      u.wire = s.wire ++ idles ((List.range (k + 1)).map s.env.answerAt) := by
  obtain ⟨u, hu, he, -, -, hw⟩ := pollOnce_ends (w := fun _ x => x) (s := s.waiting) (r := true) hk ht
    (fun j hj => judgeReady_eq_none.mpr (hb j hj)) hx ((congrArg judgeReady hr).trans rfl)
  exact ⟨u, waitReady_eq.trans hu, he, hw⟩

/-- Expired at the tick read behind poll `k`, which is the last (R102, R107). -/
theorem waitReady_expires (hk : k < s.env.afterTick.pollsLeft) (ht : s.env.transport = none)
    (hb : ∀ j ≤ k, s.env.answerAt j ≠ 0xFF)
    (hx : ∀ j < k, (s.env.afterTick.tickAt j - s.env.tick).toNat < s.cfg.readyBudget)
    (he : s.cfg.readyBudget ≤ (s.env.afterTick.tickAt k - s.env.tick).toNat) :
    ∃ u, waitReady s = .ok false u ∧ u.env = s.env.afterTick.polled (k + 1) ∧
      u.wire = s.wire ++ idles ((List.range (k + 1)).map s.env.answerAt) := by
  obtain ⟨u, hu, henv, -, -, hw⟩ := pollOnce_expires (w := fun _ x => x) (s := s.waiting) hk ht
    (fun j hj => judgeReady_eq_none.mpr (hb j hj)) hx he
  exact ⟨u, waitReady_eq.trans hu, henv, hw⟩

/-- Neither ready nor expired where nothing will show the expiry (R108 (a); log 4). -/
theorem waitReady_never_ends (ht : s.env.transport = none)
    (hf : s.env.tickFair = false ∨ 2 ^ 32 ≤ s.cfg.readyBudget)
    (hb : ∀ j ≤ s.env.afterTick.pollsLeft, s.env.answerAt j ≠ 0xFF)
    (hx : ∀ j < s.env.afterTick.pollsLeft, (s.env.afterTick.tickAt j - s.env.tick).toNat < s.cfg.readyBudget) :
    ∃ u, waitReady s = .error (.fault .waitNeverEnds) u := by
  rw [waitReady_eq]
  exact pollOnce_hangs (s := s.waiting) ht hf (fun j hj => judgeReady_eq_none.mpr (hb j hj)) hx

end

/-- Settles O47: the scripts give the answers and the tick reads by index, so the wait is ready at poll `bs.length`, or
expires behind poll `ts.length`. -/
theorem waitReadyFollowsTicks : Obligations.WaitReadyFollowsTicks := by
  intro s t0 last ts ticks bs answers hl ht hb hx
  refine ⟨fun hti han hlen => ?_, fun hti hlast han hlen => ?_⟩ <;> obtain rfl := s.env.tick_cons hti
  · have hts : s.env.afterTick.ticks = ts ++ ticks := by simp [hti]
    have hbs : s.env.answers = bs ++ [0xFF] ++ answers := by simp [han]
    have hready : s.env.answerAt bs.length = 0xFF := (Env.answerAt_eq_getElem hbs (by simp)).trans (by simp)
    obtain ⟨u, hu, he, hw⟩ := waitReady_ready (hlen ▸ Env.length_le_pollsLeft hts) ht
      (fun j hj => hb _ (Env.answerAt_mem han hj)) (fun j hj => hx _ (Env.tickAt_mem hts (hlen ▸ hj))) hready
    rw [show bs.length + 1 = (bs ++ [0xFF]).length by simp, Env.map_answerAt hbs] at hw
    refine ⟨_, callBool_of_ok hl hu, rfl, hw, ?_, ?_, (waitReady_regs hu :)⟩
    · show u.env.ticks = ticks
      simp [he, hti, hlen]
    · show u.env.answers = answers
      simp [he, han]
  · have hts : s.env.afterTick.ticks = ts ++ [last] ++ ticks := by simp [hti]
    have hexp : s.env.afterTick.tickAt ts.length = last := (Env.tickAt_eq_getElem hts (by simp)).trans (by simp)
    have hbusy (j : Nat) (hj : j ≤ ts.length) : s.env.answerAt j ≠ 0xFF := hb _ (Env.answerAt_mem han (by omega))
    have hgoing (j : Nat) (hj : j < ts.length) : (s.env.afterTick.tickAt j - s.env.tick).toNat < s.cfg.readyBudget :=
      hx _ (Env.tickAt_mem (hts.trans (List.append_assoc ..)) hj)
    obtain ⟨u, hu, he, hw⟩ := waitReady_expires (by simpa using Env.length_le_pollsLeft hts) ht hbusy hgoing (hexp ▸ hlast)
    rw [← hlen, Env.map_answerAt han] at hw
    refine ⟨_, callBool_of_ok hl hu, rfl, hw, ?_, ?_, (waitReady_regs hu :)⟩
    · show u.env.ticks = ticks
      simp [he, hti]
    · show u.env.answers = answers
      simp [he, han, ← hlen]

/-- Settles O41: the exchange that finds the transport never idle stops whatever makes it, and a ready wait stops where it
would need an expiry that does not come. -/
theorem idleTransportNeeded : Obligations.IdleTransportNeeded := by
  intro s hl
  refine ⟨fun h => ?_, fun n h => ⟨fun i idx arg hi ha hn => ?_, fun hn => ?_, fun q hf hs hn => ?_⟩,
    fun ht hf hb hx => ?_⟩
  · exact ⟨fun tx => callByte_faults hl ⟨s, xchg_hangs h⟩, callByte_faults hl ⟨s, xchg_hangs h⟩,
      callByte_faults hl ⟨s, xchg_hangs h⟩, callBool_faults hl (waitReady_hangs h)⟩
  · rw [exec_command hi]
    exact callByte_faults hl (command_hangs h ha hn)
  · exact callUnit_faults hl (stopTran_hangs h hn)
  · refine request_faults hl hf ?_
    rw [initSession_uninitialized (by simp [hs])]
    exact bind_hangs (negotiate_hangs (s := s.accepted 1 q) h hn)
  · refine callBool_faults hl (waitReady_never_ends ht hf hb fun j hj => ?_)
    rw [Env.tickAt_succ, Env.tick_eq_tickAt]
    exact hx j hj

/-- Settles O46: the wait ends, changes what a ready wait can change, and puts its polls on the wire. -/
theorem waitReadyCompletes : Obligations.WaitReadyCompletes := by
  intro s hl hf
  obtain ⟨r, u, hu, -⟩ := (ends_waitReady (F := True) fun _ => hf).exists trivial
  have hk := keeps_waitReady s r u hu
  obtain ⟨rxs, hrun, hw, -, -⟩ := trace_waitReady r u hu
  refine ⟨u.returned (some (.bool r)), r, rxs, callBool_of_ok hl hu, (hk.fair (fun _ => hf) trivial).same rfl rfl, ?_, hrun⟩
  show State.returned u _ = _
  rw [hk.same, waitReady_regs hu, hw]
  rfl

/-! The rows of one event. -/

/-- Settles O40: all three rows are one exchange. -/
theorem exchangesOneByte : Obligations.ExchangesOneByte := by
  intro tx s hl ht
  refine ⟨callByte_of_ok hl (xchg_of_idle ht), callByte_of_ok hl (xchg_of_idle ht), callByte_of_ok hl (xchg_of_idle ht),
    rfl, fun b l h => ⟨s.env.answer_cons h, ?_⟩⟩
  simp [h]

/-- Settles O42: `Select` looks at `cs` before anything else. -/
theorem selectClaimsBus : Obligations.SelectClaimsBus := fun s hl =>
  ⟨fun h => callUnit_of_ok hl (select_of_deselected h), fun h => callUnit_faults hl ⟨s, select_of_selected h⟩⟩

/-- Settles O43: `Deselect` writes `cs` and its one event, whatever the state. -/
theorem deselectReleasesBus : Obligations.DeselectReleasesBus := fun _ hl => callUnit_of_ok (m := deselect) hl rfl

/-- Settles O44: `SetSpeed` writes the speed and its one event. -/
theorem setSpeedSelects : Obligations.SetSpeedSelects := fun v _ hl => callUnit_of_ok (m := setSpeed v) hl rfl

/-- Settles O45: a difference of 32-bit words is the difference modulo 2^32. -/
theorem expiryIsModular : Obligations.ExpiryIsModular := by
  intro t0 budget s
  have h : (s.env.tick - t0).toNat = (s.env.tick.toNat + 2 ^ 32 - t0.toNat) % 2 ^ 32 := by
    rw [BitVec.toNat_sub]
    have := t0.isLt
    congr 1
    omega
  show EStateM.Result.ok (budgetExpired t0 s.env.tick budget) _ = _
  rw [budgetExpired, h]

end Sys2Proof.Machine
end

section
/-! The command rows (41_command.md R120 to R127, R130 to R142) and the response poll (R123), each called by itself. -/

namespace Sys2Proof.Machine

section
variable {s t u : State} {i : Instr} {idx : BitVec 6} {arg : Word} {st : Byte}

/-! Command rows. -/

/-- A command row that ends began in a legal state and has made one command (R127). -/
theorem exec_command_next (hf : frameOf s.cfg i = some (idx, arg)) (h : exec i s = .next t) :
    s.Legal ∧ ∃ st u, command idx arg (destOf i) s = .ok st u ∧ t = u.returned (some (.byte st)) :=
  callByte_next (exec_command hf ▸ h)

/-- A command row ends as its command does (R127). -/
theorem exec_command_of_ok (hf : frameOf s.cfg i = some (idx, arg)) (hl : s.Legal)
    (h : command idx arg (destOf i) s = .ok st u) : exec i s = .next (u.returned (some (.byte st))) :=
  (exec_command hf).trans (callByte_of_ok hl h)

/-- A card step and the value returned after it change nothing but the card's side and the registers. -/
theorem CardStep.onlyCard_returned {g : Regs → Regs → Regs} (h : CardStep g s u) (r : Option Ret) :
    s.onlyCard (u.returned r) := by
  show State.returned u r = _
  rw [h.same]
  rfl

end

/-- Settles O49: under R108 the command ends; it is a card step on the framer's registers, and what it latched stays. -/
theorem commandsComplete : Obligations.CommandsComplete := by
  intro i idx arg s hf hl hfair
  obtain ⟨st, u, hu, -, hk⟩ := (ends_command_and (F := True) idx arg (destOf i) (fun _ => hfair) hl.cfg).exists trivial
  exact ⟨u.returned (some (.byte st)), st, exec_command_of_ok hf hl hu, (hk.fair (fun _ => hfair) trivial).same rfl rfl, rfl,
    hk.onlyCard_returned _, hk.regs, (command_latched hu :)⟩

/-- Settles O50: the trace of the one command the row makes. -/
theorem commandsFollowFraming : Obligations.CommandsFollowFraming := by
  intro i idx arg s t hf h
  obtain ⟨hl, st, u, hu, rfl⟩ := exec_command_next hf h
  obtain ⟨l, out, hw, hrun, hout, -⟩ := trace_command idx arg (destOf i) hl.cfg st u hu
  exact ⟨l, st, out, hrun, hw, rfl, hout⟩

/-- Settles O51: the answers are those of a command answered at once. -/
theorem commandsReturnStatus : Obligations.CommandsReturnStatus := by
  intro i idx arg s d payload rest st hf hl ht hdest hd hst h0 hpay ha
  obtain ⟨u, hu, -, hrest, hout, -⟩ := script_command arg hd hst h0 hpay hdest s rest hl.cfg ht ha
  exact ⟨_, exec_command_of_ok hf hl hu, rfl, hrest, fun hp => hout.trans (if_pos ⟨hp, hdest hp⟩)⟩

section
variable {idx : BitVec 6} {arg : Word} {p : Params} {l : List Event} {st : Byte} {out : Option Word} {c : CommandBytes}

/-! CMD0's bound (R130, 70_reset_and_hazards.md R286). -/

@[simp] theorem length_idles (rxs : List Byte) : (idles rxs).length = rxs.length := by simp [idles]

/-- A frame is six bytes (30_encoding.md R70). -/
@[simp] theorem length_frameBytes (crc : Byte) : (frameBytes idx arg crc).length = 6 := rfl

/-- A run of additional polls is no longer than their bound (R124). -/
theorem ExtraRun.length_le {extra : List Byte} (h : ExtraRun p idx st extra) : extra.length ≤ Config.cmd0Extra := by
  unfold ExtraRun at h
  split at h
  · exact h.1
  · simp [h]

/-- CMD0 has no ready gate and no payload, so its exchanges are the frame and the two poll loops. -/
theorem CommandBytes.Legal.length_events_cmd0_le (h : c.Legal p 0) :
    (c.events 0 arg).length ≤ 6 + p.nResp + Config.cmd0Extra := by
  have hgate : c.gate = [] := h.gate
  have hpayload : c.payload.length = 0 := h.payload
  have hframe : (exchanges (frameBytes 0 arg (crcByte 0)) c.during).length = 6 := by simp [exchanges, h.during]
  have hbound := h.bound
  have hextra := h.extra.length_le
  simp only [CommandBytes.events, hgate, idles_nil, List.nil_append, List.length_append, hframe, length_idles,
    List.length_cons, hpayload]
  omega

/-- CMD0 has no ready gate to fail (R121), so its run is its frame and its polls. -/
theorem CommandRun.length_le_cmd0 {dest : Bool} (h : CommandRun p 0 arg dest l st out) :
    l.length ≤ 6 + p.nResp + Config.cmd0Extra := by
  obtain ⟨hne, -⟩ | ⟨c, hc, rfl, -⟩ := h
  · exact absurd rfl hne
  · exact hc.length_events_cmd0_le

end

/-- Settles O52: the trace bounds the events the command adds to the wire, and `keeps_command` says they are exchanges. -/
theorem cmd0IsBounded : Obligations.Cmd0IsBounded := by
  intro s t h
  obtain ⟨hl, st, u, hu, rfl⟩ := exec_command_next rfl h
  obtain ⟨l, out, hw, hrun, -⟩ := trace_command _ _ _ hl.cfg st u hu
  obtain ⟨l', hw', hx⟩ := (keeps_command _ _ _ s st u hu).wire
  obtain rfl : l = l' := List.append_cancel_left (hw.symm.trans hw')
  exact ⟨l, hw, hrun.length_le_cmd0, hx⟩

/-- With no destination a command with an extended response answers the busy sentinel, sent or not (R125). -/
theorem CommandRun.misused {p : Params} {idx : BitVec 6} {arg : Word} {l : List Event} {st : Byte} {out : Option Word}
    (hp : hasPayload idx = true) (h : CommandRun p idx arg false l st out) : st = 0xFF := by
  obtain ⟨-, hst, -⟩ | ⟨c, -, -, hst, -⟩ := h
  · exact hst
  · exact hst.trans (if_pos ⟨hp, rfl⟩)

/-- A row with an extended response and no destination (R125). -/
theorem exec_misused {i : Instr} {idx : BitVec 6} {arg : Word} {s t : State} (hf : frameOf s.cfg i = some (idx, arg))
    (hp : hasPayload idx = true) (hd : destOf i = false) (h : exec i s = .next t) :
    t.ret = some (.byte 0xFF) ∧ t.regs.extOut = s.regs.extOut := by
  obtain ⟨l, st, out, hrun, -, hret, hout⟩ := commandsFollowFraming i idx arg s t hf h
  rw [hd] at hrun
  obtain rfl := hrun.misused hp
  obtain rfl := hrun.out_eq_none
  exact ⟨hret, hout⟩

/-- Settles O53: both rows have an extended response, and their callers no destination. -/
theorem misuseGuard : Obligations.MisuseGuard := by
  rintro s t (h | h)
  · exact exec_misused rfl rfl rfl h
  · exact exec_misused rfl rfl rfl h

section
variable {s u : State} {b st : Byte} {n : Nat}

/-! The response poll. -/

/-- The state in which the card's next answer is `b` (log 16). -/
def State.answering (s : State) (b : Byte) : State :=
  { s with env := { s.env with answers := b :: s.env.answers } }

theorem answerNext_apply (b : Byte) (s : State) : answerNext b s = .ok () (s.answering b) := rfl

/-- A response poll whose next byte is scripted ends as the first poll loop does, with the byte it polled last. -/
theorem pollAnswered_of_ok (h : firstPoll s.cfg.nResp (s.answering b) = .ok () u) (hr : u.regs.resp = some st) :
    pollAnswered b s = .ok st u :=
  bind_ok_iff.mpr ⟨(), _, answerNext_apply b s, bind_ok_iff.mpr ⟨_, _, rfl, bind_ok_iff.mpr ⟨(), u, h, by simp [readReg, hr]⟩⟩⟩

/-- Bit 7 tells a valid status from an unresolved byte (30_encoding.md R75). -/
theorem unresolved_append (x : BitVec 1) (y : BitVec 7) : unresolved (x ++ y) = x.getLsbD 0 := by
  show (x ++ y).getLsbD 7 = _
  rw [BitVec.getLsbD_append]
  rfl

/-- The first poll loop makes a poll at least, whose byte is the card's next answer (R123). -/
theorem wire_firstPoll (hn : 1 ≤ n) : Partial (firstPoll n) s fun _ t =>
    ∃ l, t.wire = s.wire ++ .xchg 0xFF s.env.answer :: l := by
  obtain ⟨k, rfl⟩ := Nat.exists_eq_add_of_le' hn
  simp only [firstPoll, pollResponse, partial_bind, partial_writeRegs]
  refine partial_rx ?_
  simp only [partial_ite, partial_pure]
  refine ⟨fun _ => (keeps_pollResponse _ k _).mono fun _ t h => ?_, fun _ => ⟨[], rfl⟩⟩
  obtain ⟨l, hl, -⟩ := h.wire
  exact ⟨l, by simp [hl]⟩

/-- The first byte of a nonempty run of idle exchanges. -/
theorem head?_of_idles_eq {rxs : List Byte} {l : List Event} (h : idles rxs = .xchg 0xFF b :: l) : rxs.head? = some b := by
  cases rxs with
  | nil => cases h
  | cons c rxs =>
    cases h
    rfl

end

/-- Settles O54: a valid byte put in front of the answers is the status of the first poll. -/
theorem validStatusEndsPoll : Obligations.ValidStatusEndsPoll := by
  intro flags s hl ht
  have hpoll := script_firstPoll (Params.one_le_nResp hl.cfg) (unresolved_append 0b0#1 flags)
    (s.answering (0b0#1 ++ flags)) ht rfl
  have hcall : exec (.r1Valid flags) s = _ := callByte_of_ok hl (pollAnswered_of_ok hpoll rfl)
  rw [hcall]
  simp [State.returned, State.answering, Env.afterXchg, ht]

/-- Settles O55: the poll loop ends, its trace says which bytes it passed over, and the first of them is the one put in
front of the answers. -/
theorem unresolvedStatusPollsOn : Obligations.UnresolvedStatusPollsOn := by
  intro low s hl ht
  have hn := Params.one_le_nResp hl.cfg
  obtain ⟨_, u, hu, -⟩ := (ends_firstPoll (F := True) (s := s.answering (0b1#1 ++ low)) hn fun _ => ht).exists trivial
  obtain ⟨polled, st, hw, hp, hlen, hlast, hr⟩ := trace_firstPoll hn _ u hu
  obtain ⟨l, hw'⟩ := wire_firstPoll hn _ u hu
  have hk := keeps_firstPoll _ _ _ u hu
  refine ⟨u.returned (some (.byte st)), polled, st, callByte_of_ok hl (pollAnswered_of_ok hu (by rw [hr])),
    head?_of_idles_eq (List.append_cancel_left (hw.symm.trans hw')), hp, hlen, hlast, ?_⟩
  show State.returned u _ = _
  rw [hk.same, hr, hw]
  rfl

end Sys2Proof.Machine
end

section
/-! `initialize()` on an uninitialized session (44_facade.md R223): the negotiation it runs, and the families it finds
(42_negotiation.md R160 to R173). -/

namespace Sys2Proof.Machine

section
variable {s t u : State} {q : ReqArgs} {v : Version} {rest l : List Byte}

theorem Initialized.speed (h : Initialized s t) : t.speed = .fast := by rw [h.same]

/-- A negotiation delivers nothing, so its request delivers the one result it concludes with (R220). -/
theorem Initialized.delivered_concluded (h : Initialized (s.accepted 1 q) u) (r : Byte) :
    (u.concluded r).delivered = s.delivered ++ [r] := by
  show u.delivered ++ [r] = _
  rw [h.same]
  rfl

/-- An `initialize()` whose negotiation ends delivers the status word of the session it left (R223). -/
theorem exec_init_of_negotiate (hl : s.Legal) (hf : s.Free) (hs : s.status ≠ .ready)
    (h : negotiate (s.accepted 1 q) = .ok () u) : exec (.init q) s = .next (u.concluded (statusWord u.status)) := by
  refine request_of_ok hl hf ?_
  rw [initSession_uninitialized (s := s.accepted 1 q) hs]
  exact bind_ok_iff.mpr ⟨(), u, h, rfl⟩

/-- What a scripted negotiation commits is the outcome of the request that runs it (R171, R223). -/
theorem exec_init_of_commit (hl : s.Legal) (hf : s.Free) (hc : s.cs = .deselected) (hs : s.status = .uninitialized)
    (h : Commit negotiate (s.accepted 1 q) v rest) :
    ∃ t, exec (.init q) s = .next t ∧ t.version = v ∧ t.status = .ready ∧ t.delivered = s.delivered ++ [0x00] ∧
      t.env.answers = rest := by
  obtain ⟨u, hu, hver, hready, hrest⟩ := h
  have hi : Initialized (s.accepted 1 q) u :=
    (ends_negotiate (F := False) (s := s.accepted 1 q) (by nofun) hl.cfg hc).partial () u hu
  refine ⟨_, exec_init_of_negotiate hl hf (by simp [hs]) hu, hver, hready, ?_, hrest⟩
  rw [hi.delivered_concluded, hready]
  rfl

/-- The power-up and CMD0 are the same for every family; what the card answers from CMD8 on decides (R160 to R163). -/
theorem exec_init_of_interfaceCheck {pu d0 : List Byte} (hl : s.Legal) (hf : s.Free) (ht : s.env.transport = none)
    (hc : s.cs = .deselected) (hs : s.status = .uninitialized) (hpu : pu.length = s.cfg.powerupBytes)
    (hd0 : d0.length = 6) (ha : s.env.answers = resetAnswers pu d0 ++ l)
    (h : ∀ t : State, t.cfg = s.cfg → Fed t l → Commit interfaceCheck t v rest) :
    ∃ t, exec (.init q) s = .next t ∧ t.version = v ∧ t.status = .ready ∧ t.delivered = s.delivered ++ [0x00] ∧
      t.env.answers = rest :=
  exec_init_of_commit hl hf hc hs (commit_negotiate (s := s.accepted 1 q) hpu hd0 hc ⟨hl.cfg, ht, ha⟩ h)

end

/-- Settles O32: the request runs one negotiation, whose trace names the family committed, if any; the request adds the
speed the negotiation leaves and the status word of the session. -/
theorem initFollowsNegotiation : Obligations.InitFollowsNegotiation := by
  intro q s t hc hs h
  obtain ⟨hl, -, ⟨hready, -⟩ | ⟨-, -, u, hu, hi, rfl⟩⟩ := exec_init_next h
  · exact absurd (hs.symm.trans hready) nofun
  obtain ⟨lp, l, found, hpower, hrun, hwire, hsession⟩ := trace_negotiate (s := s.accepted 1 q) hl.cfg hc () u hu
  refine ⟨lp, l, found, hpower, hrun, hwire, hi.speed, ?_⟩
  cases found with
  | some v =>
    obtain ⟨hver, hready⟩ := hsession
    exact ⟨hver, hready, (hi.delivered_concluded _).trans (by rw [hready]; rfl)⟩
  | none =>
    obtain ⟨hver, hsame⟩ := hsession
    have hsame : u.status = .uninitialized := hsame.trans hs
    exact ⟨hver, hsame, (hi.delivered_concluded _).trans (by rw [hsame]; rfl)⟩

/-- Settles O33: after the common reset each family's answers make the interface check commit that family. -/
theorem initFindsEachFamily : Obligations.InitFindsEachFamily := by
  intro q s pu d0 rest echo ocr d st8 st55 st41 hl hf ht hc hs hpu hd0 hd he ho h8 h8' h55 h41 h41'
  refine ⟨fun hecho ha => ?_, fun ha => ?_, fun ha => ?_⟩
  · refine exec_init_of_interfaceCheck hl hf ht hc hs hpu hd0 ha fun t hcfg hfed => ?_
    rw [← hcfg] at hecho hfed
    exact commit_v2 hd h55 he hecho ho hfed
  · exact exec_init_of_interfaceCheck hl hf ht hc hs hpu hd0 ha fun t _ hfed =>
      commit_v1 hd h8 h8' h55 he hfed
  · exact exec_init_of_interfaceCheck hl hf ht hc hs hpu hd0 ha fun t _ hfed =>
      commit_mmc hd h8 h8' h55 h41 h41' he hfed

end Sys2Proof.Machine
end

section
/-! The block rows called by themselves: a block received (43_block_transfer.md R190), a block sent and its data response
(R191, R197), the stop token (R196). -/

namespace Sys2Proof.Machine

section
variable {F : Prop} {s u : State} {base : Nat} {acc : Access} {m : M Bool} {b : Bool}

/-- A block row whose buffer is lent ends as its procedure does (log 15). -/
theorem claimed_of_ok (hl : s.Legal) (hb : s.Lends acc base Config.blockBytes) (h : m s = .ok b u) :
    run (callBool (claimBuffer acc base Config.blockBytes >>= fun _ => m)) s = .next (u.returned (some (.bool b))) :=
  callBool_of_ok hl (bind_ok_iff.mpr ⟨(), s, claimBuffer_of_lends hb, h⟩)

/-- A block step and the value returned after it change nothing but the card's side, the registers and memory. -/
theorem BlockStep.onlyCardAndMemory_returned {g : Regs → Regs → Regs} {R : Memory → Memory → Prop}
    (h : BlockStep g R s u) (r : Option Ret) : s.onlyCardAndMemory (u.returned r) := by
  show State.returned u r = _
  rw [h.same]
  rfl

/-- Two exchanges follow the data of a block, whatever they receive (R190, R198). -/
theorem ends_streamedBlock (ht : F → s.env.transport = none) :
    Ends F (do
      streamIn base 0 Config.blockBytes
      let _ ← rx
      let _ ← rx
      pure true) s fun r t => r = true ∧ ∃ data crc : List Byte, data.length = Config.blockBytes ∧ crc.length = 2 ∧
        t.wire = s.wire ++ idles (data ++ crc) ∧ t.mem = s.mem.store base data := by
  simp only [ends_bind, ends_pure]
  refine ((ends_streamIn base 0 _ ht).and (trace_streamIn base 0 _)).mono fun _ u hu => ?_
  obtain ⟨hut, data, hlen, hw, hm⟩ := hu
  refine ends_rx hut (ends_rx (open_exchanged hut) ⟨trivial, data, [u.env.answer, (u.exchanged 0xFF).env.answer],
    hlen, rfl, ?_, hm⟩)
  simp [hw]

/-- A block read whose first polled byte is the start token receives the block right behind it (R190). -/
theorem ends_readBlock_at_once (ht : s.env.transport = none) (ha : s.env.answer = 0xFE) :
    Ends F (readBlock base Config.blockBytes) s fun r t => r = true ∧ ∃ data crc : List Byte,
      data.length = Config.blockBytes ∧ crc.length = 2 ∧ t.wire = s.wire ++ idles (0xFE :: (data ++ crc)) ∧
      t.mem = s.mem.store base data := by
  simp only [readBlock, ends_bind]
  refine (Ends.ok (waitToken_at_once ht ha)).mpr ((ends_streamedBlock fun _ => by simp [ht]).mono fun r t h => ?_)
  obtain ⟨hr, data, crc, hdata, hcrc, hw, hm⟩ := h
  exact ⟨hr, data, crc, hdata, hcrc, by simp [hw], hm⟩

/-- The two rows that send a block differ in their token only (R191). -/
theorem exec_blockTx {i : Instr} {token : Byte}
    (hi : i = .startBlockTx base ∧ token = 0xFE ∨ i = .startMultiTx base ∧ token = 0xFC) :
    exec i s = run (callBool (claimBuffer .load base Config.blockBytes >>= fun _ =>
      writeBlock base Config.blockBytes token)) s := by
  obtain ⟨rfl, rfl⟩ | ⟨rfl, rfl⟩ := hi <;> rfl

/-- What a block write puts on the wire is the block accepted, or not written (R191). -/
theorem wire_writeBlock (base : Nat) (token : Byte) : Partial (writeBlock base Config.blockBytes token) s fun ok t =>
    ∃ l, t.wire = s.wire ++ l ∧
      if ok = true then ∃ b : BlockOut, b.Legal ∧ dataAccepted b.response = true ∧
        l = b.events token (s.mem.load base Config.blockBytes)
      else NotWritten token (s.mem.load base Config.blockBytes) l := by
  refine (trace_writeBlock base token).mono fun ok t h => ?_
  cases ok with
  | true =>
    obtain ⟨b, hlegal, hacc, hw⟩ := h
    exact ⟨_, hw, b, hlegal, hacc, rfl⟩
  | false =>
    obtain ⟨l, hnot, hw⟩ := h
    exact ⟨l, hw, hnot⟩

/-- The data response is the byte of one exchange (R191). -/
theorem readDataResponse_apply (ht : s.env.transport ≠ some 0) :
    readDataResponse s = .ok (dataAccepted s.env.answer)
      { s.exchanged 0xFF with regs := { s.regs with dresp := some s.env.answer } } :=
  bind_ok_iff.mpr ⟨_, _, xchg_of_idle ht, rfl⟩

end

/-- R197's nibble as a remainder. -/
theorem dataAccepted_iff (b : Byte) : dataAccepted b = true ↔ b.toNat % 16 = 5 := by
  rw [dataAccepted, beq_iff_eq, ← BitVec.toNat_inj, BitVec.extractLsb'_toNat]
  simp

/-- The bits above the nibble are ignored (R197). -/
theorem dataAccepted_append (ignored : BitVec 4) : dataAccepted (ignored ++ 0b0101#4 : BitVec (4 + 4)) = true := by
  rw [dataAccepted, beq_iff_eq]
  exact BitVec.extractLsb'_append_eq_right

/-- Settles O56: the token wait ends at its first poll, the block's bytes and its CRC follow, and a block read changes
what a block step can. -/
theorem startTokenBringsBlock : Obligations.StartTokenBringsBlock := by
  intro base s hl ht hb
  obtain ⟨_, u, hu, rfl, data, crc, hdata, hcrc, hw, hm⟩ :=
    (ends_readBlock_at_once (F := True) (base := base) (s := s.answering 0xFE) ht rfl).exists trivial
  have hrow : (answerNext 0xFE >>= fun _ => readBlock base Config.blockBytes) s = .ok true u :=
    bind_ok_iff.mpr ⟨(), _, answerNext_apply 0xFE s, hu⟩
  have hk := block_startBlockRx base s true u hrow
  exact ⟨_, data, crc, claimed_of_ok hl hb hrow, rfl, hdata, hcrc, hw, hm, hk.onlyCardAndMemory_returned _, hk.regs⟩

/-- Settles O57: both rows are one block write, which ends under R108, whose trace says whether the block was accepted, and
which takes the answers of a card that accepts at once. -/
theorem blockIsSent : Obligations.BlockIsSent := by
  intro base i token s hi hl hb
  rw [exec_blockTx hi]
  refine ⟨fun hf => ?_, fun during response rest ht hd hr ha => ?_⟩
  · obtain ⟨ok, u, hu, -⟩ := (ends_writeBlock (F := True) base Config.blockBytes token fun _ => hf).exists trivial
    have hk := keeps_writeBlock _ _ _ s ok u hu
    obtain ⟨l, hw, hrun⟩ := wire_writeBlock base token ok u hu
    exact ⟨u.returned (some (.bool ok)), ok, l, claimed_of_ok hl hb hu, (hk.fair (fun _ => hf) trivial).same rfl rfl, rfl,
      hk.onlyCard_returned _, hk.regs, hw, hrun⟩
  · obtain ⟨u, hu, -, -, hrest, -⟩ := answers_writeBlock base token hd hr s rest hl.cfg ht ha
    exact ⟨_, claimed_of_ok hl hb hu, rfl, hrest⟩

/-- Settles O58: the sequence ends, its trace is the stop token's, and a ready wait is all that writes a register. -/
theorem stopTokenSequence : Obligations.StopTokenSequence := by
  intro s hl hf
  obtain ⟨_, u, hu, -⟩ := (ends_stopTran (F := True) fun _ => hf).exists trivial
  have hk := keeps_stopTran s () u hu
  obtain ⟨l, hrun, hw⟩ := trace_stopTran () u hu
  refine ⟨u.returned none, l, callUnit_of_ok hl hu, (hk.fair (fun _ => hf) trivial).same rfl rfl, hrun, ?_⟩
  show State.returned u none = _
  rw [hk.same, hk.wait_same, hw]
  rfl

/-- Settles O59: the nibble is the remainder, and the row reads the byte put in front of the answers in its one exchange. -/
theorem dataResponseAccepted : Obligations.DataResponseAccepted := by
  refine ⟨dataAccepted_iff, fun ignored s hl ht => ?_⟩
  have hresp := readDataResponse_apply (s := s.answering (ignored ++ 0b0101#4)) (by simp [State.answering, ht])
  have hcall : exec (.dataRespAccepted ignored) s = _ :=
    callBool_of_ok hl (bind_ok_iff.mpr ⟨(), _, answerNext_apply _ s, hresp⟩)
  rw [hcall]
  simp [State.returned, State.answering, State.exchanged, Env.answer, Env.afterXchg, ht, dataAccepted_append]

end Sys2Proof.Machine
end

section
/-! The sector transfers (44_facade.md R224, R225): the sequence of 43_block_transfer.md R192 to R195 between the claim and
the release of the bus. -/

namespace Sys2Proof.Machine

/-- What lets a `read` or `write` run its sequence: a legal block free to serve it with the bus released, its preconditions
passed, its buffer lent (R220, R221, R228). -/
structure State.Admits (s : State) (acc : Access) (q : ReqArgs) : Prop where
  legal : s.Legal
  free : s.Free
  released : s.cs = .deselected
  passes : precondition s.status q.unit q.count = none
  lent : s.Lends acc q.buf (requestBytes q.count)

/-- The state after a request whose sector sequence ended in `u` with the success `ok`: the bus released and the result
delivered (R224, R225, R220). -/
def State.transferred (u : State) (ok : Bool) : State :=
  State.concluded { u with
    seq := .result
    cs := .deselected
    wire := u.wire ++ [.deselect] } (if ok = true then 0 else 1)

section
variable {s t u : State} {ok : Bool} {op : Byte} {q : ReqArgs} {acc : Access} {m : M Bool} {R : Memory → Memory → Prop}

@[simp] theorem State.transferred_mem : (u.transferred ok).mem = u.mem := rfl
@[simp] theorem State.transferred_env : (u.transferred ok).env = u.env := rfl
@[simp] theorem State.transferred_wire : (u.transferred ok).wire = u.wire ++ [.deselect] := rfl

/-- A sector sequence delivers nothing itself, so its request delivers one result. -/
theorem transferred_delivered (hk : Keeps (Sector R) m) (h : m (s.accepted op q).claimed = .ok ok u) :
    (u.transferred ok).delivered = s.delivered ++ [if ok = true then 0 else 1] :=
  congrArg (· ++ _) (hk _ _ _ h).delivered

/-- A transfer that passes its preconditions and ends has run its sequence with the bus claimed. -/
theorem TransferStep.ran (h : TransferStep op q acc m R s t) (hp : precondition s.status q.unit q.count = none) :
    ∃ ok u, m (s.accepted op q).claimed = .ok ok u ∧ t = u.transferred ok := by
  obtain ⟨r, hr, -⟩ | ⟨-, -, -, r, v, hv, -, -, rfl⟩ := h
  · rw [hp] at hr
    cases hr
  · obtain ⟨ok, u, hu, rfl, rfl⟩ := claimedTransfer_ok hv
    exact ⟨ok, u, hu, rfl⟩

/-- A transfer admitted ends as its sequence does. -/
theorem request_of_sequence {single : Word → Nat → M Bool} {multi : Word → Nat → Nat → M Bool} (ha : s.Admits acc q)
    (h : chosen q single multi (s.accepted op q).claimed = .ok ok u) :
    run (request op q (transfer acc single multi)) s = .next (u.transferred ok) := by
  refine request_of_ok ha.legal ha.free ?_
  rw [transfer_claimed ha.passes ha.lent]
  exact claimedTransfer_of_ok (s := s.accepted op q) ha.released h

/-- A read admitted ends as its sequence does (R224). -/
theorem exec_read_of_sequence (ha : s.Admits .store q)
    (h : chosen q singleRead multiRead (s.accepted 2 q).claimed = .ok ok u) :
    ∃ t, exec (.read q) s = .next t ∧ t.delivered = s.delivered ++ [if ok = true then 0 else 1] ∧ t.mem = u.mem ∧
      t.env = u.env :=
  ⟨_, request_of_sequence ha h, transferred_delivered sector_chosenRead h, rfl, rfl⟩

/-- A write admitted ends as its sequence does (R225). -/
theorem exec_write_of_sequence (ha : s.Admits .load q)
    (h : chosen q singleWrite multiWrite (s.accepted 3 q).claimed = .ok ok u) :
    ∃ t, exec (.write q) s = .next t ∧ t.delivered = s.delivered ++ [if ok = true then 0 else 1] ∧ t.mem = u.mem ∧
      t.env = u.env :=
  ⟨_, request_of_sequence ha h, transferred_delivered sector_chosenWrite h, rfl, rfl⟩

/-- A single-block read whose command is accepted at once ends as its block does under the ticks and answers given (R192,
R224). -/
theorem exec_read_of_timed {tk ticks : List Tick} {gate : Tick} {d l rest : List Byte} {W : Memory → Memory}
    (ha : s.Admits .store q) (h1 : q.count = 1) (ht : s.env.transport = none) (hd : d.length = 6)
    (h : Timed s.cfg (readBlock q.buf Config.blockBytes) tk l ok W) (hti : s.env.ticks = gate :: (tk ++ ticks))
    (han : s.env.answers = reply d 0x00 ++ (l ++ rest)) :
    ∃ t, exec (.read q) s = .next t ∧ t.delivered = s.delivered ++ [if ok = true then 0 else 1] ∧ t.mem = W s.mem ∧
      t.env.ticks = ticks ∧ t.env.answers = rest := by
  obtain ⟨u, hu, -, -, huticks, hurest, hum⟩ := timed_singleRead ha.legal.cfg q.sector q.buf hd gate h
    (s.accepted 2 q).claimed ticks rest rfl ht hti (han.trans (List.append_assoc ..).symm)
  have hchosen : chosen q singleRead multiRead (s.accepted 2 q).claimed = .ok ok u := by
    rw [chosen, if_pos h1]
    exact hu
  obtain ⟨t, hex, hdel, hmem, henv⟩ := exec_read_of_sequence ha hchosen
  exact ⟨t, hex, hdel, hmem.trans hum, henv ▸ huticks, henv ▸ hurest⟩

end

/-- Settles O35: the read ran its sequence between the claim and the release, and the trace of that sequence is the wire and
the memory. -/
theorem readFollowsSequence : Obligations.ReadFollowsSequence := by
  intro q s t hu hs hc h
  obtain ⟨hl, -, hstep⟩ := exec_read_next h
  obtain ⟨ok, u, hrun, rfl⟩ := hstep.ran (precondition_pass.mpr ⟨hu, hs, hc⟩)
  obtain ⟨l, blocks, hread, hw, hm⟩ := trace_chosenRead (s := (s.accepted 2 q).claimed) hl.cfg ok u hrun
  exact ⟨l, blocks, ok, hread, by simp [hw, State.claimed], hm, transferred_delivered sector_chosenRead hrun⟩

/-- Settles O38: the write ran its sequence between the claim and the release, whose trace is the wire, and which keeps
memory. -/
theorem writeFollowsSequence : Obligations.WriteFollowsSequence := by
  intro q s t hu hs hc h
  obtain ⟨hl, -, hstep⟩ := exec_write_next h
  obtain ⟨ok, u, hrun, rfl⟩ := hstep.ran (precondition_pass.mpr ⟨hu, hs, hc⟩)
  obtain ⟨l, blocks, hwrite, hw⟩ := trace_chosenWrite (s := (s.accepted 3 q).claimed) hl.cfg ok u hrun
  exact ⟨l, blocks, ok, hwrite, by simp [hw, State.claimed], (sector_chosenWrite _ _ _ hrun).mem,
    transferred_delivered sector_chosenWrite hrun⟩

/-- Settles O36: the sequence takes the answers of a card that keeps nobody waiting and ends with success. -/
theorem readSucceeds : Obligations.ReadSucceeds := by
  intro q s d d12 rest st12 stuff blocks hl hf ht hcs hu hs hc hb hd hd12 hst hn hblocks ha
  obtain ⟨u, hrun, -, -, hrest, hm⟩ := answers_chosenRead hn hd hd12 hst hblocks (s.accepted 2 q).claimed rest hl.cfg ht ha
  obtain ⟨t, hex, hdel, hmem, henv⟩ :=
    exec_read_of_sequence ⟨hl, hf, hcs, precondition_pass.mpr ⟨hu, hs, hc⟩, hb⟩ hrun
  exact ⟨t, hex, hdel, hmem.trans hm, henv ▸ hrest⟩

/-- Settles O39: the sequence takes the answers of a card that accepts every block at once, ends with success and stores
nothing. -/
theorem writeSucceeds : Obligations.WriteSucceeds := by
  intro q s d rest b0 b1 blocks hl hf ht hcs hu hs hc hb hd hn hblocks ha
  obtain ⟨u, hrun, -, -, hrest, hm⟩ := answers_chosenWrite hn hd hblocks (s.accepted 3 q).claimed rest hl.cfg ht ha
  obtain ⟨t, hex, hdel, hmem, henv⟩ :=
    exec_write_of_sequence ⟨hl, hf, hcs, precondition_pass.mpr ⟨hu, hs, hc⟩, hb⟩ hrun
  exact ⟨t, hex, hdel, hmem.trans hm, henv ▸ hrest⟩

/-- Settles O60: the three ways the token wait ends decide how the block does, and so how the single-block read does. -/
theorem tokenWaitFollowsTicks : Obligations.TokenWaitFollowsTicks := by
  intro q s gate t0 ts ticks d bs rest hl hf ht hcs hu hs h1 hb hd hbs hts
  have hp := hl.cfg
  have hadmits : s.Admits .store q :=
    ⟨hl, hf, hcs, precondition_pass.mpr ⟨hu, hs, by rw [h1]; decide⟩, by rw [h1]; exact hb⟩
  have hskips (b : Byte) (h : b ∈ bs) : judgeToken s.cfg b = none := judgeToken_skips (hbs b h).1 (hbs b h).2
  refine ⟨fun data crc hdata hcrc hlen hti han => ?_, fun last hlast hlen hti han => ?_,
    fun b hstop hff hfe hlen hti han => ?_⟩
  · exact exec_read_of_timed hadmits h1 ht hd (timed_readBlock hskips hts hp q.buf hlen hdata hcrc) hti (by simp [han])
  · exact exec_read_of_timed (gate := gate) hadmits h1 ht hd
      (timed_readBlock_fails hp q.buf _ (timed_waitToken_expired hskips hts hlen hlast)) (by simp [hti]) han
  · exact exec_read_of_timed hadmits h1 ht hd
      (timed_readBlock_fails hp q.buf _ (timed_waitToken_ended hskips hts hlen (judgeToken_stops hstop hff hfe))) hti
      (by simp [han])

end Sys2Proof.Machine
end

section
/-! The host port (44_facade.md R220, R228, 70_reset_and_hazards.md R271, R274): the word a step takes, the requests and
block rows refused for what the host does meanwhile, and what every request that ends leaves behind. -/

namespace Sys2Proof.Machine

section
variable {s t u : State} {i : Instr} {c : Code} {rest : List HostAct} {op : Byte} {q : ReqArgs}

/-! The next word. -/

theorem understand_of_fits (h : decode c = .ok i) (hw : i.wellFormed s.cfg.addrWidth = true) :
    understand s c = .ok i := by
  simp [understand, h, hw]

/-- A word that spells an instruction is taken from the inbox and run. -/
theorem step_of_word (hi : s.inbox = .submit c :: rest ∨ s.inbox = .overlap c :: rest) (h : decode c = .ok i)
    (hw : i.wellFormed s.cfg.addrWidth = true) : step s = exec i { s with inbox := rest } := by
  have hu : understand { s with inbox := rest } c = .ok i := understand_of_fits h hw
  rcases hi with hi | hi <;> simp [step, fetch, hi, hu]

theorem decode_of_decodeTableWord {nbits w : Nat} (h : decodeTableWord nbits w = some i) :
    decode (tableCode nbits w) = .ok i := by
  unfold decodeTableWord at h
  split at h
  · cases h
    assumption
  · cases h

/-! Refusals of the arbiter. -/

/-- The arbiter serves one request at a time (R220). -/
theorem accept_refuses (h : s.busy = true ∨ s.intrusions.any HostAct.isOverlap = true) :
    accept op q s = .error (.refuse .concurrentRequest) s := by
  unfold accept
  split
  · rfl
  · next hb => exact if_pos (h.resolve_left hb)

theorem request_concurrent {serve : M Byte} (hl : s.Legal)
    (h : s.busy = true ∨ s.intrusions.any HostAct.isOverlap = true) :
    run (request op q serve) s = .refused .concurrentRequest := by
  simp [run, request, bind, EStateM.bind, enter_of_legal hl, accept_refuses h]

/-! Refusals for a buffer. -/

section
variable {acc : Access} {single : Word → Nat → M Bool} {multi : Word → Nat → Nat → M Bool} {base n : Nat} {m : M Bool}

theorem bufferOk_eq_false (h : ¬s.Accessible acc base n) : s.bufferOk acc base n = false :=
  Bool.eq_false_iff.mpr fun hok => h (bufferOk_iff.mp hok)

/-- A transfer whose buffer the host touches is refused before its preconditions are looked at (R228 (c)). -/
theorem request_transfer_touched (hl : s.Legal) (hb : s.busy = false)
    (ho : s.intrusions.any HostAct.isOverlap = false)
    (h : s.intrusions.any (HostAct.touches q.buf (requestBytes q.count)) = true) :
    run (request op q (transfer acc single multi)) s = .refused .bufferTouched :=
  request_refuses hl hb ho ⟨_, transfer_touched h⟩

/-- A transfer that would use a buffer it may not is refused (R228 (b)). -/
theorem request_transfer_badBuffer (hl : s.Legal) (hb : s.busy = false)
    (ho : s.intrusions.any HostAct.isOverlap = false)
    (hu : s.intrusions.any (HostAct.touches q.buf (requestBytes q.count)) = false)
    (hp : precondition s.status q.unit q.count = none) (h : ¬s.Accessible acc q.buf (requestBytes q.count)) :
    run (request op q (transfer acc single multi)) s = .refused .badBuffer :=
  request_refuses hl hb ho ⟨_, transfer_badBuffer hu hp (bufferOk_eq_false h)⟩

/-- A block row whose buffer the host touches (log 15). -/
theorem claimed_touched (hl : s.Legal) (h : s.intrusions.any (HostAct.touches base n) = true) :
    run (callBool (claimBuffer acc base n >>= fun _ => m)) s = .refused .bufferTouched := by
  rw [claimed_refuses hl fun hlent => by simp [hlent.untouched] at h, if_pos h]

/-- A block row whose buffer is left alone, but not accessible (log 15). -/
theorem claimed_badBuffer (hl : s.Legal) (hu : s.intrusions.any (HostAct.touches base n) = false)
    (h : ¬s.Accessible acc base n) :
    run (callBool (claimBuffer acc base n >>= fun _ => m)) s = .refused .badBuffer := by
  rw [claimed_refuses hl fun hlent => h (bufferOk_iff.mp hlent.ok), if_neg (by simp [hu])]

end

/-! What a request leaves behind. -/

/-- The fields latched for a request (10_state.md R31). -/
def Regs.fields (r : Regs) : Option Byte × Option Byte × Option Nat × Option Word × Option Word :=
  (r.reqOp, r.reqUnit, r.reqBuf, r.reqSector, r.reqCount)

/-- What no service of a request touches: the fields latched for it, the results delivered before, and the value the last
call returned (R220; log 19). -/
structure KeepsRequest (s t : State) : Prop where
  fields : t.regs.fields = s.regs.fields
  delivered : t.delivered = s.delivered
  ret : t.ret = s.ret

theorem KeepsRequest.refl (s : State) : KeepsRequest s s := ⟨rfl, rfl, rfl⟩

theorem Transferred.keepsRequest {R : Memory → Memory → Prop} (h : Transferred R s t) : KeepsRequest s t :=
  ⟨(congrArg Regs.fields h.regs :), by rw [h.same], by rw [h.same]⟩

theorem Initialized.keepsRequest (h : Initialized s t) : KeepsRequest s t :=
  ⟨(congrArg Regs.fields h.regs :), by rw [h.same], by rw [h.same]⟩

/-- A request with these fields ended: the block is idle, the fields stand in their registers and one result is delivered
(R220, 60_exceptions.md R249). -/
def Delivers (op : Byte) (q : ReqArgs) (s t : State) : Prop :=
  t.busy = false ∧ t.seq = .idle ∧ t.ret = s.ret ∧ t.regs.reqOp = some op ∧ t.regs.reqUnit = some q.unit ∧
    t.regs.reqBuf = some q.buf ∧ t.regs.reqSector = some q.sector ∧ t.regs.reqCount = some q.count ∧
    ∃ r, t.regs.result = some r ∧ t.delivered = s.delivered ++ [r]

/-- A service that keeps the request is concluded with its fields and one result. -/
theorem KeepsRequest.delivers (h : KeepsRequest (s.accepted op q) u) (r : Byte) : Delivers op q s (u.concluded r) := by
  have hfields : u.regs.fields = (some op, some q.unit, some q.buf, some q.sector, some q.count) := h.fields
  simp only [Regs.fields, Prod.mk.injEq] at hfields
  obtain ⟨hop, hunit, hbuf, hsector, hcount⟩ := hfields
  exact ⟨rfl, rfl, h.ret, hop, hunit, hbuf, hsector, hcount, r, rfl, congrArg (· ++ [r]) h.delivered⟩

theorem delivers_answered (r : Byte) : Delivers op q s ((s.accepted op q).concluded r) := (KeepsRequest.refl _).delivers r

theorem TransferStep.delivers {acc : Access} {m : M Bool} {R : Memory → Memory → Prop}
    (h : TransferStep op q acc m R s t) : Delivers op q s t := by
  obtain ⟨r, -, rfl⟩ | ⟨-, -, -, r, u, -, -, hu, rfl⟩ := h
  · exact delivers_answered r
  · exact hu.keepsRequest.delivers r

end

/-- Settles O12: the check of the buffer is the byte-by-byte one; a transfer looks at touches first, then at its
preconditions, then at its buffer, and a block row at the two duties in the same order. -/
theorem badBufferRefused : Obligations.BadBufferRefused := by
  intro s hl
  refine ⟨fun acc base n => bufferOk_iff, fun q hb ho => ⟨fun ht => ?_, fun hu hunit hready hcount => ?_⟩,
    fun base => ⟨fun ht => ?_, fun hu => ?_⟩⟩
  · exact ⟨request_transfer_touched hl hb ho ht, request_transfer_touched hl hb ho ht⟩
  · have hp := precondition_pass.mpr ⟨hunit, hready, hcount⟩
    exact ⟨request_transfer_badBuffer hl hb ho hu hp, request_transfer_badBuffer hl hb ho hu hp⟩
  · exact ⟨claimed_touched hl ht, claimed_touched hl ht, claimed_touched hl ht⟩
  · exact ⟨claimed_badBuffer hl hu, fun h => ⟨claimed_badBuffer hl hu h, claimed_badBuffer hl hu h⟩⟩

/-- Settles O22: no request was served or arrived, and each service keeps what was latched and delivered. -/
theorem requestLifecycle : Obligations.RequestLifecycle := by
  intro i op q s t hf h
  obtain ⟨hb, ho⟩ := request_alone hf h
  suffices Delivers op q s t from ⟨hb, ho, this⟩
  rcases request_cases i with hi | ⟨q, rfl⟩ | ⟨q, rfl⟩ | ⟨q, rfl⟩ | ⟨q, rfl⟩ | ⟨q, rfl⟩
  · simp [hi] at hf
  all_goals cases hf
  · obtain ⟨-, -, rfl⟩ := exec_status_next h
    exact delivers_answered _
  · obtain ⟨-, -, rfl⟩ := exec_ioctl_next h
    exact delivers_answered _
  · obtain ⟨-, -, ⟨-, rfl⟩ | ⟨-, -, u, -, hu, rfl⟩⟩ := exec_init_next h
    · exact delivers_answered _
    · exact hu.keepsRequest.delivers _
  · exact (exec_read_next h).2.2.delivers
  · exact (exec_write_next h).2.2.delivers

/-- Settles O5: the word taken decodes to the instruction run; a table word is a submission in front of the inbox. -/
theorem stepRunsDecodedInstruction : Obligations.StepRunsDecodedInstruction :=
  ⟨fun _ _ _ _ hi h hw => step_of_word hi h hw, fun s nbits w _ h hw =>
    step_of_word (s := s.withFetchWord nbits w) (.inl rfl) (decode_of_decodeTableWord h) hw⟩

/-- Settles O9: every request meets the arbiter before its service. -/
theorem concurrentRequestRefused : Obligations.ConcurrentRequestRefused := by
  intro s i f hf hl h
  rcases request_cases i with hi | ⟨q, rfl⟩ | ⟨q, rfl⟩ | ⟨q, rfl⟩ | ⟨q, rfl⟩ | ⟨q, rfl⟩
  · simp [hi] at hf
  all_goals exact request_concurrent hl h

end Sys2Proof.Machine
end

section
/-! Requests answered by the arbiter alone (44_facade.md R221 to R223, R226): no wire event, and nothing written but the
registers of R220. -/

namespace Sys2Proof.Machine

section
variable {s : State} {op : Byte} {q : ReqArgs} {r : Byte} {st : Status} {unit : Byte} {count : Word}

/-- A request whose service only says its result changes nothing else. -/
theorem request_answers {serve : M Byte} (hl : s.Legal) (hf : s.Free)
    (h : serve (s.accepted op q) = .ok r (s.accepted op q)) :
    run (request op q serve) s = .next (s.answered op q r) :=
  accepted_concluded (r := r) hf ▸ request_of_ok hl hf h

/-- The status word (60_exceptions.md R241). -/
theorem statusWord_eq (st : Status) : statusWord st = if st = .ready then 0x00 else 0x01 := by
  cases st <;> rfl

/-- A host that does nothing meanwhile touches no buffer. -/
theorem State.Free.untouched (hf : s.Free) (base n : Nat) : s.intrusions.any (HostAct.touches base n) = false := by
  simp [hf.alone]

/-! The preconditions in their order (R221). -/

theorem precondition_unit (h : unit ≠ 0) : precondition st unit count = some resultParamError := if_pos h

theorem precondition_session (hu : unit = 0) (h : st ≠ .ready) : precondition st unit count = some resultNotReady := by
  simp [precondition, hu, h]

theorem precondition_count (hu : unit = 0) (hs : st = .ready) (h : count = 0) :
    precondition st unit count = some resultParamError := by
  simp [precondition, hu, hs, h]

/-- A precondition that fails answers for a read and a write alike. -/
theorem exec_transfer_answers (hl : s.Legal) (hf : s.Free) (h : precondition s.status q.unit q.count = some r) :
    exec (.read q) s = .next (s.answered 2 q r) ∧ exec (.write q) s = .next (s.answered 3 q r) :=
  have hu := hf.untouched q.buf (requestBytes q.count)
  ⟨request_answers hl hf (transfer_precondition hu h), request_answers hl hf (transfer_precondition hu h)⟩

end

/-- Settles O29: each failing precondition is the first that fails, and its code is the answer. -/
theorem preconditionFailures : Obligations.PreconditionFailures := fun _ _ hl hf =>
  ⟨fun h => exec_transfer_answers hl hf (precondition_unit h),
    fun hu h => exec_transfer_answers hl hf (precondition_session hu h),
    fun hu hs h => exec_transfer_answers hl hf (precondition_count hu hs h)⟩

/-- Settles O27: the service reads the session and says its status word. -/
theorem statusAnswersSession : Obligations.StatusAnswersSession := fun _ s hl hf =>
  statusWord_eq s.status ▸ request_answers hl hf rfl

/-- Settles O28: the service is its result. -/
theorem ioctlAnswersError : Obligations.IoctlAnswersError := fun _ _ hl hf => request_answers hl hf rfl

/-- Settles O30: a session that is `Ready` is not negotiated again. -/
theorem initOnReadySession : Obligations.InitOnReadySession := fun q s hl hf hr =>
  request_answers hl hf (initSession_ready (s := s.accepted 1 q) hr)

end Sys2Proof.Machine
end

section
/-! Requests that use the card complete when the environment keeps 40_transport.md R108, and what they change then
(44_facade.md R223 to R225). -/

namespace Sys2Proof.Machine

section
variable {s u : State} {op : Byte} {q : ReqArgs} {r : Byte} {acc : Access} {R : Memory → Memory → Prop}

/-- The assumptions of R108 are about the environment and the parameters, which no instruction changes. -/
theorem KeepsSetup.fair (h : KeepsSetup s u) (ht : s.env.transport = none → u.env.transport = none)
    (hk : u.env.tickFair = s.env.tickFair) (hs : s.Fair) : u.Fair :=
  ⟨ht hs.transport, hk.trans hs.ticks, h.cfg ▸ hs.ready, h.cfg ▸ hs.token⟩

theorem Initialized.fair (h : Initialized s u) : s.Fair → u.Fair := h.keepsSetup.fair h.transport h.ticks

theorem Transferred.fair (h : Transferred R s u) : s.Fair → u.Fair := h.keepsSetup.fair h.transport h.ticks

/-- The end of a request writes the result and leaves what its service kept of the other registers. -/
theorem reported_of_latched {g : Regs → Regs → Regs}
    (hg : ∀ a b : Regs, g { a with result := some r } { b with result := some r } = { g a b with result := some r })
    (h : g (Regs.latched op q) u.regs = Regs.latched op q) :
    g (Regs.reported op q r) (u.concluded r).regs = Regs.reported op q r := by
  show g { Regs.latched op q with result := some r } { u.regs with result := some r } = _
  rw [hg, h]
  rfl

/-- All an `initialize()` that negotiates changes: the session, the speed, registers, draws and wire (R223). -/
theorem Initialized.concluded_same (hf : s.Free) (hc : s.cs = .deselected) (h : Initialized (s.accepted 1 q) u) :
    u.concluded r = { s with
      version := u.version
      status := u.status
      speed := .fast
      seq := .idle
      regs := (u.concluded r).regs
      env := u.env
      wire := u.wire
      delivered := s.delivered ++ [r] } := by
  rw [h.same]
  simp only [State.concluded, State.accepted, hf.busy, hc]

/-- All a transfer that claims the bus changes: memory, registers, draws and wire (R224, R225). -/
theorem Transferred.concluded_same (hf : s.Free) (hc : s.cs = .deselected) (h : Transferred R (s.accepted op q) u) :
    u.concluded r = { s with
      seq := .idle
      regs := (u.concluded r).regs
      mem := u.mem
      env := u.env
      wire := u.wire
      delivered := s.delivered ++ [r] } := by
  rw [h.same]
  simp only [State.concluded, State.accepted, hf.busy, hc]

/-- A transfer admitted ends as its claimed part does. -/
theorem request_of_claimed {single : Word → Nat → M Bool} {multi : Word → Nat → Nat → M Bool} (ha : s.Admits acc q)
    (h : claimedTransfer (chosen q single multi) (s.accepted op q) = .ok r u) :
    run (request op q (transfer acc single multi)) s = .next (u.concluded r) :=
  request_of_ok ha.legal ha.free ((transfer_claimed ha.passes ha.lent).trans h)

end

/-- Settles O31: the negotiation ends under R108 having done no more than it may, and the request adds the status word of
the session it left. -/
theorem initCompletes : Obligations.InitCompletes := by
  intro q s hl hf hs hc hst
  have hfair : (s.accepted 1 q).Fair := hs.same rfl rfl
  obtain ⟨_, u, hu, hi⟩ := (ends_negotiate (F := True) (fun _ => hfair) hl.cfg hc).exists trivial
  exact ⟨_, _, exec_init_of_negotiate hl hf (by simp [hst]) hu, (hi.fair hfair).same rfl rfl, statusWord_eq u.status,
    hi.concluded_same hf hc, reported_of_latched (fun _ _ => rfl) hi.regs⟩

/-- Settles O34: the claimed sequence ends under R108 and stores in the buffer only. -/
theorem readCompletes : Obligations.ReadCompletes := by
  intro q s hl hf hs hc hm hunit hready hcount hb
  have hfair : (s.accepted 2 q).Fair := hs.same rfl rfl
  have hadmits : s.Admits .store q := ⟨hl, hf, hc, precondition_pass.mpr ⟨hunit, hready, hcount⟩, hb⟩
  obtain ⟨r, u, hu, hr, ht⟩ := (ends_claimedRead (F := True) (fun _ => hfair) hl.cfg hc).exists trivial
  exact ⟨_, r, request_of_claimed hadmits hu, (ht.fair hfair).same rfl rfl, hr, ht.concluded_same hf hc,
    reported_of_latched (fun _ _ => rfl) ht.regs, (ht.mem hm).2⟩

/-- Settles O37: the claimed sequence ends under R108 and stores nothing. -/
theorem writeCompletes : Obligations.WriteCompletes := by
  intro q s hl hf hs hc hunit hready hcount hb
  have hfair : (s.accepted 3 q).Fair := hs.same rfl rfl
  have hadmits : s.Admits .load q := ⟨hl, hf, hc, precondition_pass.mpr ⟨hunit, hready, hcount⟩, hb⟩
  obtain ⟨r, u, hu, hr, ht⟩ := (ends_claimedWrite (F := True) (fun _ => hfair) hl.cfg hc).exists trivial
  have hmem : u.mem = s.mem := ht.mem
  have hsame := ht.concluded_same (r := r) hf hc
  rw [hmem] at hsame
  exact ⟨_, r, request_of_claimed hadmits hu, (ht.fair hfair).same rfl rfl, hr, hsame,
    reported_of_latched (fun _ _ => rfl) ht.regs⟩

end Sys2Proof.Machine
end

section
/-! The result code of every request (60_exceptions.md R241). -/

namespace Sys2Proof.Machine

section
variable {s t u : State} {op : Byte} {q : ReqArgs} {r r' : Byte}

/-- The one result a request delivers is the one it is concluded with (44_facade.md R220). -/
theorem KeepsRequest.result_eq (h : KeepsRequest (s.accepted op q) u)
    (hd : (u.concluded r').delivered = s.delivered ++ [r]) : r = r' := by
  have hlast : u.delivered ++ [r'] = s.delivered ++ [r] := hd
  rw [h.delivered] at hlast
  exact (List.singleton_inj.mp (List.append_cancel_left hlast)).symm

theorem result_eq_of_answered (hd : ((s.accepted op q).concluded r').delivered = s.delivered ++ [r]) : r = r' :=
  (KeepsRequest.refl _).result_eq hd

/-- A transfer delivers the code of the precondition that fails first, or else that of its sequence (R221). -/
theorem TransferStep.result {acc : Access} {m : M Bool} {R : Memory → Memory → Prop} (h : TransferStep op q acc m R s t)
    (hd : t.delivered = s.delivered ++ [r]) :
    if q.unit ≠ 0 then r = 4 else if s.status ≠ .ready then r = 3 else if q.count = 0 then r = 4 else r = 0 ∨ r = 1 := by
  obtain ⟨c, hp, rfl⟩ | ⟨hp, -, -, c, u, -, hc, hu, rfl⟩ := h
  · obtain rfl : r = c := result_eq_of_answered hd
    unfold precondition at hp
    split_ifs at hp ⊢ <;> exact (Option.some.inj hp).symm
  · obtain rfl : r = c := hu.keepsRequest.result_eq hd
    obtain ⟨hunit, hready, hcount⟩ := precondition_pass.mp hp
    rwa [if_neg (not_not.mpr hunit), if_neg (not_not.mpr hready), if_neg hcount]

end

/-- Settles O23: a call delivers nothing, and each request concludes with the code its service says. -/
theorem requestResults : Obligations.RequestResults := by
  intro i s t r h hd
  rcases request_cases i with hi | ⟨q, rfl⟩ | ⟨q, rfl⟩ | ⟨q, rfl⟩ | ⟨q, rfl⟩ | ⟨q, rfl⟩
  · rw [(exec_call hi h).delivered] at hd
    simp at hd
  · obtain ⟨-, -, rfl⟩ := exec_status_next h
    exact (result_eq_of_answered hd).trans (statusWord_eq s.status)
  · obtain ⟨-, -, rfl⟩ := exec_ioctl_next h
    exact result_eq_of_answered hd
  · obtain ⟨-, -, ⟨hready, rfl⟩ | ⟨-, -, u, -, hu, rfl⟩⟩ := exec_init_next h
    · exact (result_eq_of_answered hd).trans (if_pos hready).symm
    · exact (hu.keepsRequest.result_eq hd).trans (statusWord_eq u.status)
  · obtain ⟨-, -, hread⟩ := exec_read_next h
    exact hread.result hd
  · obtain ⟨-, -, hwrite⟩ := exec_write_next h
    exact hwrite.result hd

end Sys2Proof.Machine
end

section
/-! Between requests (70_reset_and_hazards.md R271, 20_memory.md R64): the waiting block, and the host's accesses to its
own memory. -/

namespace Sys2Proof.Machine

section
variable {s t : State} {rest : List HostAct} {a : Nat} {b : Byte}

/-! What is next. -/

theorem fetch_of_nil (h : s.inbox = []) : fetch s = .nothing := by
  simp [fetch, h]

theorem fetch_of_poke (h : s.inbox = .poke a b :: rest) : fetch s = .hostOnly { s with
    inbox := rest
    mem := s.mem.write a b } := by
  simp [fetch, h]

theorem fetch_of_touch (h : s.inbox = .touch a :: rest) : fetch s = .hostOnly { s with inbox := rest } := by
  simp [fetch, h]

/-! What the block does about it. -/

theorem step_of_nothing (h : fetch s = .nothing) : step s = .next s := by
  simp [step, h]

theorem step_of_hostOnly (h : fetch s = .hostOnly t) : step s = .next t := by
  simp [step, h]

end

/-- Settles O6: an empty inbox holds nothing to do, and the block takes no part in what the host does to its own memory. -/
theorem blockWaitsForRequest : Obligations.BlockWaitsForRequest := fun _ =>
  ⟨fun h => step_of_nothing (fetch_of_nil h), fun _ _ _ =>
    ⟨fun h => step_of_hostOnly (fetch_of_poke h), fun h => step_of_hostOnly (fetch_of_touch h)⟩⟩

end Sys2Proof.Machine
end
